-- ==== Sys2Proof/Word.lean ====
section
/-! DEFINITION. The widths the spec names: a `u32` pattern (00_scope R10), a byte of Memory (20_memory R40),
and the 5-bit register field of an instruction word (30_encoding R71). -/

namespace Sys2Proof

/-- A `u32` pattern: a register value, the pc, a word of Memory (R10). -/
abbrev Word := BitVec 32

/-- One element of Memory, and one byte of a console stream (R40, R268). -/
abbrev Byte := BitVec 8

/-- The number of a general register, x0..x31, as a register field holds it (R20, R71). -/
abbrev RegIdx := BitVec 5

end Sys2Proof
end

