-- ==== Sys2Proof/Config.lean ====
section
/-! DEFINITION. The parameters of the block (00_scope R8): their types, and the ranges the spec allows.
The default VALUES, and the fixed constants of the same table, are in Machine/Defaults.lean. -/

namespace Sys2Proof

/-- The three readings of the BRANCH execute immediate (30_encoding R85, decision D9, OPEN). -/
inductive BranchImmExec where
  /-- Subtract 2^12 from the 13-bit field when its bit 11 is set. -/
  | subAt11
  /-- Drop bit 12 and sign-extend the low 12 bits. -/
  | sext12
  /-- Sign-extend the low 12 bits when bit 11 is set, keep the whole field otherwise. -/
  | orAt11
deriving DecidableEq, Repr

/-- The parameters that are fixed for a run and invisible to programs (R8, R28). They travel in the state,
where no step changes them (log 2). `initGPR` and `startMode` are read only when a run starts, and are
arguments of `powerOn` and of a controller session. -/
structure Params where
  /-- Capacity of Memory in bytes. -/
  memSize : Nat
  /-- The pc after power-on and after the host's `reset` command. -/
  resetAddr : Word
  /-- Whether LOAD and STORE reach the three console addresses (R51). -/
  periphEnabled : Bool
  /-- Whether the word 0x00100073 makes a semihosting request (R233). -/
  semihostEnabled : Bool
  /-- Which reading of R85 the execute path uses. -/
  branchImmExec : BranchImmExec
deriving DecidableEq, Repr

/-- The ranges of R283: 4 ≤ memSize ≤ 2^32, resetAddr unrestricted. -/
abbrev Params.legal (p : Params) : Prop := 4 ≤ p.memSize ∧ p.memSize ≤ 2 ^ 32

end Sys2Proof
end

