-- ==== Sys2Proof/Machine/Defaults.lean ====
section
/-! DEFINITION. The values of the parameter table (00_scope R8), each named once: the fixed constants, and the
defaults of the configurable parameters. -/

namespace Sys2Proof.Machine

/-- Console-in (R8, R269). -/
def consoleIn : Word := 0x04000000#32
/-- Console-out (R8, R269). -/
def consoleOut : Word := 0x04000004#32
/-- Console-err (R8, R269). -/
def consoleErr : Word := 0x04000008#32

/-- The word that triggers a semihosting request (R8, R233). -/
def semihostWord : Word := 0x00100073#32

/-- What a byte of Memory that no image and no STORE has written reads as: "zero-initialized" (R33, R40). -/
def unlistedByte : Byte := 0#8

/-- The defaults of R8. `branchImmExec` is OPEN with the default SubAt11 (decision D9; log 3). -/
def defaultParams : Params where
  memSize := 524288
  resetAddr := 0x00000100#32
  periphEnabled := false
  semihostEnabled := false
  branchImmExec := .subAt11

/-- DESIGN CHOICE (log 1), unsafe: x1..x31 at State.reset. The spec leaves `initGPR` OPEN (R33, decision D2). -/
def resetGPR : Vector Word 31 := Vector.replicate 31 0#32

end Sys2Proof.Machine
end

