-- ==== Sys2Proof/Machine/State.lean ====
section
/-! DEFINITION. The state of the block (10_state R20-R33), what passes between it and the host (60_exceptions
R266-R270), the reasons a step can stop, and the state after reset. -/

namespace Sys2Proof.Machine

/-- Memory: the bytes that differ from what an unlisted address reads as, by rising address (R40). -/
abbrev Memory := List Host.Cell

/-- The canonical form: addresses strictly rising, and no entry equal to an unlisted byte. -/
abbrev Memory.wf (m : Memory) : Prop :=
  m.Pairwise (fun c d => c.1 < d.1) ∧ ∀ c ∈ m, c.2 ≠ unlistedByte

/-- No byte is held outside Mem[0..size-1] (R40). -/
abbrev Memory.within (m : Memory) (size : Nat) : Prop := ∀ c ∈ m, c.1 < size

/-- The result value of a completed step (40_execute_cycle R127). -/
inductive StepResult where
  /-- A loaded value, an ALU result, a branch target or a link value. -/
  | value (v : Word)
  /-- None: STORE, ECALL, an UnrecognizedInstruction. -/
  | noValue
  /-- The Break marker: EBREAK. -/
  | breakMark
deriving DecidableEq, Repr

/-- The report of an UnrecognizedInstruction (60_exceptions R254, R255). -/
structure UnrecognizedReport where
  pc : Word
  word : Word
deriving DecidableEq, Repr

/-- What the block has sent to the host and the host has ready for it. Not state of the block (R32), and never read
back by it but for `input` (R268); held here because a step's result, report and bytes must go somewhere (log 7). -/
structure HostPort where
  /-- The lines the host's line source will still supply, the next one first, without line terminators (R270). -/
  input : List (List Byte)
  /-- The console stream `out`, oldest byte first (R268). -/
  out : List Byte
  /-- The console stream `err`, oldest byte first (R268). -/
  err : List Byte
  /-- The result trace, oldest first (R127). -/
  trace : List StepResult
  /-- The UnrecognizedInstruction reports, oldest first (R255). -/
  reports : List UnrecognizedReport
deriving DecidableEq, Repr

/-- The architectural state `(x[0..31], pc, Mem, halted)`, with the run's parameters and the host's side beside it.
x0 has no storage: it reads as zero in every state (R21). -/
structure State where
  /-- x1..x31: register r is at index r - 1 (R20). -/
  regs : Vector Word 31
  /-- The address of the instruction to execute (R24). -/
  pc : Word
  /-- Mem[0..memSize-1] (R40). -/
  mem : Memory
  /-- Set by EBREAK; while it is set no step runs (R31). -/
  halted : Bool
  /-- The parameters of the run, which no step changes (R8, R28; log 2). -/
  params : Params
  /-- What passes between the block and the host (R266). -/
  port : HostPort
deriving DecidableEq, Repr

/-- Which access raised an AddressFault (60_exceptions R250, R251). -/
inductive AccessKind where
  | fetch | load | store | semihost
deriving DecidableEq, Repr

/-- The record of an AddressFault, with the pc of the instruction that raised it (R250, R253). -/
structure AddressFault where
  kind : AccessKind
  addr : Word
  size : Nat
  pc : Word
deriving DecidableEq, Repr

/-- Why a step ends without a next state. -/
inductive Fault where
  /-- An access outside Memory (R46, R250): raised by fetch, by every LOAD and STORE, and by a semihosting string read.
  `left` is the state the step leaves (R252), from which the host's next command goes on (R259, R260). Safe: it is
  the outcome the spec itself gives the step (R128; log 4). -/
  | addressFault (info : AddressFault) (left : State)
  /-- The block is halted and takes no further step (R31, R120): raised by `step` alone. Safe (log 5). -/
  | haltedNoStep
  /-- A LOAD of console-in when the host has no line left: the step waits for ever (R270, D35, I9).
  Safe: the model stops where the hardware would wait (log 6). -/
  | consoleInBlocked
  /-- A semihosting string read that goes round Memory for ever (R235): only when memSize is 2^32 and no byte
  of Memory is zero. Safe: the step has no end (log 8). -/
  | stringNeverEnds
deriving DecidableEq, Repr

/-- Why a step has no meaning in the model. -/
inductive Refusal where
  /-- The instruction has no meaning yet: raised by `exec`'s arms alone. Safe. No arm raises it now. -/
  | notModelled (mnemonic : String)
deriving DecidableEq, Repr

/-- Nothing sent, nothing received, no line ready (log 7). -/
def HostPort.empty : HostPort where
  input := []
  out := []
  err := []
  trace := []
  reports := []

/-- The machine right after reset (R33, R280) with the default parameters, no image, and `resetGPR` in x1..x31
(DESIGN CHOICE, log 1). `powerOn` in Boot.lean takes any parameters, image, register values and input lines. -/
def State.reset : State where
  regs := resetGPR
  pc := defaultParams.resetAddr
  mem := []
  halted := false
  params := defaultParams
  port := HostPort.empty

end Sys2Proof.Machine
end

