-- ==== Sys2Proof/Machine/Ops.lean ====
section
/-! DEFINITION. The named operations: bytes of Memory, MemRead and MemWrite, registers, the console streams, the
load-store unit, the end of a step, and raising an AddressFault. -/

namespace Sys2Proof.Machine

/-! ## Bytes of Memory (20_memory R40) -/

/-- Mem[a]. -/
def readByte : Memory → Nat → Byte
  | [], _ => unlistedByte
  | (k, b) :: m, a => if k = a then b else readByte m a

/-- Mem[a] <- v, keeping the canonical form. -/
def writeByte : Memory → Nat → Byte → Memory
  | [], a, v => if v = unlistedByte then [] else [(a, v)]
  | (k, b) :: m, a, v =>
    if a < k then (if v = unlistedByte then (k, b) :: m else (a, v) :: (k, b) :: m)
    else if a = k then (if v = unlistedByte then m else (a, v) :: m)
    else (k, b) :: writeByte m a v

/-- The little-endian unsigned value of the n bytes at a (R42, R44). -/
def readBytes (m : Memory) (a : Nat) : Nat → Nat
  | 0 => 0
  | n + 1 => (readByte m a).toNat + 256 * readBytes m (a + 1) n

/-- Store the low 8n bits of v little-endian at a (R43, R44). -/
def writeBytes (m : Memory) (a : Nat) : Nat → Nat → Memory
  | 0, _ => m
  | n + 1, v => writeBytes (writeByte m a (BitVec.ofNat 8 v)) (a + 1) n (v / 256)

/-! ## MemRead and MemWrite (R42, R43, R46) -/

/-- An access of n bytes at a is in bounds (R46). -/
def State.inBounds (s : State) (a n : Nat) : Bool := a + n ≤ s.params.memSize

/-- `MemRead(addr, n)`; `none` where it raises AddressFault (R42). -/
def State.memRead (s : State) (a n : Nat) : Option Nat :=
  if s.inBounds a n then some (readBytes s.mem a n) else none

/-- `MemWrite(addr, n, v)`; `none`, and no byte written, where it raises AddressFault (R43). -/
def State.memWrite (s : State) (a n v : Nat) : Option State :=
  if s.inBounds a n then some { s with mem := writeBytes s.mem a n v } else none

/-! ## Registers (10_state R20, R21) -/

/-- `x[r]`: x0 reads as zero. -/
def State.readReg (s : State) (r : RegIdx) : Word :=
  if h : r = 0#5 then 0#32 else s.regs[r.toNat - 1]'(by have := r.isLt; have : r.toNat ≠ 0 := fun e => h (BitVec.eq_of_toNat_eq e); omega)

/-- `x[r] <- v`: a write to x0 is discarded. -/
def State.writeReg (s : State) (r : RegIdx) (v : Word) : State :=
  if h : r = 0#5 then s
  else { s with regs := s.regs.set (r.toNat - 1) v (by have := r.isLt; have : r.toNat ≠ 0 := fun e => h (BitVec.eq_of_toNat_eq e); omega) }

/-! ## What goes to the host (60_exceptions R255, R268; 40_execute_cycle R127) -/

/-- `emit(out, b)`. -/
def State.emitOut (s : State) (b : Byte) : State :=
  { s with port := { s.port with out := s.port.out ++ [b] } }

/-- `emit(err, b)`. -/
def State.emitErr (s : State) (b : Byte) : State :=
  { s with port := { s.port with err := s.port.err ++ [b] } }

/-- The report of an UnrecognizedInstruction. -/
def State.report (s : State) (r : UnrecognizedReport) : State :=
  { s with port := { s.port with reports := s.port.reports ++ [r] } }

/-- The result value of the step joins the trace. -/
def State.result (s : State) (r : StepResult) : State :=
  { s with port := { s.port with trace := s.port.trace ++ [r] } }

/-- pc <- t (R12). -/
def State.setPc (s : State) (t : Word) : State := { s with pc := t }

/-- halted <- true (R232). -/
def State.halt (s : State) : State := { s with halted := true }

/-- pc + 4, modulo 2^32 (10_state R25). -/
def State.nextPc (s : State) : Word := s.pc + 4#32

/-- The end of a step that completes: pc <- npc, and its result value (R125, R127). -/
def State.retire (s : State) (npc : Word) (r : StepResult) : State := (s.setPc npc).result r

/-! ## Raising an AddressFault, and going on after it (60_exceptions R250-R253, R259, R260) -/

/-- The outcome `Fault(AddressFault(kind, addr, n), pc)`: the block saves nothing, changes no mode and jumps nowhere
(R259). `left` is the state as it stands when the access is made: for a fetch, a LOAD or a STORE the state before the
step, for a semihosting read the state after the pc update with the bytes already emitted (R252). -/
def raiseAddressFault (kind : AccessKind) (addr : Word) (size : Nat) (pc : Word) (left : State) : Fault :=
  .addressFault { kind := kind, addr := addr, size := size, pc := pc } left

/-- The state from which the host's next `step` or `continue` goes on after a fault (R260). There is no
return-from-trap instruction; a step that waits or is not enabled has changed nothing. -/
def Fault.resumeFrom (f : Fault) (before : State) : State :=
  match f with
  | .addressFault _ left => left
  | .haltedNoStep => before
  | .consoleInBlocked => before
  | .stringNeverEnds => before

/-! ## Fetch (R48, R121) -/

/-- `MemRead(pc, 4)`, with no alignment check, and never a peripheral. -/
def fetch (s : State) : Except Fault Word :=
  match s.memRead s.pc.toNat 4 with
  | some w => .ok (BitVec.ofNat 32 w)
  | none => .error (raiseAddressFault .fetch s.pc 4 s.pc s)

/-- A step is enabled if and only if `halted` is false (R120). -/
def State.stepEnabled (s : State) : Bool := !s.halted

/-! ## The load-store unit (R51-R53, 60_exceptions R269, R270) -/

/-- The first byte of a console line, or 0 for an empty line (R270). -/
def firstByte : List Byte → Byte
  | [] => 0#8
  | b :: _ => b

/-- `LsuRead(ea)`: the value read and the state after it, in which a line of console-in is consumed (R52, R55). -/
def lsuRead (s : State) (ea : Word) : Except Fault (Word × State) :=
  if s.params.periphEnabled && ea == consoleIn then
    match s.port.input with
    | [] => .error .consoleInBlocked
    | line :: rest => .ok ((firstByte line).setWidth 32, { s with port := { s.port with input := rest } })
  else if s.params.periphEnabled && (ea == consoleOut || ea == consoleErr) then .ok (0#32, s)
  else
    match s.memRead ea.toNat 4 with
    | some v => .ok (BitVec.ofNat 32 v, s)
    | none => .error (raiseAddressFault .load ea 4 s.pc s)

/-- `LsuWrite(ea, v)` (R53). -/
def lsuWrite (s : State) (ea v : Word) : Except Fault State :=
  if s.params.periphEnabled && ea == consoleOut then .ok (s.emitOut (v.extractLsb' 0 8))
  else if s.params.periphEnabled && ea == consoleErr then .ok (s.emitErr (v.extractLsb' 0 8))
  else if s.params.periphEnabled && ea == consoleIn then .ok s
  else
    match s.memWrite ea.toNat 4 v.toNat with
    | some t => .ok t
    | none => .error (raiseAddressFault .store ea 4 s.pc s)

end Sys2Proof.Machine
end

