-- ==== Sys2Proof/Machine/Flags.lean ====
section
/-! DEFINITION. The comparisons. The block has no flags: a comparison writes 0 or 1 to a general register, or
decides a branch (10_state R27). -/

namespace Sys2Proof.Machine

/-- 1 or 0 in a register (R27). -/
def boolWord (c : Bool) : Word := if c then 1#32 else 0#32

/-- `s(a) < s(b)` (R192, R205). -/
def lessSigned (a b : Word) : Bool := a.slt b

/-- `a <u b` (R193, R206). -/
def lessUnsigned (a b : Word) : Bool := a.ult b

/-- The one comparison a BRANCH makes, whatever its funct3 (R160). -/
def branchTaken (a b : Word) : Bool := a == b

end Sys2Proof.Machine
end

