-- ==== Sys2Proof/Machine/Operands.lean ====
section
/-! DEFINITION. The operands of the execute path: immediates (30_encoding R81-R90), the effective address
(20_memory R50) and the targets of branches and jumps (42_control_transfer R160, R168, R169). -/

namespace Sys2Proof.Machine

/-- The execute immediate of ADDI, SLTI, SLTIU, XORI, ORI and ANDI: the I-immediate AND 0x1F, zero-extended (R88). -/
def imm5 (imm : BitVec 12) : Word := (imm.extractLsb' 0 5).setWidth 32

/-- `ea = to32(x[rs1] + imm)`, imm the signed 12-bit immediate of LOAD or STORE (R50, R81, R82). -/
def effAddr (s : State) (rs1 : RegIdx) (imm : BitVec 12) : Word := s.readReg rs1 + imm.signExtend 32

/-- immB_exec of the assembled field b_raw, by the reading in force (R85). -/
def immBExec (reading : BranchImmExec) (b : BitVec 13) : Int :=
  match reading with
  | .subAt11 => if b.getLsbD 11 then (b.toNat : Int) - 4096 else b.toNat
  | .sext12 => (b.extractLsb' 0 12).toInt
  | .orAt11 => if b.getLsbD 11 then (b.extractLsb' 0 12).toInt else b.toNat

/-- The computed target of a BRANCH, `to32(pc + immB_exec)` (R160). -/
def branchTarget (s : State) (off : BitVec 13) : Word :=
  s.pc + BitVec.ofInt 32 (immBExec s.params.branchImmExec off)

/-- `t AND 0xFFFFFFFE`: bit 0 cleared (R168, R169). -/
def clearBit0 (t : Word) : Word := t &&& 0xFFFFFFFE#32

/-- The target of JALR (R168). -/
def jalrTarget (s : State) (rs1 : RegIdx) (imm : BitVec 12) : Word :=
  clearBit0 (s.readReg rs1 + imm.signExtend 32)

/-- The target of JAL (R169). -/
def jalTarget (s : State) (off : BitVec 21) : Word := clearBit0 (s.pc + off.signExtend 32)

/-- `immU << 12` (R86). -/
def upperImm (imm : BitVec 20) : Word := imm ++ 0#12

/-- The register shift amount `x[rs2][4:0]` (R214). -/
def shiftAmount (b : Word) : Nat := (b.extractLsb' 0 5).toNat

end Sys2Proof.Machine
end

