-- ==== Sys2Proof/Machine/Branch.lean ====
section
/-! DEFINITION. BRANCH (42_control_transfer R160-R167): every funct3 compares equality. -/

namespace Sys2Proof.Machine

/-- The BRANCH class rule (R160): the result value is the target, taken or not (R127). -/
def branchClass (rs1 rs2 : RegIdx) (off : BitVec 13) (s : State) : Host.Outcome State Fault Refusal :=
  .next (s.retire (if branchTaken (s.readReg rs1) (s.readReg rs2) then branchTarget s off else s.nextPc)
    (.value (branchTarget s off)))

/-- BEQ (R161). -/
def execBeq (rs1 rs2 : RegIdx) (off : BitVec 13) (s : State) : Host.Outcome State Fault Refusal := branchClass rs1 rs2 off s
/-- BNE (R162). -/
def execBne (rs1 rs2 : RegIdx) (off : BitVec 13) (s : State) : Host.Outcome State Fault Refusal := branchClass rs1 rs2 off s
/-- BLT (R163). -/
def execBlt (rs1 rs2 : RegIdx) (off : BitVec 13) (s : State) : Host.Outcome State Fault Refusal := branchClass rs1 rs2 off s
/-- BGE (R164). -/
def execBge (rs1 rs2 : RegIdx) (off : BitVec 13) (s : State) : Host.Outcome State Fault Refusal := branchClass rs1 rs2 off s
/-- BLTU (R165). -/
def execBltu (rs1 rs2 : RegIdx) (off : BitVec 13) (s : State) : Host.Outcome State Fault Refusal := branchClass rs1 rs2 off s
/-- BGEU (R166). -/
def execBgeu (rs1 rs2 : RegIdx) (off : BitVec 13) (s : State) : Host.Outcome State Fault Refusal := branchClass rs1 rs2 off s
/-- BRANCH.f3_010 (R167). -/
def execBranch010 (rs1 rs2 : RegIdx) (off : BitVec 13) (s : State) : Host.Outcome State Fault Refusal := branchClass rs1 rs2 off s
/-- BRANCH.f3_011 (R167). -/
def execBranch011 (rs1 rs2 : RegIdx) (off : BitVec 13) (s : State) : Host.Outcome State Fault Refusal := branchClass rs1 rs2 off s

end Sys2Proof.Machine
end

