-- ==== Sys2Proof/Machine/Jump.lean ====
section
/-! DEFINITION. JALR and JAL (42_control_transfer R168, R169). -/

namespace Sys2Proof.Machine

/-- What both jumps do: x[rd] <- pc + 4, npc <- target; the result value is the link (R127). The target was computed
from the registers before the write (R123). -/
def jumpTo (rd : RegIdx) (target : Word) (s : State) : Host.Outcome State Fault Refusal :=
  .next ((s.writeReg rd s.nextPc).retire target (.value s.nextPc))

/-- JALR, whatever its funct3 (R168, R93). -/
def jalrClass (rd rs1 : RegIdx) (imm : BitVec 12) (s : State) : Host.Outcome State Fault Refusal :=
  jumpTo rd (jalrTarget s rs1 imm) s

/-- JALR (R168). -/
def execJalr (rd rs1 : RegIdx) (imm : BitVec 12) (s : State) : Host.Outcome State Fault Refusal := jalrClass rd rs1 imm s
/-- JALR.f3_001 (R168). -/
def execJalr001 (rd rs1 : RegIdx) (imm : BitVec 12) (s : State) : Host.Outcome State Fault Refusal := jalrClass rd rs1 imm s
/-- JALR.f3_010 (R168). -/
def execJalr010 (rd rs1 : RegIdx) (imm : BitVec 12) (s : State) : Host.Outcome State Fault Refusal := jalrClass rd rs1 imm s
/-- JALR.f3_011 (R168). -/
def execJalr011 (rd rs1 : RegIdx) (imm : BitVec 12) (s : State) : Host.Outcome State Fault Refusal := jalrClass rd rs1 imm s
/-- JALR.f3_100 (R168). -/
def execJalr100 (rd rs1 : RegIdx) (imm : BitVec 12) (s : State) : Host.Outcome State Fault Refusal := jalrClass rd rs1 imm s
/-- JALR.f3_101 (R168). -/
def execJalr101 (rd rs1 : RegIdx) (imm : BitVec 12) (s : State) : Host.Outcome State Fault Refusal := jalrClass rd rs1 imm s
/-- JALR.f3_110 (R168). -/
def execJalr110 (rd rs1 : RegIdx) (imm : BitVec 12) (s : State) : Host.Outcome State Fault Refusal := jalrClass rd rs1 imm s
/-- JALR.f3_111 (R168). -/
def execJalr111 (rd rs1 : RegIdx) (imm : BitVec 12) (s : State) : Host.Outcome State Fault Refusal := jalrClass rd rs1 imm s
/-- JAL (R169). -/
def execJal (rd : RegIdx) (off : BitVec 21) (s : State) : Host.Outcome State Fault Refusal := jumpTo rd (jalTarget s off) s

end Sys2Proof.Machine
end

