-- ==== Sys2Proof/Machine/Load.lean ====
section
/-! DEFINITION. LOAD (41_load_store R140-R146, R152-R154): every funct3 reads four bytes. -/

namespace Sys2Proof.Machine

/-- The LOAD class rule (R140): the read is made in full also when rd is x0 (R152); a fault leaves the state as it was. -/
def loadClass (rd rs1 : RegIdx) (imm : BitVec 12) (s : State) : Host.Outcome State Fault Refusal :=
  match lsuRead s (effAddr s rs1 imm) with
  | .ok (v, t) => .next ((t.writeReg rd v).retire s.nextPc (.value v))
  | .error f => .fault f

/-- LB (R141). -/
def execLb (rd rs1 : RegIdx) (imm : BitVec 12) (s : State) : Host.Outcome State Fault Refusal := loadClass rd rs1 imm s
/-- LH (R142). -/
def execLh (rd rs1 : RegIdx) (imm : BitVec 12) (s : State) : Host.Outcome State Fault Refusal := loadClass rd rs1 imm s
/-- LW (R143). -/
def execLw (rd rs1 : RegIdx) (imm : BitVec 12) (s : State) : Host.Outcome State Fault Refusal := loadClass rd rs1 imm s
/-- LBU (R144). -/
def execLbu (rd rs1 : RegIdx) (imm : BitVec 12) (s : State) : Host.Outcome State Fault Refusal := loadClass rd rs1 imm s
/-- LHU (R145). -/
def execLhu (rd rs1 : RegIdx) (imm : BitVec 12) (s : State) : Host.Outcome State Fault Refusal := loadClass rd rs1 imm s
/-- LOAD.f3_011 (R146). -/
def execLoad011 (rd rs1 : RegIdx) (imm : BitVec 12) (s : State) : Host.Outcome State Fault Refusal := loadClass rd rs1 imm s
/-- LOAD.f3_110 (R146). -/
def execLoad110 (rd rs1 : RegIdx) (imm : BitVec 12) (s : State) : Host.Outcome State Fault Refusal := loadClass rd rs1 imm s
/-- LOAD.f3_111 (R146). -/
def execLoad111 (rd rs1 : RegIdx) (imm : BitVec 12) (s : State) : Host.Outcome State Fault Refusal := loadClass rd rs1 imm s

end Sys2Proof.Machine
end

