-- ==== Sys2Proof/Machine/Alu.lean ====
section
/-! DEFINITION. The end that every computational instruction shares: x[rd] <- v, result v, pc + 4
(44_integer_computational R190, R201; 43_upper_immediate R180, R181). -/

namespace Sys2Proof.Machine

/-- Write the computed value and go on; rd = x0 discards the write, and the result is still v (R127). -/
def writeResult (rd : RegIdx) (v : Word) (s : State) : Host.Outcome State Fault Refusal :=
  .next ((s.writeReg rd v).retire s.nextPc (.value v))

end Sys2Proof.Machine
end

