-- ==== Sys2Proof/Machine/Op.lean ====
section
/-! DEFINITION. OP (44_integer_computational R201-R211, R214). -/

namespace Sys2Proof.Machine

/-- ADD (R202). -/
def execAdd (rd rs1 rs2 : RegIdx) (s : State) : Host.Outcome State Fault Refusal :=
  writeResult rd (s.readReg rs1 + s.readReg rs2) s
/-- SUB (R203). -/
def execSub (rd rs1 rs2 : RegIdx) (s : State) : Host.Outcome State Fault Refusal :=
  writeResult rd (s.readReg rs1 - s.readReg rs2) s
/-- SLL (R204). -/
def execSll (rd rs1 rs2 : RegIdx) (s : State) : Host.Outcome State Fault Refusal :=
  writeResult rd (s.readReg rs1 <<< shiftAmount (s.readReg rs2)) s
/-- SLT (R205). -/
def execSlt (rd rs1 rs2 : RegIdx) (s : State) : Host.Outcome State Fault Refusal :=
  writeResult rd (boolWord (lessSigned (s.readReg rs1) (s.readReg rs2))) s
/-- SLTU (R206). -/
def execSltu (rd rs1 rs2 : RegIdx) (s : State) : Host.Outcome State Fault Refusal :=
  writeResult rd (boolWord (lessUnsigned (s.readReg rs1) (s.readReg rs2))) s
/-- XOR (R207). -/
def execXor (rd rs1 rs2 : RegIdx) (s : State) : Host.Outcome State Fault Refusal :=
  writeResult rd (s.readReg rs1 ^^^ s.readReg rs2) s
/-- SRL (R208). -/
def execSrl (rd rs1 rs2 : RegIdx) (s : State) : Host.Outcome State Fault Refusal :=
  writeResult rd (s.readReg rs1 >>> shiftAmount (s.readReg rs2)) s
/-- SRA (R209). -/
def execSra (rd rs1 rs2 : RegIdx) (s : State) : Host.Outcome State Fault Refusal :=
  writeResult rd ((s.readReg rs1).sshiftRight (shiftAmount (s.readReg rs2))) s
/-- OR (R210). -/
def execOr (rd rs1 rs2 : RegIdx) (s : State) : Host.Outcome State Fault Refusal :=
  writeResult rd (s.readReg rs1 ||| s.readReg rs2) s
/-- AND (R211). -/
def execAnd (rd rs1 rs2 : RegIdx) (s : State) : Host.Outcome State Fault Refusal :=
  writeResult rd (s.readReg rs1 &&& s.readReg rs2) s

end Sys2Proof.Machine
end

