-- ==== Sys2Proof/Machine/OpImm.lean ====
section
/-! DEFINITION. OP_IMM (44_integer_computational R190-R199). The 12-bit field of ADDI..ANDI reaches the execute path
as its low five bits, zero-extended (R88). -/

namespace Sys2Proof.Machine

/-- ADDI (R191). -/
def execAddi (rd rs1 : RegIdx) (imm : BitVec 12) (s : State) : Host.Outcome State Fault Refusal :=
  writeResult rd (s.readReg rs1 + imm5 imm) s
/-- SLTI (R192). -/
def execSlti (rd rs1 : RegIdx) (imm : BitVec 12) (s : State) : Host.Outcome State Fault Refusal :=
  writeResult rd (boolWord (lessSigned (s.readReg rs1) (imm5 imm))) s
/-- SLTIU (R193). -/
def execSltiu (rd rs1 : RegIdx) (imm : BitVec 12) (s : State) : Host.Outcome State Fault Refusal :=
  writeResult rd (boolWord (lessUnsigned (s.readReg rs1) (imm5 imm))) s
/-- XORI (R194). -/
def execXori (rd rs1 : RegIdx) (imm : BitVec 12) (s : State) : Host.Outcome State Fault Refusal :=
  writeResult rd (s.readReg rs1 ^^^ imm5 imm) s
/-- ORI (R195). -/
def execOri (rd rs1 : RegIdx) (imm : BitVec 12) (s : State) : Host.Outcome State Fault Refusal :=
  writeResult rd (s.readReg rs1 ||| imm5 imm) s
/-- ANDI (R196). -/
def execAndi (rd rs1 : RegIdx) (imm : BitVec 12) (s : State) : Host.Outcome State Fault Refusal :=
  writeResult rd (s.readReg rs1 &&& imm5 imm) s
/-- SLLI (R197). -/
def execSlli (rd rs1 : RegIdx) (shamt : BitVec 5) (s : State) : Host.Outcome State Fault Refusal :=
  writeResult rd (s.readReg rs1 <<< shamt.toNat) s
/-- SRLI (R198). -/
def execSrli (rd rs1 : RegIdx) (shamt : BitVec 5) (s : State) : Host.Outcome State Fault Refusal :=
  writeResult rd (s.readReg rs1 >>> shamt.toNat) s
/-- SRAI (R199). -/
def execSrai (rd rs1 : RegIdx) (shamt : BitVec 5) (s : State) : Host.Outcome State Fault Refusal :=
  writeResult rd ((s.readReg rs1).sshiftRight shamt.toNat) s

end Sys2Proof.Machine
end

