-- ==== Sys2Proof/Machine/Store.lean ====
section
/-! DEFINITION. STORE (41_load_store R147-R151, R154): every funct3 writes four bytes. -/

namespace Sys2Proof.Machine

/-- The STORE class rule (R147); a fault leaves the state as it was. -/
def storeClass (rs1 rs2 : RegIdx) (imm : BitVec 12) (s : State) : Host.Outcome State Fault Refusal :=
  match lsuWrite s (effAddr s rs1 imm) (s.readReg rs2) with
  | .ok t => .next (t.retire s.nextPc .noValue)
  | .error f => .fault f

/-- SB (R148). -/
def execSb (rs1 rs2 : RegIdx) (imm : BitVec 12) (s : State) : Host.Outcome State Fault Refusal := storeClass rs1 rs2 imm s
/-- SH (R149). -/
def execSh (rs1 rs2 : RegIdx) (imm : BitVec 12) (s : State) : Host.Outcome State Fault Refusal := storeClass rs1 rs2 imm s
/-- SW (R150). -/
def execSw (rs1 rs2 : RegIdx) (imm : BitVec 12) (s : State) : Host.Outcome State Fault Refusal := storeClass rs1 rs2 imm s
/-- STORE.f3_011 (R151). -/
def execStore011 (rs1 rs2 : RegIdx) (imm : BitVec 12) (s : State) : Host.Outcome State Fault Refusal := storeClass rs1 rs2 imm s
/-- STORE.f3_100 (R151). -/
def execStore100 (rs1 rs2 : RegIdx) (imm : BitVec 12) (s : State) : Host.Outcome State Fault Refusal := storeClass rs1 rs2 imm s
/-- STORE.f3_101 (R151). -/
def execStore101 (rs1 rs2 : RegIdx) (imm : BitVec 12) (s : State) : Host.Outcome State Fault Refusal := storeClass rs1 rs2 imm s
/-- STORE.f3_110 (R151). -/
def execStore110 (rs1 rs2 : RegIdx) (imm : BitVec 12) (s : State) : Host.Outcome State Fault Refusal := storeClass rs1 rs2 imm s
/-- STORE.f3_111 (R151). -/
def execStore111 (rs1 rs2 : RegIdx) (imm : BitVec 12) (s : State) : Host.Outcome State Fault Refusal := storeClass rs1 rs2 imm s

end Sys2Proof.Machine
end

