-- ==== Sys2Proof/Syntax.lean ====
section
/-! DEFINITION. The instructions: one constructor for each of the 56 rows of spec/opcode_table.json, in the
table's order. A constructor keeps every bit of the word that the row leaves free, also the fields the execute
path ignores (R72): the 12-bit immediate of ADDI..ANDI, of which the execute path uses five bits (R88), and rd
and rs1 of ECALL and EBREAK (R94). An offset is the assembled field of R83 or R87, whose bit 0 is always 0. -/

namespace Sys2Proof

inductive Instr where
  /-- LB (41_load_store R141). -/
  | lb (rd rs1 : RegIdx) (imm : BitVec 12)
  /-- LH (41_load_store R142). -/
  | lh (rd rs1 : RegIdx) (imm : BitVec 12)
  /-- LW (41_load_store R143). -/
  | lw (rd rs1 : RegIdx) (imm : BitVec 12)
  /-- LBU (41_load_store R144). -/
  | lbu (rd rs1 : RegIdx) (imm : BitVec 12)
  /-- LHU (41_load_store R145). -/
  | lhu (rd rs1 : RegIdx) (imm : BitVec 12)
  /-- LOAD.f3_011 (41_load_store R146). -/
  | load011 (rd rs1 : RegIdx) (imm : BitVec 12)
  /-- LOAD.f3_110 (41_load_store R146). -/
  | load110 (rd rs1 : RegIdx) (imm : BitVec 12)
  /-- LOAD.f3_111 (41_load_store R146). -/
  | load111 (rd rs1 : RegIdx) (imm : BitVec 12)
  /-- SB (41_load_store R148). -/
  | sb (rs1 rs2 : RegIdx) (imm : BitVec 12)
  /-- SH (41_load_store R149). -/
  | sh (rs1 rs2 : RegIdx) (imm : BitVec 12)
  /-- SW (41_load_store R150). -/
  | sw (rs1 rs2 : RegIdx) (imm : BitVec 12)
  /-- STORE.f3_011 (41_load_store R151). -/
  | store011 (rs1 rs2 : RegIdx) (imm : BitVec 12)
  /-- STORE.f3_100 (41_load_store R151). -/
  | store100 (rs1 rs2 : RegIdx) (imm : BitVec 12)
  /-- STORE.f3_101 (41_load_store R151). -/
  | store101 (rs1 rs2 : RegIdx) (imm : BitVec 12)
  /-- STORE.f3_110 (41_load_store R151). -/
  | store110 (rs1 rs2 : RegIdx) (imm : BitVec 12)
  /-- STORE.f3_111 (41_load_store R151). -/
  | store111 (rs1 rs2 : RegIdx) (imm : BitVec 12)
  /-- BEQ (42_control_transfer R161). -/
  | beq (rs1 rs2 : RegIdx) (off : BitVec 13)
  /-- BNE (42_control_transfer R162). -/
  | bne (rs1 rs2 : RegIdx) (off : BitVec 13)
  /-- BLT (42_control_transfer R163). -/
  | blt (rs1 rs2 : RegIdx) (off : BitVec 13)
  /-- BGE (42_control_transfer R164). -/
  | bge (rs1 rs2 : RegIdx) (off : BitVec 13)
  /-- BLTU (42_control_transfer R165). -/
  | bltu (rs1 rs2 : RegIdx) (off : BitVec 13)
  /-- BGEU (42_control_transfer R166). -/
  | bgeu (rs1 rs2 : RegIdx) (off : BitVec 13)
  /-- BRANCH.f3_010 (42_control_transfer R167). -/
  | branch010 (rs1 rs2 : RegIdx) (off : BitVec 13)
  /-- BRANCH.f3_011 (42_control_transfer R167). -/
  | branch011 (rs1 rs2 : RegIdx) (off : BitVec 13)
  /-- JALR (42_control_transfer R168). -/
  | jalr (rd rs1 : RegIdx) (imm : BitVec 12)
  /-- JALR.f3_001 (42_control_transfer R168). -/
  | jalr001 (rd rs1 : RegIdx) (imm : BitVec 12)
  /-- JALR.f3_010 (42_control_transfer R168). -/
  | jalr010 (rd rs1 : RegIdx) (imm : BitVec 12)
  /-- JALR.f3_011 (42_control_transfer R168). -/
  | jalr011 (rd rs1 : RegIdx) (imm : BitVec 12)
  /-- JALR.f3_100 (42_control_transfer R168). -/
  | jalr100 (rd rs1 : RegIdx) (imm : BitVec 12)
  /-- JALR.f3_101 (42_control_transfer R168). -/
  | jalr101 (rd rs1 : RegIdx) (imm : BitVec 12)
  /-- JALR.f3_110 (42_control_transfer R168). -/
  | jalr110 (rd rs1 : RegIdx) (imm : BitVec 12)
  /-- JALR.f3_111 (42_control_transfer R168). -/
  | jalr111 (rd rs1 : RegIdx) (imm : BitVec 12)
  /-- JAL (42_control_transfer R169). -/
  | jal (rd : RegIdx) (off : BitVec 21)
  /-- LUI (43_upper_immediate R180). -/
  | lui (rd : RegIdx) (imm : BitVec 20)
  /-- AUIPC (43_upper_immediate R181). -/
  | auipc (rd : RegIdx) (imm : BitVec 20)
  /-- ADDI (44_integer_computational R191). -/
  | addi (rd rs1 : RegIdx) (imm : BitVec 12)
  /-- SLTI (44_integer_computational R192). -/
  | slti (rd rs1 : RegIdx) (imm : BitVec 12)
  /-- SLTIU (44_integer_computational R193). -/
  | sltiu (rd rs1 : RegIdx) (imm : BitVec 12)
  /-- XORI (44_integer_computational R194). -/
  | xori (rd rs1 : RegIdx) (imm : BitVec 12)
  /-- ORI (44_integer_computational R195). -/
  | ori (rd rs1 : RegIdx) (imm : BitVec 12)
  /-- ANDI (44_integer_computational R196). -/
  | andi (rd rs1 : RegIdx) (imm : BitVec 12)
  /-- SLLI (44_integer_computational R197). -/
  | slli (rd rs1 : RegIdx) (shamt : BitVec 5)
  /-- SRLI (44_integer_computational R198). -/
  | srli (rd rs1 : RegIdx) (shamt : BitVec 5)
  /-- SRAI (44_integer_computational R199). -/
  | srai (rd rs1 : RegIdx) (shamt : BitVec 5)
  /-- ADD (44_integer_computational R202). -/
  | add (rd rs1 rs2 : RegIdx)
  /-- SUB (44_integer_computational R203). -/
  | sub (rd rs1 rs2 : RegIdx)
  /-- SLL (44_integer_computational R204). -/
  | sll (rd rs1 rs2 : RegIdx)
  /-- SLT (44_integer_computational R205). -/
  | slt (rd rs1 rs2 : RegIdx)
  /-- SLTU (44_integer_computational R206). -/
  | sltu (rd rs1 rs2 : RegIdx)
  /-- XOR (44_integer_computational R207). -/
  | xor (rd rs1 rs2 : RegIdx)
  /-- SRL (44_integer_computational R208). -/
  | srl (rd rs1 rs2 : RegIdx)
  /-- SRA (44_integer_computational R209). -/
  | sra (rd rs1 rs2 : RegIdx)
  /-- OR (44_integer_computational R210). -/
  | or (rd rs1 rs2 : RegIdx)
  /-- AND (44_integer_computational R211). -/
  | and (rd rs1 rs2 : RegIdx)
  /-- ECALL (45_system R231). -/
  | ecall (rd rs1 : RegIdx)
  /-- EBREAK (45_system R232). -/
  | ebreak (rd rs1 : RegIdx)
deriving DecidableEq, Repr

end Sys2Proof
end

