-- ==== Sys2Proof/WellFormed.lean ====
section
/-! DEFINITION. Which instructions have an encoding. The widths of Instr's fields already say everything the six
formats ask (R73-R78), but for one thing: bit 0 of a BRANCH or JAL offset "is always 0 and not encoded" (R76, R78). -/

namespace Sys2Proof

/-- Bit 0 of an assembled offset is 0 (R76, R78, R83, R87). -/
def evenOffset {n : Nat} (off : BitVec n) : Bool := !off.getLsbD 0

/-- The instruction can be encoded: a BRANCH or JAL offset is even. -/
def Instr.wellFormed : Instr → Bool
  | .lb _ _ _ => true
  | .lh _ _ _ => true
  | .lw _ _ _ => true
  | .lbu _ _ _ => true
  | .lhu _ _ _ => true
  | .load011 _ _ _ => true
  | .load110 _ _ _ => true
  | .load111 _ _ _ => true
  | .sb _ _ _ => true
  | .sh _ _ _ => true
  | .sw _ _ _ => true
  | .store011 _ _ _ => true
  | .store100 _ _ _ => true
  | .store101 _ _ _ => true
  | .store110 _ _ _ => true
  | .store111 _ _ _ => true
  | .beq _ _ off => evenOffset off
  | .bne _ _ off => evenOffset off
  | .blt _ _ off => evenOffset off
  | .bge _ _ off => evenOffset off
  | .bltu _ _ off => evenOffset off
  | .bgeu _ _ off => evenOffset off
  | .branch010 _ _ off => evenOffset off
  | .branch011 _ _ off => evenOffset off
  | .jalr _ _ _ => true
  | .jalr001 _ _ _ => true
  | .jalr010 _ _ _ => true
  | .jalr011 _ _ _ => true
  | .jalr100 _ _ _ => true
  | .jalr101 _ _ _ => true
  | .jalr110 _ _ _ => true
  | .jalr111 _ _ _ => true
  | .jal _ off => evenOffset off
  | .lui _ _ => true
  | .auipc _ _ => true
  | .addi _ _ _ => true
  | .slti _ _ _ => true
  | .sltiu _ _ _ => true
  | .xori _ _ _ => true
  | .ori _ _ _ => true
  | .andi _ _ _ => true
  | .slli _ _ _ => true
  | .srli _ _ _ => true
  | .srai _ _ _ => true
  | .add _ _ _ => true
  | .sub _ _ _ => true
  | .sll _ _ _ => true
  | .slt _ _ _ => true
  | .sltu _ _ _ => true
  | .xor _ _ _ => true
  | .srl _ _ _ => true
  | .sra _ _ _ => true
  | .or _ _ _ => true
  | .and _ _ _ => true
  | .ecall _ _ => true
  | .ebreak _ _ => true

end Sys2Proof
end

