-- ==== Sys2Proof/Decode.lean ====
section
/-! DEFINITION. The decoder of the execute path (30_encoding R70-R99), total on any word: it reads an instruction
or rejects the word by a named reason (R95, R96). After it the encoder, written from the same tables, the opcode
table itself as a list of rows, and the little-endian bytes of a word (20_memory R44). Opcode values, funct3 and
funct7 values and the field places are the spec's, which marks them general knowledge (log 10). -/

namespace Sys2Proof

/-! ## Fields (R71) -/

/-- opcode = w[6:0]. -/
def opcodeOf (w : Word) : BitVec 7 := w.extractLsb' 0 7
/-- rd = w[11:7]. -/
def rdOf (w : Word) : RegIdx := w.extractLsb' 7 5
/-- funct3 = w[14:12]. -/
def funct3Of (w : Word) : BitVec 3 := w.extractLsb' 12 3
/-- rs1 = w[19:15]. -/
def rs1Of (w : Word) : RegIdx := w.extractLsb' 15 5
/-- rs2 = w[24:20]; the shift amount of SLLI, SRLI and SRAI is the same bits (R89). -/
def rs2Of (w : Word) : RegIdx := w.extractLsb' 20 5
/-- funct7 = w[31:25]. -/
def funct7Of (w : Word) : BitVec 7 := w.extractLsb' 25 7
/-- The 12-bit field of the I-format, w[31:20] (R74); immI is its sign extension (R81). -/
def immIOf (w : Word) : BitVec 12 := w.extractLsb' 20 12
/-- The 12-bit field of the S-format, w[31:25] above w[11:7] (R75); immS is its sign extension (R82). -/
def immSOf (w : Word) : BitVec 12 := w.extractLsb' 25 7 ++ w.extractLsb' 7 5
/-- The assembled B field b_raw (R76, R83): w[31], w[7], w[30:25], w[11:8], 0. -/
def immBOf (w : Word) : BitVec 13 :=
  w.extractLsb' 31 1 ++ w.extractLsb' 7 1 ++ w.extractLsb' 25 6 ++ w.extractLsb' 8 4 ++ 0#1
/-- immU = w[31:12] (R77, R86). -/
def immUOf (w : Word) : BitVec 20 := w.extractLsb' 12 20
/-- The assembled J field j_raw (R78, R87): w[31], w[19:12], w[20], w[30:21], 0; immJ is its sign extension. -/
def immJOf (w : Word) : BitVec 21 :=
  w.extractLsb' 31 1 ++ w.extractLsb' 12 8 ++ w.extractLsb' 20 1 ++ w.extractLsb' 21 10 ++ 0#1

/-! ## Opcode classes (R79, R80) -/

def opLoad : BitVec 7 := 0b0000011#7
def opOpImm : BitVec 7 := 0b0010011#7
def opAuipc : BitVec 7 := 0b0010111#7
def opStore : BitVec 7 := 0b0100011#7
def opOp : BitVec 7 := 0b0110011#7
def opLui : BitVec 7 := 0b0110111#7
def opBranch : BitVec 7 := 0b1100011#7
def opJalr : BitVec 7 := 0b1100111#7
def opJal : BitVec 7 := 0b1101111#7
def opSystem : BitVec 7 := 0b1110011#7

/-- The ten opcode classes, and UNKNOWN (R80). -/
inductive OpClass where
  | load | opImm | auipc | store | op | lui | branch | jalr | jal | system | unknown
deriving DecidableEq, Repr

/-- `class(w)` (R80). -/
def classOf (w : Word) : OpClass :=
  if opcodeOf w = opLoad then .load
  else if opcodeOf w = opOpImm then .opImm
  else if opcodeOf w = opAuipc then .auipc
  else if opcodeOf w = opStore then .store
  else if opcodeOf w = opOp then .op
  else if opcodeOf w = opLui then .lui
  else if opcodeOf w = opBranch then .branch
  else if opcodeOf w = opJalr then .jalr
  else if opcodeOf w = opJal then .jal
  else if opcodeOf w = opSystem then .system
  else .unknown

/-! ## The decoder -/

/-- Why a word is an UnrecognizedInstruction (R95, R96, R254). -/
inductive Unrecognized where
  /-- Its opcode is none of the ten classes (R95). -/
  | opcode
  /-- OP_IMM, funct3 001 or 101, with a funct7 that selects nothing (R91, R200). -/
  | opImmFunct7
  /-- OP with a (funct7, funct3) pair that selects nothing (R92, R212). -/
  | opFunct
  /-- SYSTEM other than ECALL and EBREAK (R94, R237). -/
  | system
deriving DecidableEq, Repr

/-- LOAD: every funct3 has its row (R93). -/
def decodeLoad (w : Word) : Instr :=
  if funct3Of w = 0#3 then .lb (rdOf w) (rs1Of w) (immIOf w)
  else if funct3Of w = 1#3 then .lh (rdOf w) (rs1Of w) (immIOf w)
  else if funct3Of w = 2#3 then .lw (rdOf w) (rs1Of w) (immIOf w)
  else if funct3Of w = 3#3 then .load011 (rdOf w) (rs1Of w) (immIOf w)
  else if funct3Of w = 4#3 then .lbu (rdOf w) (rs1Of w) (immIOf w)
  else if funct3Of w = 5#3 then .lhu (rdOf w) (rs1Of w) (immIOf w)
  else if funct3Of w = 6#3 then .load110 (rdOf w) (rs1Of w) (immIOf w)
  else .load111 (rdOf w) (rs1Of w) (immIOf w)

/-- STORE: every funct3 has its row (R93). -/
def decodeStore (w : Word) : Instr :=
  if funct3Of w = 0#3 then .sb (rs1Of w) (rs2Of w) (immSOf w)
  else if funct3Of w = 1#3 then .sh (rs1Of w) (rs2Of w) (immSOf w)
  else if funct3Of w = 2#3 then .sw (rs1Of w) (rs2Of w) (immSOf w)
  else if funct3Of w = 3#3 then .store011 (rs1Of w) (rs2Of w) (immSOf w)
  else if funct3Of w = 4#3 then .store100 (rs1Of w) (rs2Of w) (immSOf w)
  else if funct3Of w = 5#3 then .store101 (rs1Of w) (rs2Of w) (immSOf w)
  else if funct3Of w = 6#3 then .store110 (rs1Of w) (rs2Of w) (immSOf w)
  else .store111 (rs1Of w) (rs2Of w) (immSOf w)

/-- BRANCH: every funct3 has its row (R93). -/
def decodeBranch (w : Word) : Instr :=
  if funct3Of w = 0#3 then .beq (rs1Of w) (rs2Of w) (immBOf w)
  else if funct3Of w = 1#3 then .bne (rs1Of w) (rs2Of w) (immBOf w)
  else if funct3Of w = 2#3 then .branch010 (rs1Of w) (rs2Of w) (immBOf w)
  else if funct3Of w = 3#3 then .branch011 (rs1Of w) (rs2Of w) (immBOf w)
  else if funct3Of w = 4#3 then .blt (rs1Of w) (rs2Of w) (immBOf w)
  else if funct3Of w = 5#3 then .bge (rs1Of w) (rs2Of w) (immBOf w)
  else if funct3Of w = 6#3 then .bltu (rs1Of w) (rs2Of w) (immBOf w)
  else .bgeu (rs1Of w) (rs2Of w) (immBOf w)

/-- JALR: every funct3 has its row (R93). -/
def decodeJalr (w : Word) : Instr :=
  if funct3Of w = 0#3 then .jalr (rdOf w) (rs1Of w) (immIOf w)
  else if funct3Of w = 1#3 then .jalr001 (rdOf w) (rs1Of w) (immIOf w)
  else if funct3Of w = 2#3 then .jalr010 (rdOf w) (rs1Of w) (immIOf w)
  else if funct3Of w = 3#3 then .jalr011 (rdOf w) (rs1Of w) (immIOf w)
  else if funct3Of w = 4#3 then .jalr100 (rdOf w) (rs1Of w) (immIOf w)
  else if funct3Of w = 5#3 then .jalr101 (rdOf w) (rs1Of w) (immIOf w)
  else if funct3Of w = 6#3 then .jalr110 (rdOf w) (rs1Of w) (immIOf w)
  else .jalr111 (rdOf w) (rs1Of w) (immIOf w)

/-- OP_IMM (R91): funct3 selects, with funct7 for 001 and 101. -/
def decodeOpImm (w : Word) : Except Unrecognized Instr :=
  if funct3Of w = 0#3 then .ok (.addi (rdOf w) (rs1Of w) (immIOf w))
  else if funct3Of w = 1#3 then
    if funct7Of w = 0x00#7 then .ok (.slli (rdOf w) (rs1Of w) (rs2Of w))
    else .error .opImmFunct7
  else if funct3Of w = 2#3 then .ok (.slti (rdOf w) (rs1Of w) (immIOf w))
  else if funct3Of w = 3#3 then .ok (.sltiu (rdOf w) (rs1Of w) (immIOf w))
  else if funct3Of w = 4#3 then .ok (.xori (rdOf w) (rs1Of w) (immIOf w))
  else if funct3Of w = 5#3 then
    if funct7Of w = 0x00#7 then .ok (.srli (rdOf w) (rs1Of w) (rs2Of w))
    else if funct7Of w = 0x20#7 then .ok (.srai (rdOf w) (rs1Of w) (rs2Of w))
    else .error .opImmFunct7
  else if funct3Of w = 6#3 then .ok (.ori (rdOf w) (rs1Of w) (immIOf w))
  else .ok (.andi (rdOf w) (rs1Of w) (immIOf w))

/-- OP (R92): the pair (funct7, funct3) selects. -/
def decodeOp (w : Word) : Except Unrecognized Instr :=
  if funct7Of w = 0x00#7 then
    if funct3Of w = 0#3 then .ok (.add (rdOf w) (rs1Of w) (rs2Of w))
    else if funct3Of w = 1#3 then .ok (.sll (rdOf w) (rs1Of w) (rs2Of w))
    else if funct3Of w = 2#3 then .ok (.slt (rdOf w) (rs1Of w) (rs2Of w))
    else if funct3Of w = 3#3 then .ok (.sltu (rdOf w) (rs1Of w) (rs2Of w))
    else if funct3Of w = 4#3 then .ok (.xor (rdOf w) (rs1Of w) (rs2Of w))
    else if funct3Of w = 5#3 then .ok (.srl (rdOf w) (rs1Of w) (rs2Of w))
    else if funct3Of w = 6#3 then .ok (.or (rdOf w) (rs1Of w) (rs2Of w))
    else .ok (.and (rdOf w) (rs1Of w) (rs2Of w))
  else if funct7Of w = 0x20#7 then
    if funct3Of w = 0#3 then .ok (.sub (rdOf w) (rs1Of w) (rs2Of w))
    else if funct3Of w = 5#3 then .ok (.sra (rdOf w) (rs1Of w) (rs2Of w))
    else .error .opFunct
  else .error .opFunct

/-- SYSTEM (R94, R230): funct3 and w[31:20] select; rd and rs1 are not examined. -/
def decodeSystem (w : Word) : Except Unrecognized Instr :=
  if funct3Of w = 0#3 then
    if immIOf w = 0#12 then .ok (.ecall (rdOf w) (rs1Of w))
    else if immIOf w = 1#12 then .ok (.ebreak (rdOf w) (rs1Of w))
    else .error .system
  else .error .system

/-- The instruction of a word, or why it is an UnrecognizedInstruction (R80, R91-R96). -/
def decode (w : Word) : Except Unrecognized Instr :=
  match classOf w with
  | .load => .ok (decodeLoad w)
  | .opImm => decodeOpImm w
  | .auipc => .ok (.auipc (rdOf w) (immUOf w))
  | .store => .ok (decodeStore w)
  | .op => decodeOp w
  | .lui => .ok (.lui (rdOf w) (immUOf w))
  | .branch => .ok (decodeBranch w)
  | .jalr => .ok (decodeJalr w)
  | .jal => .ok (.jal (rdOf w) (immJOf w))
  | .system => decodeSystem w
  | .unknown => .error .opcode

/-! ## The encoder -/

/-- R-format (R73); also the OP_IMM shifts, whose shamt lies where rs2 does (R74). -/
def encR (f7 : BitVec 7) (rs2 rs1 : RegIdx) (f3 : BitVec 3) (rd : RegIdx) (op : BitVec 7) : Word :=
  f7 ++ rs2 ++ rs1 ++ f3 ++ rd ++ op
/-- I-format (R74). -/
def encI (imm : BitVec 12) (rs1 : RegIdx) (f3 : BitVec 3) (rd : RegIdx) (op : BitVec 7) : Word :=
  imm ++ rs1 ++ f3 ++ rd ++ op
/-- S-format (R75). -/
def encS (imm : BitVec 12) (rs2 rs1 : RegIdx) (f3 : BitVec 3) (op : BitVec 7) : Word :=
  imm.extractLsb' 5 7 ++ rs2 ++ rs1 ++ f3 ++ imm.extractLsb' 0 5 ++ op
/-- B-format (R76); bit 0 of the offset is not encoded. -/
def encB (off : BitVec 13) (rs2 rs1 : RegIdx) (f3 : BitVec 3) (op : BitVec 7) : Word :=
  off.extractLsb' 12 1 ++ off.extractLsb' 5 6 ++ rs2 ++ rs1 ++ f3 ++ off.extractLsb' 1 4 ++ off.extractLsb' 11 1 ++ op
/-- U-format (R77). -/
def encU (imm : BitVec 20) (rd : RegIdx) (op : BitVec 7) : Word :=
  imm ++ rd ++ op
/-- J-format (R78); bit 0 of the offset is not encoded. -/
def encJ (off : BitVec 21) (rd : RegIdx) (op : BitVec 7) : Word :=
  off.extractLsb' 20 1 ++ off.extractLsb' 1 10 ++ off.extractLsb' 11 1 ++ off.extractLsb' 12 8 ++ rd ++ op

/-- The word of a well-formed instruction (R73-R79, R91-R94). -/
def encode : Instr → Word
  | .lb rd rs1 imm => encI imm rs1 0#3 rd opLoad
  | .lh rd rs1 imm => encI imm rs1 1#3 rd opLoad
  | .lw rd rs1 imm => encI imm rs1 2#3 rd opLoad
  | .lbu rd rs1 imm => encI imm rs1 4#3 rd opLoad
  | .lhu rd rs1 imm => encI imm rs1 5#3 rd opLoad
  | .load011 rd rs1 imm => encI imm rs1 3#3 rd opLoad
  | .load110 rd rs1 imm => encI imm rs1 6#3 rd opLoad
  | .load111 rd rs1 imm => encI imm rs1 7#3 rd opLoad
  | .sb rs1 rs2 imm => encS imm rs2 rs1 0#3 opStore
  | .sh rs1 rs2 imm => encS imm rs2 rs1 1#3 opStore
  | .sw rs1 rs2 imm => encS imm rs2 rs1 2#3 opStore
  | .store011 rs1 rs2 imm => encS imm rs2 rs1 3#3 opStore
  | .store100 rs1 rs2 imm => encS imm rs2 rs1 4#3 opStore
  | .store101 rs1 rs2 imm => encS imm rs2 rs1 5#3 opStore
  | .store110 rs1 rs2 imm => encS imm rs2 rs1 6#3 opStore
  | .store111 rs1 rs2 imm => encS imm rs2 rs1 7#3 opStore
  | .beq rs1 rs2 off => encB off rs2 rs1 0#3 opBranch
  | .bne rs1 rs2 off => encB off rs2 rs1 1#3 opBranch
  | .blt rs1 rs2 off => encB off rs2 rs1 4#3 opBranch
  | .bge rs1 rs2 off => encB off rs2 rs1 5#3 opBranch
  | .bltu rs1 rs2 off => encB off rs2 rs1 6#3 opBranch
  | .bgeu rs1 rs2 off => encB off rs2 rs1 7#3 opBranch
  | .branch010 rs1 rs2 off => encB off rs2 rs1 2#3 opBranch
  | .branch011 rs1 rs2 off => encB off rs2 rs1 3#3 opBranch
  | .jalr rd rs1 imm => encI imm rs1 0#3 rd opJalr
  | .jalr001 rd rs1 imm => encI imm rs1 1#3 rd opJalr
  | .jalr010 rd rs1 imm => encI imm rs1 2#3 rd opJalr
  | .jalr011 rd rs1 imm => encI imm rs1 3#3 rd opJalr
  | .jalr100 rd rs1 imm => encI imm rs1 4#3 rd opJalr
  | .jalr101 rd rs1 imm => encI imm rs1 5#3 rd opJalr
  | .jalr110 rd rs1 imm => encI imm rs1 6#3 rd opJalr
  | .jalr111 rd rs1 imm => encI imm rs1 7#3 rd opJalr
  | .jal rd off => encJ off rd opJal
  | .lui rd imm => encU imm rd opLui
  | .auipc rd imm => encU imm rd opAuipc
  | .addi rd rs1 imm => encI imm rs1 0#3 rd opOpImm
  | .slti rd rs1 imm => encI imm rs1 2#3 rd opOpImm
  | .sltiu rd rs1 imm => encI imm rs1 3#3 rd opOpImm
  | .xori rd rs1 imm => encI imm rs1 4#3 rd opOpImm
  | .ori rd rs1 imm => encI imm rs1 6#3 rd opOpImm
  | .andi rd rs1 imm => encI imm rs1 7#3 rd opOpImm
  | .slli rd rs1 shamt => encR 0x00#7 shamt rs1 1#3 rd opOpImm
  | .srli rd rs1 shamt => encR 0x00#7 shamt rs1 5#3 rd opOpImm
  | .srai rd rs1 shamt => encR 0x20#7 shamt rs1 5#3 rd opOpImm
  | .add rd rs1 rs2 => encR 0x00#7 rs2 rs1 0#3 rd opOp
  | .sub rd rs1 rs2 => encR 0x20#7 rs2 rs1 0#3 rd opOp
  | .sll rd rs1 rs2 => encR 0x00#7 rs2 rs1 1#3 rd opOp
  | .slt rd rs1 rs2 => encR 0x00#7 rs2 rs1 2#3 rd opOp
  | .sltu rd rs1 rs2 => encR 0x00#7 rs2 rs1 3#3 rd opOp
  | .xor rd rs1 rs2 => encR 0x00#7 rs2 rs1 4#3 rd opOp
  | .srl rd rs1 rs2 => encR 0x00#7 rs2 rs1 5#3 rd opOp
  | .sra rd rs1 rs2 => encR 0x20#7 rs2 rs1 5#3 rd opOp
  | .or rd rs1 rs2 => encR 0x00#7 rs2 rs1 6#3 rd opOp
  | .and rd rs1 rs2 => encR 0x00#7 rs2 rs1 7#3 rd opOp
  | .ecall rd rs1 => encI 0#12 rs1 0#3 rd opSystem
  | .ebreak rd rs1 => encI 1#12 rs1 0#3 rd opSystem

/-! ## The opcode table as rows -/

/-- One row of spec/opcode_table.json: a word is of the row if and only if `w AND mask = pattern`. -/
structure OpcodeRow where
  mnemonic : String
  pattern : Word
  mask : Word
deriving DecidableEq, Repr

def OpcodeRow.matchesWord (r : OpcodeRow) (w : Word) : Bool := w &&& r.mask == r.pattern

def loadRows : List OpcodeRow := [
  ⟨"LB", 0x00000003#32, 0x0000707F#32⟩,
  ⟨"LH", 0x00001003#32, 0x0000707F#32⟩,
  ⟨"LW", 0x00002003#32, 0x0000707F#32⟩,
  ⟨"LBU", 0x00004003#32, 0x0000707F#32⟩,
  ⟨"LHU", 0x00005003#32, 0x0000707F#32⟩,
  ⟨"LOAD.f3_011", 0x00003003#32, 0x0000707F#32⟩,
  ⟨"LOAD.f3_110", 0x00006003#32, 0x0000707F#32⟩,
  ⟨"LOAD.f3_111", 0x00007003#32, 0x0000707F#32⟩]
def storeRows : List OpcodeRow := [
  ⟨"SB", 0x00000023#32, 0x0000707F#32⟩,
  ⟨"SH", 0x00001023#32, 0x0000707F#32⟩,
  ⟨"SW", 0x00002023#32, 0x0000707F#32⟩,
  ⟨"STORE.f3_011", 0x00003023#32, 0x0000707F#32⟩,
  ⟨"STORE.f3_100", 0x00004023#32, 0x0000707F#32⟩,
  ⟨"STORE.f3_101", 0x00005023#32, 0x0000707F#32⟩,
  ⟨"STORE.f3_110", 0x00006023#32, 0x0000707F#32⟩,
  ⟨"STORE.f3_111", 0x00007023#32, 0x0000707F#32⟩]
def branchRows : List OpcodeRow := [
  ⟨"BEQ", 0x00000063#32, 0x0000707F#32⟩,
  ⟨"BNE", 0x00001063#32, 0x0000707F#32⟩,
  ⟨"BLT", 0x00004063#32, 0x0000707F#32⟩,
  ⟨"BGE", 0x00005063#32, 0x0000707F#32⟩,
  ⟨"BLTU", 0x00006063#32, 0x0000707F#32⟩,
  ⟨"BGEU", 0x00007063#32, 0x0000707F#32⟩,
  ⟨"BRANCH.f3_010", 0x00002063#32, 0x0000707F#32⟩,
  ⟨"BRANCH.f3_011", 0x00003063#32, 0x0000707F#32⟩]
def jalrRows : List OpcodeRow := [
  ⟨"JALR", 0x00000067#32, 0x0000707F#32⟩,
  ⟨"JALR.f3_001", 0x00001067#32, 0x0000707F#32⟩,
  ⟨"JALR.f3_010", 0x00002067#32, 0x0000707F#32⟩,
  ⟨"JALR.f3_011", 0x00003067#32, 0x0000707F#32⟩,
  ⟨"JALR.f3_100", 0x00004067#32, 0x0000707F#32⟩,
  ⟨"JALR.f3_101", 0x00005067#32, 0x0000707F#32⟩,
  ⟨"JALR.f3_110", 0x00006067#32, 0x0000707F#32⟩,
  ⟨"JALR.f3_111", 0x00007067#32, 0x0000707F#32⟩]
def jumpUpperRows : List OpcodeRow := [
  ⟨"JAL", 0x0000006F#32, 0x0000007F#32⟩,
  ⟨"LUI", 0x00000037#32, 0x0000007F#32⟩,
  ⟨"AUIPC", 0x00000017#32, 0x0000007F#32⟩]
def opImmRows : List OpcodeRow := [
  ⟨"ADDI", 0x00000013#32, 0x0000707F#32⟩,
  ⟨"SLTI", 0x00002013#32, 0x0000707F#32⟩,
  ⟨"SLTIU", 0x00003013#32, 0x0000707F#32⟩,
  ⟨"XORI", 0x00004013#32, 0x0000707F#32⟩,
  ⟨"ORI", 0x00006013#32, 0x0000707F#32⟩,
  ⟨"ANDI", 0x00007013#32, 0x0000707F#32⟩,
  ⟨"SLLI", 0x00001013#32, 0xFE00707F#32⟩,
  ⟨"SRLI", 0x00005013#32, 0xFE00707F#32⟩,
  ⟨"SRAI", 0x40005013#32, 0xFE00707F#32⟩]
def opRows : List OpcodeRow := [
  ⟨"ADD", 0x00000033#32, 0xFE00707F#32⟩,
  ⟨"SUB", 0x40000033#32, 0xFE00707F#32⟩,
  ⟨"SLL", 0x00001033#32, 0xFE00707F#32⟩,
  ⟨"SLT", 0x00002033#32, 0xFE00707F#32⟩,
  ⟨"SLTU", 0x00003033#32, 0xFE00707F#32⟩,
  ⟨"XOR", 0x00004033#32, 0xFE00707F#32⟩,
  ⟨"SRL", 0x00005033#32, 0xFE00707F#32⟩,
  ⟨"SRA", 0x40005033#32, 0xFE00707F#32⟩,
  ⟨"OR", 0x00006033#32, 0xFE00707F#32⟩,
  ⟨"AND", 0x00007033#32, 0xFE00707F#32⟩]
def systemRows : List OpcodeRow := [
  ⟨"ECALL", 0x00000073#32, 0xFFF0707F#32⟩,
  ⟨"EBREAK", 0x00100073#32, 0xFFF0707F#32⟩]

/-- All 56 rows. -/
def opcodeTable : List OpcodeRow :=
  loadRows ++ storeRows ++ branchRows ++ jalrRows ++ jumpUpperRows ++ opImmRows ++ opRows ++ systemRows

/-- The mnemonic of an instruction, as its row spells it. -/
def Instr.mnemonic : Instr → String
  | .lb _ _ _ => "LB"
  | .lh _ _ _ => "LH"
  | .lw _ _ _ => "LW"
  | .lbu _ _ _ => "LBU"
  | .lhu _ _ _ => "LHU"
  | .load011 _ _ _ => "LOAD.f3_011"
  | .load110 _ _ _ => "LOAD.f3_110"
  | .load111 _ _ _ => "LOAD.f3_111"
  | .sb _ _ _ => "SB"
  | .sh _ _ _ => "SH"
  | .sw _ _ _ => "SW"
  | .store011 _ _ _ => "STORE.f3_011"
  | .store100 _ _ _ => "STORE.f3_100"
  | .store101 _ _ _ => "STORE.f3_101"
  | .store110 _ _ _ => "STORE.f3_110"
  | .store111 _ _ _ => "STORE.f3_111"
  | .beq _ _ _ => "BEQ"
  | .bne _ _ _ => "BNE"
  | .blt _ _ _ => "BLT"
  | .bge _ _ _ => "BGE"
  | .bltu _ _ _ => "BLTU"
  | .bgeu _ _ _ => "BGEU"
  | .branch010 _ _ _ => "BRANCH.f3_010"
  | .branch011 _ _ _ => "BRANCH.f3_011"
  | .jalr _ _ _ => "JALR"
  | .jalr001 _ _ _ => "JALR.f3_001"
  | .jalr010 _ _ _ => "JALR.f3_010"
  | .jalr011 _ _ _ => "JALR.f3_011"
  | .jalr100 _ _ _ => "JALR.f3_100"
  | .jalr101 _ _ _ => "JALR.f3_101"
  | .jalr110 _ _ _ => "JALR.f3_110"
  | .jalr111 _ _ _ => "JALR.f3_111"
  | .jal _ _ => "JAL"
  | .lui _ _ => "LUI"
  | .auipc _ _ => "AUIPC"
  | .addi _ _ _ => "ADDI"
  | .slti _ _ _ => "SLTI"
  | .sltiu _ _ _ => "SLTIU"
  | .xori _ _ _ => "XORI"
  | .ori _ _ _ => "ORI"
  | .andi _ _ _ => "ANDI"
  | .slli _ _ _ => "SLLI"
  | .srli _ _ _ => "SRLI"
  | .srai _ _ _ => "SRAI"
  | .add _ _ _ => "ADD"
  | .sub _ _ _ => "SUB"
  | .sll _ _ _ => "SLL"
  | .slt _ _ _ => "SLT"
  | .sltu _ _ _ => "SLTU"
  | .xor _ _ _ => "XOR"
  | .srl _ _ _ => "SRL"
  | .sra _ _ _ => "SRA"
  | .or _ _ _ => "OR"
  | .and _ _ _ => "AND"
  | .ecall _ _ => "ECALL"
  | .ebreak _ _ => "EBREAK"

/-! ## Words as bytes (20_memory R44) -/

/-- The four bytes of a word, least significant first, as Memory holds them from the lowest address on. -/
def wordBytes (w : Word) : List Byte :=
  [w.extractLsb' 0 8, w.extractLsb' 8 8, w.extractLsb' 16 8, w.extractLsb' 24 8]

/-- Decode the instruction at the front of a byte sequence: four bytes, little-endian (R70). `none` if there are
fewer than four bytes; otherwise the decoder's answer and the bytes after the word. -/
def decodeBytes : List Byte → Option (Except Unrecognized Instr × List Byte)
  | b0 :: b1 :: b2 :: b3 :: rest => some (decode (b3 ++ b2 ++ b1 ++ b0), rest)
  | _ => none

/-- What the decoder reads from an instruction whose bits are `w`, numbered as spec/opcode_table.json numbers
them, of which the table gives `nbits`; the bits above are 0. -/
def decodeTableWord (nbits w : Nat) : Option Instr :=
  match decodeBytes (wordBytes (BitVec.ofNat 32 (w % 2 ^ nbits))) with
  | some (.ok i, _) => some i
  | _ => none

end Sys2Proof
end

