-- ==== Sys2Proof/Machine/System.lean ====
section
/-! DEFINITION. SYSTEM, semihosting and unrecognized words (45_system R230-R240). -/

namespace Sys2Proof.Machine

/-- ECALL (R231): a no-op that advances the pc. rd and rs1 are not examined (R230). -/
def execEcall (_rd _rs1 : RegIdx) (s : State) : Host.Outcome State Fault Refusal :=
  .next (s.retire s.nextPc .noValue)

/-- Semihosting request 6 (R235): bytes from Memory, never a peripheral, up to the first zero. `fuel` bounds the bytes
read; memSize + 1 is enough for every string that ends or faults (log 8). `pc` is the address of the EBREAK. -/
def semihostString : Nat → Word → Word → State → Except Fault State
  | 0, _, _, _ => .error .stringNeverEnds
  | fuel + 1, p, pc, s =>
    match s.memRead p.toNat 1 with
    | none => .error (raiseAddressFault .semihost p 1 pc s)
    | some c =>
      if c = 0 then .ok s
      else semihostString fuel (p + 1#32) pc (s.emitOut (BitVec.ofNat 8 c))

/-- The request that x10 (a0) selects (R233-R236); x11 (a1) is the byte or the string's address (10_state R23). -/
def semihost (pc : Word) (s : State) : Except Fault State :=
  if s.readReg 10#5 = 4#32 then .ok (s.emitOut ((s.readReg 11#5).extractLsb' 0 8))
  else if s.readReg 10#5 = 6#32 then semihostString (s.params.memSize + 1) (s.readReg 11#5) pc s
  else .ok s

/-- Whether the instruction's raw word is the semihosting trigger (R233): the exact word, so not an EBREAK whose rd or
rs1 field is not 0 (R232). -/
def isSemihostTrigger (i : Instr) : Bool := encode i == semihostWord

/-- EBREAK (R232, R129): pc <- pc + 4; then the semihosting check; then halted and the Break marker. A semihosting
string that faults ends the step before the halt (R235). -/
def execEbreak (rd rs1 : RegIdx) (s : State) : Host.Outcome State Fault Refusal :=
  if s.params.semihostEnabled && isSemihostTrigger (.ebreak rd rs1) then
    match semihost s.pc (s.setPc s.nextPc) with
    | .ok t => .next (t.halt.result .breakMark)
    | .error f => .fault f
  else .next ((s.setPc s.nextPc).halt.result .breakMark)

/-- An UnrecognizedInstruction (R238): a report (pc, w), result None, pc + 4, and nothing else. -/
def execUnrecognized (w : Word) (s : State) : Host.Outcome State Fault Refusal :=
  .next ((s.report { pc := s.pc, word := w }).retire s.nextPc .noValue)

end Sys2Proof.Machine
end

