-- ==== Sys2Proof/Machine/Upper.lean ====
section
/-! DEFINITION. LUI and AUIPC (43_upper_immediate R180, R181). -/

namespace Sys2Proof.Machine

/-- LUI (R180). -/
def execLui (rd : RegIdx) (imm : BitVec 20) (s : State) : Host.Outcome State Fault Refusal := writeResult rd (upperImm imm) s
/-- AUIPC (R181): pc is this instruction's own address. -/
def execAuipc (rd : RegIdx) (imm : BitVec 20) (s : State) : Host.Outcome State Fault Refusal := writeResult rd (s.pc + upperImm imm) s

end Sys2Proof.Machine
end

