-- ==== Sys2Proof/Machine/Dispatch.lean ====
section
/-! DEFINITION. The execute dispatch (40_execute_cycle R124): one arm per instruction. -/

namespace Sys2Proof.Machine

def exec (i : Instr) (s : State) : Host.Outcome State Fault Refusal :=
  match i with
  | .lb rd rs1 imm => Sys2Proof.Machine.execLb rd rs1 imm s
  | .lh rd rs1 imm => Sys2Proof.Machine.execLh rd rs1 imm s
  | .lw rd rs1 imm => Sys2Proof.Machine.execLw rd rs1 imm s
  | .lbu rd rs1 imm => Sys2Proof.Machine.execLbu rd rs1 imm s
  | .lhu rd rs1 imm => Sys2Proof.Machine.execLhu rd rs1 imm s
  | .load011 rd rs1 imm => Sys2Proof.Machine.execLoad011 rd rs1 imm s
  | .load110 rd rs1 imm => Sys2Proof.Machine.execLoad110 rd rs1 imm s
  | .load111 rd rs1 imm => Sys2Proof.Machine.execLoad111 rd rs1 imm s
  | .sb rs1 rs2 imm => Sys2Proof.Machine.execSb rs1 rs2 imm s
  | .sh rs1 rs2 imm => Sys2Proof.Machine.execSh rs1 rs2 imm s
  | .sw rs1 rs2 imm => Sys2Proof.Machine.execSw rs1 rs2 imm s
  | .store011 rs1 rs2 imm => Sys2Proof.Machine.execStore011 rs1 rs2 imm s
  | .store100 rs1 rs2 imm => Sys2Proof.Machine.execStore100 rs1 rs2 imm s
  | .store101 rs1 rs2 imm => Sys2Proof.Machine.execStore101 rs1 rs2 imm s
  | .store110 rs1 rs2 imm => Sys2Proof.Machine.execStore110 rs1 rs2 imm s
  | .store111 rs1 rs2 imm => Sys2Proof.Machine.execStore111 rs1 rs2 imm s
  | .beq rs1 rs2 off => Sys2Proof.Machine.execBeq rs1 rs2 off s
  | .bne rs1 rs2 off => Sys2Proof.Machine.execBne rs1 rs2 off s
  | .blt rs1 rs2 off => Sys2Proof.Machine.execBlt rs1 rs2 off s
  | .bge rs1 rs2 off => Sys2Proof.Machine.execBge rs1 rs2 off s
  | .bltu rs1 rs2 off => Sys2Proof.Machine.execBltu rs1 rs2 off s
  | .bgeu rs1 rs2 off => Sys2Proof.Machine.execBgeu rs1 rs2 off s
  | .branch010 rs1 rs2 off => Sys2Proof.Machine.execBranch010 rs1 rs2 off s
  | .branch011 rs1 rs2 off => Sys2Proof.Machine.execBranch011 rs1 rs2 off s
  | .jalr rd rs1 imm => Sys2Proof.Machine.execJalr rd rs1 imm s
  | .jalr001 rd rs1 imm => Sys2Proof.Machine.execJalr001 rd rs1 imm s
  | .jalr010 rd rs1 imm => Sys2Proof.Machine.execJalr010 rd rs1 imm s
  | .jalr011 rd rs1 imm => Sys2Proof.Machine.execJalr011 rd rs1 imm s
  | .jalr100 rd rs1 imm => Sys2Proof.Machine.execJalr100 rd rs1 imm s
  | .jalr101 rd rs1 imm => Sys2Proof.Machine.execJalr101 rd rs1 imm s
  | .jalr110 rd rs1 imm => Sys2Proof.Machine.execJalr110 rd rs1 imm s
  | .jalr111 rd rs1 imm => Sys2Proof.Machine.execJalr111 rd rs1 imm s
  | .jal rd off => Sys2Proof.Machine.execJal rd off s
  | .lui rd imm => Sys2Proof.Machine.execLui rd imm s
  | .auipc rd imm => Sys2Proof.Machine.execAuipc rd imm s
  | .addi rd rs1 imm => Sys2Proof.Machine.execAddi rd rs1 imm s
  | .slti rd rs1 imm => Sys2Proof.Machine.execSlti rd rs1 imm s
  | .sltiu rd rs1 imm => Sys2Proof.Machine.execSltiu rd rs1 imm s
  | .xori rd rs1 imm => Sys2Proof.Machine.execXori rd rs1 imm s
  | .ori rd rs1 imm => Sys2Proof.Machine.execOri rd rs1 imm s
  | .andi rd rs1 imm => Sys2Proof.Machine.execAndi rd rs1 imm s
  | .slli rd rs1 shamt => Sys2Proof.Machine.execSlli rd rs1 shamt s
  | .srli rd rs1 shamt => Sys2Proof.Machine.execSrli rd rs1 shamt s
  | .srai rd rs1 shamt => Sys2Proof.Machine.execSrai rd rs1 shamt s
  | .add rd rs1 rs2 => Sys2Proof.Machine.execAdd rd rs1 rs2 s
  | .sub rd rs1 rs2 => Sys2Proof.Machine.execSub rd rs1 rs2 s
  | .sll rd rs1 rs2 => Sys2Proof.Machine.execSll rd rs1 rs2 s
  | .slt rd rs1 rs2 => Sys2Proof.Machine.execSlt rd rs1 rs2 s
  | .sltu rd rs1 rs2 => Sys2Proof.Machine.execSltu rd rs1 rs2 s
  | .xor rd rs1 rs2 => Sys2Proof.Machine.execXor rd rs1 rs2 s
  | .srl rd rs1 rs2 => Sys2Proof.Machine.execSrl rd rs1 rs2 s
  | .sra rd rs1 rs2 => Sys2Proof.Machine.execSra rd rs1 rs2 s
  | .or rd rs1 rs2 => Sys2Proof.Machine.execOr rd rs1 rs2 s
  | .and rd rs1 rs2 => Sys2Proof.Machine.execAnd rd rs1 rs2 s
  | .ecall rd rs1 => Sys2Proof.Machine.execEcall rd rs1 s
  | .ebreak rd rs1 => Sys2Proof.Machine.execEbreak rd rs1 s

end Sys2Proof.Machine
end

