-- ==== Sys2Proof/Machine/Step.lean ====
section
/-! DEFINITION. One step (40_execute_cycle R120-R131). -/

namespace Sys2Proof.Machine

/-- Decode and execute a fetched word (R122, R124): an instruction of the table, or an UnrecognizedInstruction. -/
def runWord (w : Word) (s : State) : Host.Outcome State Fault Refusal :=
  match decode w with
  | .ok i => exec i s
  | .error _ => execUnrecognized w s

/-- The whole step (R129). The word is fetched before anything is written, so a STORE over its own word does not
change the step (20_memory R62). -/
def step (s : State) : Host.Outcome State Fault Refusal :=
  if s.stepEnabled then
    match fetch s with
    | .ok w => runWord w s
    | .error f => .fault f
  else .fault .haltedNoStep

/-- `s` with the instruction word `w` (its low `nbits` bits, zeros above) at the pc, and not halted, so that the next
step fetches and runs it. It stands for the load of a program from outside the machine (70_reset R281; log 9). -/
def State.withFetchWord (s : State) (nbits w : Nat) : State :=
  match s.memWrite s.pc.toNat 4 (w % 2 ^ nbits) with
  | some t => { t with halted := false }
  | none => s

end Sys2Proof.Machine
end

