-- ==== Sys2Proof/Machine/Boot.lean ====
section
/-! DEFINITION. Power-on, the image load, the host's `reset` command and the reorder pass (70_reset R280-R283,
60_exceptions R271). -/

namespace Sys2Proof.Machine

/-- The image load from address a on (R281): bytes at an index at or beyond memSize are dropped without an error. -/
def loadImageFrom (memSize : Nat) : Nat → List Byte → Memory
  | _, [] => []
  | a, b :: image =>
    if a < memSize then
      if b = unlistedByte then loadImageFrom memSize (a + 1) image
      else (a, b) :: loadImageFrom memSize (a + 1) image
    else []

/-- Memory after the image load: the image from address 0, zeros beyond (R281). -/
def loadImage (memSize : Nat) (image : List Byte) : Memory := loadImageFrom memSize 0 image

/-- Power-on (R280, R33): the parameters, `initGPR`, the image, and the lines the host's line source will supply. -/
def powerOn (p : Params) (initGPR : Vector Word 31) (image : List Byte) (input : List (List Byte)) : State where
  regs := initGPR
  pc := p.resetAddr
  mem := loadImage p.memSize image
  halted := false
  params := p
  port := { HostPort.empty with input := input }

/-- The host's reorder pass: the identity on Memory and on the trace (R271, decision D36, conflict C4). -/
def reorderPass (s : State) : State := s

/-- The start of a run, with the reorder pass enabled or not (R280, step 6). -/
def startOfRun (p : Params) (initGPR : Vector Word 31) (image : List Byte) (input : List (List Byte)) (reorder : Bool) :
    State :=
  if reorder then reorderPass (powerOn p initGPR image input) else powerOn p initGPR image input

/-- The host's `reset` command: pc <- resetAddr, and nothing else (R282). -/
def resetCommand (s : State) : State := s.setPc s.params.resetAddr

end Sys2Proof.Machine
end

