-- ==== Sys2Proof/Machine/Controller.lean ====
section
/-! DEFINITION. The host's Step Controller (60_exceptions R255, R259, R260, R266, R267, R272,
R274): its mode, its command
lines, and what it does with the outcome of a step. It is the block's host, not the block (R6, R32), so its state is a
session around the block's. -/

namespace Sys2Proof.Machine

/-- The two states of the Step Controller (R267). -/
inductive Mode where
  | running | stepping
deriving DecidableEq, Repr

/-- A command line as the controller reads it (R267). -/
inductive Command where
  | step
  | run
  | exit
  | dump (count address : Nat)
  | reset
  | ignored
deriving DecidableEq, Repr

/-- What the controller shows the operator. The texts are the transcript's and not modelled (R7). -/
inductive Printed where
  /-- An AddressFault, reported (R253, R259). -/
  | fault (info : AddressFault)
  /-- An UnrecognizedInstruction, reported (R255, R266). -/
  | unrecognized (report : UnrecognizedReport)
  /-- The bytes of a memory dump (R272). -/
  | bytes (bs : List Byte)
  /-- The first out-of-bounds byte of a dump (R272, D39). -/
  | outOfBounds (address : Nat)
deriving DecidableEq, Repr

/-- How a run ends (R274). -/
inductive RunEnd where
  | breakReached
  | exited
deriving DecidableEq, Repr

/-- The block with its controller. -/
structure Session where
  machine : State
  mode : Mode
  /-- The command lines still to be read, the next one first, without line terminators. -/
  commands : List (List Char)
  printed : List Printed
  /-- `none` while the run goes on. -/
  ended : Option RunEnd
deriving DecidableEq, Repr

/-! ## Reading a command line (R267, D39; log 14) -/

/-- The value of a digit character of base 16 or less. -/
def digitValue (c : Char) : Option Nat :=
  if '0' ≤ c ∧ c ≤ '9' then some (c.toNat - 48)
  else if 'a' ≤ c ∧ c ≤ 'f' then some (c.toNat - 87)
  else if 'A' ≤ c ∧ c ≤ 'F' then some (c.toNat - 55)
  else none

/-- The number that the digits write after `acc`, or `none` if a character is no digit of the base. -/
def digitsValue (base : Nat) : Nat → List Char → Option Nat
  | acc, [] => some acc
  | acc, c :: cs =>
    match digitValue c with
    | some d => if d < base then digitsValue base (acc * base + d) cs else none
    | none => none

/-- A number of at least one digit. -/
def parseNumber (base : Nat) : List Char → Option Nat
  | [] => none
  | c :: cs => digitsValue base 0 (c :: cs)

/-- ADDRESS: hexadecimal, with or without `0x` (D39). -/
def parseAddress : List Char → Option Nat
  | '0' :: 'x' :: cs => parseNumber 16 cs
  | cs => parseNumber 16 cs

/-- The characters before the first `/` and those after it. -/
def splitAtSlash : List Char → Option (List Char × List Char)
  | [] => none
  | c :: cs =>
    if c = '/' then some ([], cs)
    else (splitAtSlash cs).map fun p => (c :: p.1, p.2)

/-- `COUNT/ADDRESS` (D39); a line that does not parse is ignored. -/
def parseDump (cs : List Char) : Command :=
  match splitAtSlash cs with
  | none => .ignored
  | some (count, address) =>
    match parseNumber 10 count, parseAddress address with
    | some n, some a => .dump n a
    | _, _ => .ignored

/-- A command line, case-sensitive; any other line is ignored (R267). -/
def parseCommand (line : List Char) : Command :=
  if line = "step".toList then .step
  else if line = "continue".toList then .run
  else if line = "exit".toList then .exit
  else if line = "reset".toList then .reset
  else
    match line with
    | 'x' :: ' ' :: cs => parseDump cs
    | _ => .ignored

/-! ## The memory dump (R272, D39) -/

/-- COUNT single bytes from an address on, and the first address out of bounds, if one is met. -/
def dumpBytes (s : State) : Nat → Nat → List Byte × Option Nat
  | 0, _ => ([], none)
  | n + 1, a =>
    match s.memRead a 1 with
    | none => ([], some a)
    | some b => (BitVec.ofNat 8 b :: (dumpBytes s n (a + 1)).1, (dumpBytes s n (a + 1)).2)

/-- What a dump shows. -/
def dumpPrinted (d : List Byte × Option Nat) : List Printed :=
  match d.2 with
  | none => [.bytes d.1]
  | some a => [.bytes d.1, .outOfBounds a]

/-! ## The controller -/

/-- The reports that the block has sent since `before`, as the host shows them to the operator (R255). -/
def newReports (before after : State) : List Printed :=
  (after.port.reports.drop before.port.reports.length).map .unrecognized

/-- The host's response to the outcome of a step (R253, R255, R259, R274). A step that waits, or has no end, leaves
the session as it is. -/
def Session.afterStep (σ : Session) : Host.Outcome State Fault Refusal → Session
  | .next t =>
    { σ with
      machine := t
      printed := σ.printed ++ newReports σ.machine t
      ended := if t.halted then some .breakReached else σ.ended }
  | .fault (.addressFault info left) =>
    { σ with machine := left, mode := .stepping, printed := σ.printed ++ [.fault info] }
  | .fault .haltedNoStep => σ
  | .fault .consoleInBlocked => σ
  | .fault .stringNeverEnds => σ
  | .refused _ => σ

/-- Run one step of the block. -/
def Session.runStep (σ : Session) : Session := σ.afterStep (step σ.machine)

/-- Carry out one command (R267, R272, R282). -/
def Session.command (σ : Session) : Command → Session
  | .step => σ.runStep
  | .run => { σ with mode := .running }
  | .exit => { σ with ended := some .exited }
  | .dump n a => { σ with printed := σ.printed ++ dumpPrinted (dumpBytes σ.machine n a) }
  | .reset => { σ with machine := resetCommand σ.machine }
  | .ignored => σ

/-- Whether the next step of the block would wait for ever: "a blocked read blocks the entire emulation" (R270, R288). -/
def Session.stepWaits (σ : Session) : Bool :=
  match step σ.machine with
  | .fault .consoleInBlocked => true
  | .fault .stringNeverEnds => true
  | _ => false

/-- One turn of the controller's loop: nothing after the end of the run; in Running a step, in Stepping the next
command line; with no line at the prompt it waits (R267, R288). A `step` command whose step waits is not over, so its
line stays and no later line is read. -/
def Session.turn (σ : Session) : Session :=
  match σ.ended with
  | some _ => σ
  | none =>
    match σ.mode with
    | .running => σ.runStep
    | .stepping =>
      match σ.commands with
      | [] => σ
      | line :: rest =>
        if parseCommand line = .step ∧ σ.stepWaits = true then σ
        else ({ σ with commands := rest }).command (parseCommand line)

/-- n turns. -/
def Session.turns : Nat → Session → Session
  | 0, σ => σ
  | n + 1, σ => Session.turns n σ.turn

/-- The session at the start of a run, in `startMode` (R267, decision D38, OPEN). -/
def Session.start (s : State) (startMode : Mode) (commands : List (List Char)) : Session where
  machine := s
  mode := startMode
  commands := commands
  printed := []
  ended := none

/-- The trace a run returns: all results so far, in order (R267, R274, D40). -/
def Session.finalTrace (σ : Session) : List StepResult := σ.machine.port.trace

end Sys2Proof.Machine
end

