-- ==== Sys2Proof/Machine/Display.lean ====
section
/-! DEFINITION. The display path (30_encoding R100-R103), which names and renders a word and never controls
execution, and `classify_opcode` (R104). It uses the display immediates of R90: the whole 12-bit field of ADDI..ANDI,
and the 13-bit sign extension of a BRANCH offset. -/

namespace Sys2Proof.Machine

/-- The formats of `classify_opcode` (R104). -/
inductive InstructionFormat where
  | I | S | B | U | J | R | unknown
deriving DecidableEq, Repr

/-- `classify_opcode(w)`: reads w[6:0] only (R104). -/
def classifyOpcode (w : Word) : InstructionFormat :=
  match classOf w with
  | .load => .I
  | .opImm => .I
  | .auipc => .U
  | .store => .S
  | .op => .R
  | .lui => .U
  | .branch => .B
  | .jalr => .I
  | .jal => .J
  | .system => .I
  | .unknown => .unknown

/-- `x<n>` in decimal (R102). -/
def regText (r : RegIdx) : String := "x" ++ Nat.repr r.toNat

/-- A signed immediate in decimal, with a leading "-" when negative (R102). -/
def intText : Int → String
  | .ofNat n => Nat.repr n
  | .negSucc n => "-" ++ Nat.repr (n + 1)

/-- One upper-case hex digit. -/
def hexDigit (d : Nat) : Char := if d < 10 then Char.ofNat (48 + d) else Char.ofNat (55 + d)

/-- The low `n` hex digits of v, upper-case. -/
def hexText : Nat → Nat → String
  | 0, _ => ""
  | n + 1, v => hexText n (v / 16) ++ String.ofList [hexDigit (v % 16)]

/-- `UNKNOWN 0xWWWWWWWW` (R102). -/
def unknownText (w : Word) : String := "UNKNOWN 0x" ++ hexText 8 w.toNat

/-- OP: `MNEM xRD,xRS1,xRS2`. -/
def opText (m : String) (rd rs1 rs2 : RegIdx) : String :=
  m ++ " " ++ regText rd ++ "," ++ regText rs1 ++ "," ++ regText rs2
/-- OP_IMM: `MNEM xRD,xRS1,imm`. -/
def immText (m : String) (rd rs1 : RegIdx) (imm : Int) : String :=
  m ++ " " ++ regText rd ++ "," ++ regText rs1 ++ "," ++ intText imm
/-- LOAD, JALR and STORE: `MNEM xN,imm(xRS1)`, N the rd of LOAD and JALR, the rs2 of STORE. -/
def memText (m : String) (r rs1 : RegIdx) (imm : BitVec 12) : String :=
  m ++ " " ++ regText r ++ "," ++ intText imm.toInt ++ "(" ++ regText rs1 ++ ")"
/-- BRANCH: `MNEM xRS1,xRS2,immB_disp`, immB_disp = sext_13(b_raw) (R84). -/
def branchText (m : String) (rs1 rs2 : RegIdx) (off : BitVec 13) : String :=
  m ++ " " ++ regText rs1 ++ "," ++ regText rs2 ++ "," ++ intText off.toInt
/-- LUI and AUIPC: `MNEM xRD,0xHHHHH`. -/
def upperText (m : String) (rd : RegIdx) (imm : BitVec 20) : String :=
  m ++ " " ++ regText rd ++ ",0x" ++ hexText 5 imm.toNat

/-- The display of a word that decodes to an instruction; the funct3 values with no mnemonic display as UNKNOWN (R101). -/
def displayInstr (w : Word) : Instr → String
  | .lb a b c => memText "LB" a b c
  | .lh a b c => memText "LH" a b c
  | .lw a b c => memText "LW" a b c
  | .lbu a b c => memText "LBU" a b c
  | .lhu a b c => memText "LHU" a b c
  | .load011 _ _ _ => unknownText w
  | .load110 _ _ _ => unknownText w
  | .load111 _ _ _ => unknownText w
  | .sb a b c => memText "SB" b a c
  | .sh a b c => memText "SH" b a c
  | .sw a b c => memText "SW" b a c
  | .store011 _ _ _ => unknownText w
  | .store100 _ _ _ => unknownText w
  | .store101 _ _ _ => unknownText w
  | .store110 _ _ _ => unknownText w
  | .store111 _ _ _ => unknownText w
  | .beq a b c => branchText "BEQ" a b c
  | .bne a b c => branchText "BNE" a b c
  | .blt a b c => branchText "BLT" a b c
  | .bge a b c => branchText "BGE" a b c
  | .bltu a b c => branchText "BLTU" a b c
  | .bgeu a b c => branchText "BGEU" a b c
  | .branch010 _ _ _ => unknownText w
  | .branch011 _ _ _ => unknownText w
  | .jalr a b c => memText "JALR" a b c
  | .jalr001 _ _ _ => unknownText w
  | .jalr010 _ _ _ => unknownText w
  | .jalr011 _ _ _ => unknownText w
  | .jalr100 _ _ _ => unknownText w
  | .jalr101 _ _ _ => unknownText w
  | .jalr110 _ _ _ => unknownText w
  | .jalr111 _ _ _ => unknownText w
  | .jal a b => "JAL " ++ regText a ++ "," ++ intText b.toInt
  | .lui a b => upperText "LUI" a b
  | .auipc a b => upperText "AUIPC" a b
  | .addi a b c => immText "ADDI" a b c.toInt
  | .slti a b c => immText "SLTI" a b c.toInt
  | .sltiu a b c => immText "SLTIU" a b c.toInt
  | .xori a b c => immText "XORI" a b c.toInt
  | .ori a b c => immText "ORI" a b c.toInt
  | .andi a b c => immText "ANDI" a b c.toInt
  | .slli a b c => immText "SLLI" a b c.toNat
  | .srli a b c => immText "SRLI" a b c.toNat
  | .srai a b c => immText "SRAI" a b c.toNat
  | .add a b c => opText "ADD" a b c
  | .sub a b c => opText "SUB" a b c
  | .sll a b c => opText "SLL" a b c
  | .slt a b c => opText "SLT" a b c
  | .sltu a b c => opText "SLTU" a b c
  | .xor a b c => opText "XOR" a b c
  | .srl a b c => opText "SRL" a b c
  | .sra a b c => opText "SRA" a b c
  | .or a b c => opText "OR" a b c
  | .and a b c => opText "AND" a b c
  | .ecall _ _ => "ECALL"
  | .ebreak _ _ => "EBREAK"

/-- The spec's `decode(w) → DisplayString` (R100-R102). -/
def display (w : Word) : String :=
  match decode w with
  | .ok i => displayInstr w i
  | .error _ => unknownText w

end Sys2Proof.Machine
end

