-- ==== Sys2Proof/Safety.lean ====
section
/-! DEFINITION. What counts as a safe state and a safe run, and the words the statements use for what a step changes
and what it leaves alone. -/

namespace Sys2Proof.Machine

/-- The invariant: the parameters are in the ranges of 70_reset R283, Memory is in its canonical form, and no byte is
held outside Mem[0..memSize-1] (20_memory R40). -/
abbrev State.Inv (s : State) : Prop :=
  s.params.legal ∧ s.mem.wf ∧ s.mem.within s.params.memSize

/-- Bit 0 of the pc is 0. -/
abbrev State.pcEven (s : State) : Prop := s.pc.getLsbD 0 = false

/-- The step completes. -/
def Completes (s : State) : Prop := ∃ t, step s = .next t

/-- A run of n steps that all complete. -/
inductive SafeRun : Nat → State → State → Prop where
  | here (s : State) : SafeRun 0 s s
  | further {n : Nat} {s t u : State} (first : step s = .next t) (rest : SafeRun n t u) : SafeRun (n + 1) s u

/-- The access at `ea` is one that the Peripherals Bridge claims (20_memory R51). -/
def claimed (s : State) (ea : Word) : Bool :=
  s.params.periphEnabled && (ea == consoleIn || ea == consoleOut || ea == consoleErr)

/-- The word whose bytes Memory holds from address a on, least significant first (R42, R44). -/
def wordAt (m : Memory) (a : Nat) : Word :=
  readByte m (a + 3) ++ readByte m (a + 2) ++ readByte m (a + 1) ++ readByte m a

/-- Every byte of Memory reads as before. -/
def SameMemory (s t : State) : Prop := ∀ a, readByte t.mem a = readByte s.mem a

/-- Every general register reads as before. -/
def SameRegisters (s t : State) : Prop := ∀ q, t.readReg q = s.readReg q

/-- Every general register reads as before, but for rd, which reads as v unless it is x0; x0 reads as zero (R21). -/
def OnlyRegister (rd : RegIdx) (v : Word) (s t : State) : Prop :=
  ∀ q, t.readReg q = if q = 0#5 then 0#32 else if q = rd then v else s.readReg q

/-- The step ended with this pc and this result value, did not touch `halted` or the parameters, and sent nothing
else to the host. -/
def Retired (npc : Word) (r : StepResult) (s t : State) : Prop :=
  t.pc = npc ∧ t.halted = s.halted ∧ t.params = s.params ∧
    t.port = { s.port with trace := s.port.trace ++ [r] }

/-- A register-writing instruction that touches no byte of Memory: rd holds v, which is the result value too. -/
def Computed (rd : RegIdx) (v npc : Word) (s t : State) : Prop :=
  OnlyRegister rd v s t ∧ SameMemory s t ∧ Retired npc (.value v) s t

/-- The eight LOAD forms (R93). -/
def loadForms (rd rs1 : RegIdx) (imm : BitVec 12) : List Instr :=
  [.lb rd rs1 imm, .lh rd rs1 imm, .lw rd rs1 imm, .lbu rd rs1 imm, .lhu rd rs1 imm, .load011 rd rs1 imm, .load110 rd rs1 imm, .load111 rd rs1 imm]

/-- The eight STORE forms (R93). -/
def storeForms (rs1 rs2 : RegIdx) (imm : BitVec 12) : List Instr :=
  [.sb rs1 rs2 imm, .sh rs1 rs2 imm, .sw rs1 rs2 imm, .store011 rs1 rs2 imm, .store100 rs1 rs2 imm, .store101 rs1 rs2 imm, .store110 rs1 rs2 imm, .store111 rs1 rs2 imm]

/-- The eight BRANCH forms (R93). -/
def branchForms (rs1 rs2 : RegIdx) (off : BitVec 13) : List Instr :=
  [.beq rs1 rs2 off, .bne rs1 rs2 off, .blt rs1 rs2 off, .bge rs1 rs2 off, .bltu rs1 rs2 off, .bgeu rs1 rs2 off, .branch010 rs1 rs2 off, .branch011 rs1 rs2 off]

/-- The eight JALR forms (R93). -/
def jalrForms (rd rs1 : RegIdx) (imm : BitVec 12) : List Instr :=
  [.jalr rd rs1 imm, .jalr001 rd rs1 imm, .jalr010 rd rs1 imm, .jalr011 rd rs1 imm, .jalr100 rd rs1 imm, .jalr101 rd rs1 imm, .jalr110 rd rs1 imm, .jalr111 rd rs1 imm]

/-- A line that asks for a memory dump (60_exceptions R272, D39): decimal digits, a slash, hexadecimal digits, these with
or without `0x` before them. The one space after the x, and either letter case, are the model's (log 14). -/
def IsDumpLine (line : List Char) : Prop :=
  ∃ count digits : List Char, count ≠ [] ∧ (∀ c ∈ count, '0' ≤ c ∧ c ≤ '9') ∧
    digits ≠ [] ∧ (∀ c ∈ digits, ('0' ≤ c ∧ c ≤ '9') ∨ ('a' ≤ c ∧ c ≤ 'f') ∨ ('A' ≤ c ∧ c ≤ 'F')) ∧
    (line = 'x' :: ' ' :: (count ++ '/' :: digits) ∨ line = 'x' :: ' ' :: (count ++ '/' :: '0' :: 'x' :: digits))

/-- The same block: the two states differ at most in what was sent to the host. -/
def SameBlock (s t : State) : Prop :=
  s.regs = t.regs ∧ s.pc = t.pc ∧ s.mem = t.mem ∧ s.halted = t.halted ∧ s.params = t.params ∧
    s.port.input = t.port.input

/-- The same outcome, up to what was sent to the host. -/
def SameOutcome : Host.Outcome State Fault Refusal → Host.Outcome State Fault Refusal → Prop
  | .next s, .next t => SameBlock s t
  | .fault (.addressFault i s), .fault (.addressFault j t) => i = j ∧ SameBlock s t
  | .fault .haltedNoStep, .fault .haltedNoStep => True
  | .fault .consoleInBlocked, .fault .consoleInBlocked => True
  | .fault .stringNeverEnds, .fault .stringNeverEnds => True
  | _, _ => False

end Sys2Proof.Machine
end

