-- ==== Sys2Proof/Certificates/Slice0/Obligations.lean ====
section
/-! DEFINITION. The statements for the provers. Each docstring names the rules of spec/ that it formalises. -/

open Sys2Proof Sys2Proof.Machine

/-! ## Encoding -/

/-- Decoding the word of any well-formed instruction gives it back, with every operand at every value (30_encoding R71-R94). -/
def Obligations.EncodedInstructionDecodesBack : Prop :=
  ∀ i : Instr, i.wellFormed = true → decode (encode i) = .ok i

/-- A word that decodes to an instruction is the word of exactly that instruction: no bit of it is dropped. -/
def Obligations.DecodedWordEncodesBack : Prop :=
  ∀ (w : Word) (i : Instr), decode w = .ok i → i.wellFormed = true ∧ encode i = w

/-- No word is of two rows of the opcode table. -/
def Obligations.OpcodeRowsAreDisjoint : Prop :=
  opcodeTable.Pairwise fun r q => ∀ w : Word, ¬ (r.matchesWord w = true ∧ q.matchesWord w = true)

/-- A word that decodes to an instruction is of the row with that instruction's mnemonic and of no other; the decoder
rejects exactly "every word outside the rows of opcode_table.json" (45_system R238). It rests on the spec's decision
D15. -/
def Obligations.DecoderFollowsTheOpcodeTable : Prop :=
  (∀ (w : Word) (i : Instr), decode w = .ok i →
    ∀ r ∈ opcodeTable, (r.matchesWord w = true ↔ r.mnemonic = i.mnemonic)) ∧
  (∀ w : Word, (∃ e, decode w = .error e) ↔ ∀ r ∈ opcodeTable, r.matchesWord w = false)

/-- The decoder rejects exactly the words of R95 and R96: an opcode of none of the ten classes; OP with a pair not in
R92; an OP_IMM shift with a funct7 not in R91; SYSTEM other than funct3 0 with w[31:20] 0 or 1. It rests on the
spec's decisions D7, D14, D15. -/
def Obligations.RejectedWordsByClass : Prop :=
  ∀ w : Word, (∃ e, decode w = .error e) ↔
    (w.extractLsb' 0 7 ∉ [0x03#7, 0x13#7, 0x17#7, 0x23#7, 0x33#7, 0x37#7, 0x63#7, 0x67#7, 0x6F#7, 0x73#7] ∨
    (w.extractLsb' 0 7 = 0x33#7 ∧
      ¬ (w.extractLsb' 25 7 = 0#7 ∨ (w.extractLsb' 25 7 = 0x20#7 ∧ w.extractLsb' 12 3 ∈ [0#3, 5#3]))) ∨
    (w.extractLsb' 0 7 = 0x13#7 ∧ w.extractLsb' 12 3 = 1#3 ∧ w.extractLsb' 25 7 ≠ 0#7) ∨
    (w.extractLsb' 0 7 = 0x13#7 ∧ w.extractLsb' 12 3 = 5#3 ∧ w.extractLsb' 25 7 ∉ [0#7, 0x20#7]) ∨
    (w.extractLsb' 0 7 = 0x73#7 ∧ ¬ (w.extractLsb' 12 3 = 0#3 ∧ w.extractLsb' 20 12 ∈ [0#12, 1#12])))

/-- A word of each family, written out in 95_test_vectors, decodes to its instruction (sanity). -/
def Obligations.VectorWordsDecode : Prop :=
  decode 0x0010A183#32 = .ok (.lw 3#5 1#5 1#12) ∧
  decode 0xFE20AFA3#32 = .ok (.sw 1#5 2#5 (BitVec.ofInt 12 (-1))) ∧
  decode 0xFE000CE3#32 = .ok (.beq 0#5 0#5 8184#13) ∧
  decode 0x004280E7#32 = .ok (.jalr 1#5 5#5 4#12) ∧
  decode 0xFF5FF06F#32 = .ok (.jal 0#5 (BitVec.ofInt 21 (-12))) ∧
  decode 0x12345217#32 = .ok (.auipc 4#5 0x12345#20) ∧
  decode 0x41F35293#32 = .ok (.srai 5#5 6#5 31#5) ∧
  decode 0x402081B3#32 = .ok (.sub 3#5 1#5 2#5) ∧
  decode 0x00100073#32 = .ok (.ebreak 0#5 0#5)

/-! ## The step -/

/-- A step that is enabled, and whose four bytes at the pc decode to an instruction, is that instruction's meaning at
the same state (R121, R122, R124; the pc update is the meaning's). -/
def Obligations.StepRunsTheDecodedInstruction : Prop :=
  ∀ (s : State) (i : Instr), s.halted = false → s.pc.toNat + 4 ≤ s.params.memSize →
    decode (readByte s.mem (s.pc.toNat + 3) ++ readByte s.mem (s.pc.toNat + 2) ++
      readByte s.mem (s.pc.toNat + 1) ++ readByte s.mem s.pc.toNat) = .ok i →
    step s = exec i s

/-- An instruction whose encoding stands little-endian at the pc is the one a step runs (R44, R48, R121, R124). -/
def Obligations.StepRunsTheEncodedInstruction : Prop :=
  ∀ (s : State) (i : Instr), i.wellFormed = true → s.halted = false → s.pc.toNat + 4 ≤ s.params.memSize →
    (∀ k : Nat, k < 4 → readByte s.mem (s.pc.toNat + k) = (encode i).extractLsb' (8 * k) 8) →
    step s = exec i s

/-- Fetch is a little-endian read of the four bytes at the pc, with no alignment check, never a peripheral; it faults
if and only if pc + 4 > memSize, and then the step ends with AddressFault(fetch, pc, 4) and the state as it was (R48,
R121). It rests on the spec's decisions D4, D16, D20. -/
def Obligations.FetchReadsFourBytesOrFaults : Prop :=
  ∀ s : State,
    (s.pc.toNat + 4 ≤ s.params.memSize → ∃ w, fetch s = .ok w ∧
      ∀ k : Nat, k < 4 → w.extractLsb' (8 * k) 8 = readByte s.mem (s.pc.toNat + k)) ∧
    (s.halted = false → s.params.memSize < s.pc.toNat + 4 →
      step s = .fault (.addressFault ⟨.fetch, s.pc, 4, s.pc⟩ s))

/-- A word that the decoder rejects is a no-op with a report: pc + 4, result None, the report (pc, w), nothing
else; the host shows the report to the operator, its mode does not change, and the run continues (R238, R255,
R266). It rests on the spec's decisions D7, D15. -/
def Obligations.UnrecognizedWordIsReportedNoOp : Prop :=
  ∀ (s : State) (e : Unrecognized), s.halted = false → s.pc.toNat + 4 ≤ s.params.memSize →
    decode (wordAt s.mem s.pc.toNat) = .error e →
    ∃ t, step s = .next t ∧ SameRegisters s t ∧ SameMemory s t ∧
      t.pc = BitVec.ofNat 32 (s.pc.toNat + 4) ∧ t.halted = false ∧ t.params = s.params ∧
      t.port = { s.port with
        trace := s.port.trace ++ [.noValue]
        reports := s.port.reports ++ [⟨s.pc, wordAt s.mem s.pc.toNat⟩] } ∧
      ∀ σ : Session, σ.machine = s → σ.ended = none →
        (σ.mode = .running → σ.turn = { σ with
          machine := t, printed := σ.printed ++ [.unrecognized ⟨s.pc, wordAt s.mem s.pc.toNat⟩] }) ∧
        (∀ rest, σ.mode = .stepping → σ.commands = ['s', 't', 'e', 'p'] :: rest → σ.turn = { σ with
          machine := t, commands := rest
          printed := σ.printed ++ [.unrecognized ⟨s.pc, wordAt s.mem s.pc.toNat⟩] })

/-- "A step is enabled iff `halted` is false" (R120): a completed step started with `halted` false, and from a halted
state none completes (the name of the stop is the model's, log 5). -/
def Obligations.HaltedBlockTakesNoStep : Prop :=
  (∀ s t : State, step s = .next t → s.halted = false) ∧
  (∀ s : State, s.halted = true → step s = .fault .haltedNoStep)

/-! ## Registers -/

/-- "index 0 always reads as zero; writes to index 0 are silently discarded", and "No other register has a reserved
value": any other register reads as the last value written to it, and a write touches no other register, no byte of
Memory and not the pc (10_state R21). -/
def Obligations.RegisterZeroIsHardWired : Prop :=
  ∀ (s : State) (r q : RegIdx) (v : Word),
    s.readReg 0#5 = 0#32 ∧ s.writeReg 0#5 v = s ∧
    (s.writeReg r v).readReg q = (if q = 0#5 then 0#32 else if q = r then v else s.readReg q) ∧
    (s.writeReg r v).mem = s.mem ∧ (s.writeReg r v).pc = s.pc

/-! ## Loads and stores -/

/-- `ea = to32(x[rs1] + imm)` with the signed 12-bit immediate (20_memory R50). It rests on the spec's decision D6. -/
def Obligations.EffectiveAddressWraps : Prop :=
  ∀ (s : State) (rs1 : RegIdx) (imm : BitVec 12),
    effAddr s rs1 imm = BitVec.ofInt 32 ((s.readReg rs1).toNat + imm.toInt)

/-- Every LOAD form reads the four bytes at its effective address, whatever its funct3 and the address's alignment,
and writes them little-endian to rd; the result value is the value read, also when rd is x0 (R140, R152, R153). It
rests on the spec's decisions D5, D8, D12, D34. -/
def Obligations.LoadReadsFourBytes : Prop :=
  ∀ (s : State) (rd rs1 : RegIdx) (imm : BitVec 12), ∀ i ∈ loadForms rd rs1 imm,
    claimed s (effAddr s rs1 imm) = false →
    (effAddr s rs1 imm).toNat + 4 ≤ s.params.memSize →
    ∃ t v, exec i s = .next t ∧
      v.toNat = (readByte s.mem (effAddr s rs1 imm).toNat).toNat +
        2 ^ 8 * (readByte s.mem ((effAddr s rs1 imm).toNat + 1)).toNat +
        2 ^ 16 * (readByte s.mem ((effAddr s rs1 imm).toNat + 2)).toNat +
        2 ^ 24 * (readByte s.mem ((effAddr s rs1 imm).toNat + 3)).toNat ∧
      Computed rd v (BitVec.ofNat 32 (s.pc.toNat + 4)) s t

/-- Every LOAD form, x0 as rd included, raises AddressFault(load, ea, 4) where ea + 4 > memSize and no peripheral
claims ea, and leaves the state as it was (R140, R252). It rests on the spec's decisions D8, D16. -/
def Obligations.LoadOutOfBoundsFaults : Prop :=
  ∀ (s : State) (rd rs1 : RegIdx) (imm : BitVec 12), ∀ i ∈ loadForms rd rs1 imm,
    claimed s (effAddr s rs1 imm) = false →
    s.params.memSize < (effAddr s rs1 imm).toNat + 4 →
    exec i s = .fault (.addressFault ⟨.load, effAddr s rs1 imm, 4, s.pc⟩ s)

/-- With peripherals, a LOAD of console-in consumes one line and reads its first byte, or 0 for an empty line; a LOAD
of console-out or console-err reads 0 and has no other effect (R52, R269). It rests on the spec's decisions D8, D20,
D21. -/
def Obligations.LoadOfConsoleAddresses : Prop :=
  ∀ (s : State) (rd rs1 : RegIdx) (imm : BitVec 12), ∀ i ∈ loadForms rd rs1 imm,
    s.params.periphEnabled = true →
    (∀ line rest, effAddr s rs1 imm = 0x04000000#32 → s.port.input = line :: rest →
      ∃ t v, exec i s = .next t ∧ v.toNat = (line.headD 0#8).toNat ∧ OnlyRegister rd v s t ∧ SameMemory s t ∧
        t.pc = BitVec.ofNat 32 (s.pc.toNat + 4) ∧ t.halted = s.halted ∧ t.params = s.params ∧
        t.port = { s.port with input := rest, trace := s.port.trace ++ [.value v] }) ∧
    (effAddr s rs1 imm = 0x04000004#32 ∨ effAddr s rs1 imm = 0x04000008#32 →
      ∃ t, exec i s = .next t ∧ Computed rd 0#32 (BitVec.ofNat 32 (s.pc.toNat + 4)) s t)

/-- A LOAD of console-in with no line left does not complete: "the step waits for ever" (R270, D35; the name of the
stop is the model's, log 6). -/
def Obligations.LoadOfConsoleInWaitsForALine : Prop :=
  ∀ (s : State) (rd rs1 : RegIdx) (imm : BitVec 12), ∀ i ∈ loadForms rd rs1 imm,
    s.params.periphEnabled = true → effAddr s rs1 imm = 0x04000000#32 → s.port.input = [] →
    exec i s = .fault .consoleInBlocked

/-- Every STORE form writes the four bytes of x[rs2] little-endian at its effective address, whatever its funct3 and
the address's alignment, and no other byte (R147, R154). It rests on the spec's decisions D5, D8. -/
def Obligations.StoreWritesFourBytes : Prop :=
  ∀ (s : State) (rs1 rs2 : RegIdx) (imm : BitVec 12), ∀ i ∈ storeForms rs1 rs2 imm,
    s.mem.wf →
    claimed s (effAddr s rs1 imm) = false →
    (effAddr s rs1 imm).toNat + 4 ≤ s.params.memSize →
    ∃ t, exec i s = .next t ∧ SameRegisters s t ∧
      (∀ k : Nat, k < 4 → readByte t.mem ((effAddr s rs1 imm).toNat + k) =
        (s.readReg rs2).extractLsb' (8 * k) 8) ∧
      (∀ a : Nat, ¬ ((effAddr s rs1 imm).toNat ≤ a ∧ a < (effAddr s rs1 imm).toNat + 4) →
        readByte t.mem a = readByte s.mem a) ∧
      Retired (BitVec.ofNat 32 (s.pc.toNat + 4)) .noValue s t

/-- Every STORE form raises AddressFault(store, ea, 4) where ea + 4 > memSize and no peripheral claims ea, and leaves
the state as it was: no byte is written, the bytes below memSize included (R43, R147, R252). It rests on the spec's
decisions D8, D16. -/
def Obligations.StoreOutOfBoundsFaults : Prop :=
  ∀ (s : State) (rs1 rs2 : RegIdx) (imm : BitVec 12), ∀ i ∈ storeForms rs1 rs2 imm,
    claimed s (effAddr s rs1 imm) = false →
    s.params.memSize < (effAddr s rs1 imm).toNat + 4 →
    exec i s = .fault (.addressFault ⟨.store, effAddr s rs1 imm, 4, s.pc⟩ s)

/-- With peripherals, a STORE to console-out or console-err emits the low byte of x[rs2] on `out` or `err`, a STORE
to console-in is discarded, and none of them touches Memory (R53, R269). It rests on the spec's decisions D8, D20,
D21. -/
def Obligations.StoreToConsoleAddresses : Prop :=
  ∀ (s : State) (rs1 rs2 : RegIdx) (imm : BitVec 12), ∀ i ∈ storeForms rs1 rs2 imm,
    s.params.periphEnabled = true →
    (effAddr s rs1 imm ∈ [0x04000000#32, 0x04000004#32, 0x04000008#32] →
      ∃ t, exec i s = .next t ∧ SameRegisters s t ∧ SameMemory s t ∧
        t.pc = BitVec.ofNat 32 (s.pc.toNat + 4) ∧ t.halted = s.halted ∧ t.params = s.params ∧
        t.port.input = s.port.input ∧ t.port.reports = s.port.reports ∧
        t.port.trace = s.port.trace ++ [.noValue] ∧
        t.port.out = (if effAddr s rs1 imm = 0x04000004#32
          then s.port.out ++ [BitVec.ofNat 8 ((s.readReg rs2).toNat % 256)] else s.port.out) ∧
        t.port.err = (if effAddr s rs1 imm = 0x04000008#32
          then s.port.err ++ [BitVec.ofNat 8 ((s.readReg rs2).toNat % 256)] else s.port.err))

/-- A LOAD of any form right after a STORE to the same address reads the stored value; in x0 it is discarded (R59,
R43, R152). It rests on the spec's decision D8. -/
def Obligations.LoadAfterStoreReadsTheStoredValue : Prop :=
  ∀ (s t u : State) (rs1 rs2 rd rb : RegIdx) (imm off : BitVec 12),
    ∀ i ∈ storeForms rs1 rs2 imm, ∀ j ∈ loadForms rd rb off,
    s.mem.wf → claimed s (effAddr s rs1 imm) = false →
    exec i s = .next t → effAddr t rb off = effAddr s rs1 imm → exec j t = .next u →
    u.readReg rd = if rd = 0#5 then 0#32 else s.readReg rs2

/-- A STORE of a whole instruction word at the next instruction's address is seen by the next fetch (R62). -/
def Obligations.StoreIsSeenByTheNextFetch : Prop :=
  ∀ (s t : State) (rs1 rs2 : RegIdx) (imm : BitVec 12), ∀ i ∈ storeForms rs1 rs2 imm,
    s.mem.wf → claimed s (effAddr s rs1 imm) = false →
    exec i s = .next t → effAddr s rs1 imm = t.pc →
    fetch t = .ok (s.readReg rs2)

/-- `MemRead(addr, n)` is the sum of the bytes times 2^(8k), `MemWrite(addr, n, v)` stores `(v >> 8k) mod 256` at
addr + k and no other byte, the read after the write gives v mod 2^(8n), and either fails, the write with no byte
stored, if and only if addr + n > memSize (20_memory R42, R43, R46; the spec's decisions D6 and D16). -/
def Obligations.MemoryWriteThenReadRoundTrips : Prop :=
  ∀ (s : State) (a n v : Nat), s.mem.wf →
    (a + n ≤ s.params.memSize →
      s.memRead a n = some (((List.range n).map fun k => (readByte s.mem (a + k)).toNat * 2 ^ (8 * k)).sum) ∧
      ∃ t, s.memWrite a n v = some t ∧ t.memRead a n = some (v % 2 ^ (8 * n)) ∧
        (∀ k : Nat, k < n → readByte t.mem (a + k) = BitVec.ofNat 8 (v / 2 ^ (8 * k) % 256)) ∧
        (∀ x : Nat, x < a ∨ a + n ≤ x → readByte t.mem x = readByte s.mem x) ∧ t.mem.wf) ∧
    (s.params.memSize < a + n → s.memWrite a n v = none ∧ s.memRead a n = none)

/-! ## Branches and jumps -/

/-- immB_disp and immB_exec in the four cases of bits 12 and 11 of the assembled field, under each reading, L its low
11 bits; "Execute equals display for every reading only when b[12] = b[11] = 0" (30_encoding R84, R85, the table; the
readings are the spec's decision D9, log 3). -/
def Obligations.BranchImmediateReadings : Prop :=
  ∀ b : BitVec 13,
    let L : Int := (b.toNat % 2 ^ 11 : Nat)
    b.toInt = (if b.getLsbD 12 then (if b.getLsbD 11 then L - 2048 else L - 4096)
      else (if b.getLsbD 11 then 2048 + L else L)) ∧
    immBExec .subAt11 b = (if b.getLsbD 12 then (if b.getLsbD 11 then 2048 + L else 4096 + L)
      else (if b.getLsbD 11 then L - 2048 else L)) ∧
    immBExec .sext12 b = (if b.getLsbD 11 then L - 2048 else L) ∧
    immBExec .orAt11 b = (if b.getLsbD 11 then L - 2048 else if b.getLsbD 12 then 4096 + L else L) ∧
    ((∀ r : BranchImmExec, immBExec r b = b.toInt) ↔ b.getLsbD 12 = false ∧ b.getLsbD 11 = false)

/-- Every BRANCH form compares equality and nothing else: the pc goes to to32(pc + immB_exec) if and only if x[rs1] =
x[rs2], to pc + 4 otherwise; the result value is the target, taken or not; nothing else changes (R160). It rests on
the spec's decisions D3, D8, D9, D13. -/
def Obligations.BranchTakenIffEqual : Prop :=
  ∀ (s : State) (rs1 rs2 : RegIdx) (off : BitVec 13), ∀ i ∈ branchForms rs1 rs2 off,
    ∃ t target, exec i s = .next t ∧
      target = BitVec.ofInt 32 (s.pc.toNat + immBExec s.params.branchImmExec off) ∧
      SameRegisters s t ∧ SameMemory s t ∧
      Retired (if (s.readReg rs1).toNat = (s.readReg rs2).toNat then target else BitVec.ofNat 32 (s.pc.toNat + 4))
        (.value target) s t

/-- Every JALR form jumps to to32(x[rs1] + imm) with bit 0 cleared, computed from the old x[rs1] also when rd = rs1,
and writes the link pc + 4 to rd, which is the result value (R168). It rests on the spec's decisions D3, D8, D12,
D13. -/
def Obligations.JalrJumpsAndLinks : Prop :=
  ∀ (s : State) (rd rs1 : RegIdx) (imm : BitVec 12), ∀ i ∈ jalrForms rd rs1 imm,
    ∃ t npc, exec i s = .next t ∧
      npc.toNat = 2 * ((((s.readReg rs1).toNat + imm.toInt) % 2 ^ 32).toNat / 2) ∧
      OnlyRegister rd (BitVec.ofNat 32 (s.pc.toNat + 4)) s t ∧ SameMemory s t ∧
      Retired npc (.value (BitVec.ofNat 32 (s.pc.toNat + 4))) s t

/-- JAL jumps to to32(pc + immJ) with bit 0 cleared and writes the link pc + 4 to rd, which is the result value
(R169). It rests on the spec's decisions D3, D13. -/
def Obligations.JalJumpsAndLinks : Prop :=
  ∀ (s : State) (rd : RegIdx) (off : BitVec 21),
    ∃ t npc, exec (.jal rd off) s = .next t ∧
      npc.toNat = 2 * (((s.pc.toNat + off.toInt) % 2 ^ 32).toNat / 2) ∧
      OnlyRegister rd (BitVec.ofNat 32 (s.pc.toNat + 4)) s t ∧ SameMemory s t ∧
      Retired npc (.value (BitVec.ofNat 32 (s.pc.toNat + 4))) s t

/-! ## Computational instructions -/

/-- LUI writes immU · 2^12, AUIPC to32(pc + immU · 2^12) with pc its own address (R180, R181). It rests on the spec's
decisions D3, D11. -/
def Obligations.UpperImmediateResults : Prop :=
  ∀ (s : State) (rd : RegIdx) (imm : BitVec 20),
    (∃ t, exec (.lui rd imm) s = .next t ∧
      Computed rd (BitVec.ofNat 32 (imm.toNat * 2 ^ 12)) (BitVec.ofNat 32 (s.pc.toNat + 4)) s t) ∧
    (∃ t, exec (.auipc rd imm) s = .next t ∧
      Computed rd (BitVec.ofNat 32 (s.pc.toNat + imm.toNat * 2 ^ 12)) (BitVec.ofNat 32 (s.pc.toNat + 4)) s t)

/-- ADDI, SLTI, SLTIU use the low five bits of the 12-bit field, zero-extended: ADDI adds modulo 2^32, SLTI
compares signed, SLTIU unsigned (R88, R190-R193). It rests on the spec's decision D10 (log 11). -/
def Obligations.ImmediateAddAndCompareResults : Prop :=
  ∀ (s : State) (rd rs1 : RegIdx) (imm : BitVec 12),
    (∃ t, exec (.addi rd rs1 imm) s = .next t ∧
      Computed rd (BitVec.ofNat 32 ((s.readReg rs1).toNat + imm.toNat % 32)) (BitVec.ofNat 32 (s.pc.toNat + 4)) s t) ∧
    (∃ t, exec (.slti rd rs1 imm) s = .next t ∧
      Computed rd (if (s.readReg rs1).toInt < (imm.toNat % 32 : Nat) then 1#32 else 0#32)
        (BitVec.ofNat 32 (s.pc.toNat + 4)) s t) ∧
    (∃ t, exec (.sltiu rd rs1 imm) s = .next t ∧
      Computed rd (if (s.readReg rs1).toNat < imm.toNat % 32 then 1#32 else 0#32)
        (BitVec.ofNat 32 (s.pc.toNat + 4)) s t)

/-- XORI, ORI and ANDI work bit by bit on the low five bits of the field, zero-extended (R88, R194-R196). It rests
on the spec's decision D10 (log 11). -/
def Obligations.ImmediateLogicResults : Prop :=
  ∀ (s : State) (rd rs1 : RegIdx) (imm : BitVec 12),
    (∃ t v, exec (.xori rd rs1 imm) s = .next t ∧
      (∀ k : Nat, v.getLsbD k = ((s.readReg rs1).getLsbD k ^^ (decide (k < 5) && imm.getLsbD k))) ∧
      Computed rd v (BitVec.ofNat 32 (s.pc.toNat + 4)) s t) ∧
    (∃ t v, exec (.ori rd rs1 imm) s = .next t ∧
      (∀ k : Nat, v.getLsbD k = ((s.readReg rs1).getLsbD k || (decide (k < 5) && imm.getLsbD k))) ∧
      Computed rd v (BitVec.ofNat 32 (s.pc.toNat + 4)) s t) ∧
    (∃ t v, exec (.andi rd rs1 imm) s = .next t ∧
      (∀ k : Nat, v.getLsbD k = ((s.readReg rs1).getLsbD k && (decide (k < 5) && imm.getLsbD k))) ∧
      Computed rd v (BitVec.ofNat 32 (s.pc.toNat + 4)) s t)

/-- SLLI, SRLI and SRAI: multiplication by 2^shamt modulo 2^32, and the unsigned and the signed floor division by it
(R197-R199). -/
def Obligations.ImmediateShiftResults : Prop :=
  ∀ (s : State) (rd rs1 : RegIdx) (shamt : BitVec 5),
    (∃ t, exec (.slli rd rs1 shamt) s = .next t ∧
      Computed rd (BitVec.ofNat 32 ((s.readReg rs1).toNat * 2 ^ shamt.toNat)) (BitVec.ofNat 32 (s.pc.toNat + 4)) s t) ∧
    (∃ t, exec (.srli rd rs1 shamt) s = .next t ∧
      Computed rd (BitVec.ofNat 32 ((s.readReg rs1).toNat / 2 ^ shamt.toNat)) (BitVec.ofNat 32 (s.pc.toNat + 4)) s t) ∧
    (∃ t, exec (.srai rd rs1 shamt) s = .next t ∧
      Computed rd (BitVec.ofInt 32 ((s.readReg rs1).toInt / 2 ^ shamt.toNat)) (BitVec.ofNat 32 (s.pc.toNat + 4)) s t)

/-- ADD and SUB, modulo 2^32 (R201-R203). -/
def Obligations.AddAndSubResults : Prop :=
  ∀ (s : State) (rd rs1 rs2 : RegIdx),
    (∃ t, exec (.add rd rs1 rs2) s = .next t ∧
      Computed rd (BitVec.ofNat 32 ((s.readReg rs1).toNat + (s.readReg rs2).toNat))
        (BitVec.ofNat 32 (s.pc.toNat + 4)) s t) ∧
    (∃ t, exec (.sub rd rs1 rs2) s = .next t ∧
      Computed rd (BitVec.ofInt 32 ((s.readReg rs1).toNat - (s.readReg rs2).toNat : Int))
        (BitVec.ofNat 32 (s.pc.toNat + 4)) s t)

/-- SLT compares signed, SLTU unsigned; both write 1 or 0 (R205, R206). -/
def Obligations.CompareResults : Prop :=
  ∀ (s : State) (rd rs1 rs2 : RegIdx),
    (∃ t, exec (.slt rd rs1 rs2) s = .next t ∧
      Computed rd (if (s.readReg rs1).toInt < (s.readReg rs2).toInt then 1#32 else 0#32)
        (BitVec.ofNat 32 (s.pc.toNat + 4)) s t) ∧
    (∃ t, exec (.sltu rd rs1 rs2) s = .next t ∧
      Computed rd (if (s.readReg rs1).toNat < (s.readReg rs2).toNat then 1#32 else 0#32)
        (BitVec.ofNat 32 (s.pc.toNat + 4)) s t)

/-- XOR, OR and AND, bit by bit (R207, R210, R211). -/
def Obligations.LogicResults : Prop :=
  ∀ (s : State) (rd rs1 rs2 : RegIdx),
    (∃ t v, exec (.xor rd rs1 rs2) s = .next t ∧
      (∀ k : Nat, v.getLsbD k = ((s.readReg rs1).getLsbD k ^^ (s.readReg rs2).getLsbD k)) ∧
      Computed rd v (BitVec.ofNat 32 (s.pc.toNat + 4)) s t) ∧
    (∃ t v, exec (.or rd rs1 rs2) s = .next t ∧
      (∀ k : Nat, v.getLsbD k = ((s.readReg rs1).getLsbD k || (s.readReg rs2).getLsbD k)) ∧
      Computed rd v (BitVec.ofNat 32 (s.pc.toNat + 4)) s t) ∧
    (∃ t v, exec (.and rd rs1 rs2) s = .next t ∧
      (∀ k : Nat, v.getLsbD k = ((s.readReg rs1).getLsbD k && (s.readReg rs2).getLsbD k)) ∧
      Computed rd v (BitVec.ofNat 32 (s.pc.toNat + 4)) s t)

/-- SLL, SRL and SRA shift by x[rs2][4:0], that is by x[rs2] modulo 32 (R204, R208, R209, R214). It rests on the
spec's decision D32 (log 11). -/
def Obligations.RegisterShiftResults : Prop :=
  ∀ (s : State) (rd rs1 rs2 : RegIdx),
    (∃ t, exec (.sll rd rs1 rs2) s = .next t ∧
      Computed rd (BitVec.ofNat 32 ((s.readReg rs1).toNat * 2 ^ ((s.readReg rs2).toNat % 32)))
        (BitVec.ofNat 32 (s.pc.toNat + 4)) s t) ∧
    (∃ t, exec (.srl rd rs1 rs2) s = .next t ∧
      Computed rd (BitVec.ofNat 32 ((s.readReg rs1).toNat / 2 ^ ((s.readReg rs2).toNat % 32)))
        (BitVec.ofNat 32 (s.pc.toNat + 4)) s t) ∧
    (∃ t, exec (.sra rd rs1 rs2) s = .next t ∧
      Computed rd (BitVec.ofInt 32 ((s.readReg rs1).toInt / 2 ^ ((s.readReg rs2).toNat % 32)))
        (BitVec.ofNat 32 (s.pc.toNat + 4)) s t)

/-! ## SYSTEM and semihosting -/

/-- ECALL is a no-op that advances the pc, whatever its rd and rs1 fields: "ECALL is not a trap" (R231). -/
def Obligations.EcallOnlyAdvances : Prop :=
  ∀ (s : State) (rd rs1 : RegIdx), ∃ t, exec (.ecall rd rs1) s = .next t ∧ SameRegisters s t ∧ SameMemory s t ∧
    Retired (BitVec.ofNat 32 (s.pc.toNat + 4)) .noValue s t

/-- An EBREAK that makes no semihosting request 4 or 6 (semihosting disabled, or the word not exactly 0x00100073, or
another a0) advances the pc, halts, and results in the Break marker; nothing is emitted (R232, R233, R236). It rests
on the spec's decisions D14, D22, D26. -/
def Obligations.EbreakHalts : Prop :=
  ∀ (s : State) (rd rs1 : RegIdx),
    ¬ (s.params.semihostEnabled = true ∧ rd = 0#5 ∧ rs1 = 0#5 ∧ (s.readReg 10#5 = 4#32 ∨ s.readReg 10#5 = 6#32)) →
    ∃ t, exec (.ebreak rd rs1) s = .next t ∧ SameRegisters s t ∧ SameMemory s t ∧
      t.pc = BitVec.ofNat 32 (s.pc.toNat + 4) ∧ t.halted = true ∧ t.params = s.params ∧
      t.port = { s.port with trace := s.port.trace ++ [.breakMark] }

/-- Semihosting request 4 emits exactly the byte a1 AND 0xFF on `out`, and the EBREAK halts all the same (R232,
R234). It rests on the spec's decisions D22, D26. -/
def Obligations.SemihostWritesCharacter : Prop :=
  ∀ s : State, s.params.semihostEnabled = true → s.readReg 10#5 = 4#32 →
    ∃ t, exec (.ebreak 0#5 0#5) s = .next t ∧ SameRegisters s t ∧ SameMemory s t ∧
      t.pc = BitVec.ofNat 32 (s.pc.toNat + 4) ∧ t.halted = true ∧ t.params = s.params ∧
      t.port = { s.port with
        out := s.port.out ++ [BitVec.ofNat 8 ((s.readReg 11#5).toNat % 256)]
        trace := s.port.trace ++ [.breakMark] }

/-- Semihosting request 6 emits the bytes of Memory from a1 up to, not including, the first zero byte, the address
incremented modulo 2^32, and the EBREAK halts all the same (R232, R235). It rests on the spec's decisions D22, D26. -/
def Obligations.SemihostWritesString : Prop :=
  ∀ (s : State) (bs : List Byte), s.params.legal → s.params.semihostEnabled = true → s.readReg 10#5 = 6#32 →
    (∀ k : Nat, k ≤ bs.length → ((s.readReg 11#5).toNat + k) % 2 ^ 32 < s.params.memSize ∧
      readByte s.mem (((s.readReg 11#5).toNat + k) % 2 ^ 32) = bs.getD k 0#8) →
    (∀ b ∈ bs, b ≠ 0#8) →
    ∃ t, exec (.ebreak 0#5 0#5) s = .next t ∧ SameRegisters s t ∧ SameMemory s t ∧
      t.pc = BitVec.ofNat 32 (s.pc.toNat + 4) ∧ t.halted = true ∧ t.params = s.params ∧
      t.port = { s.port with
        out := s.port.out ++ bs
        trace := s.port.trace ++ [.breakMark] }

/-- A semihosting string that reaches the first byte outside Memory, at a1 + n, with no zero byte before it ends the
step with AddressFault(semihost, a1 + n, 1): the bytes emitted stay, the pc has advanced, `halted` is as before, and
registers and Memory are unchanged (R235, R252). It rests on the spec's decision D22. -/
def Obligations.SemihostStringFaultKeepsItsBytes : Prop :=
  ∀ (s : State) (bs : List Byte), s.params.legal → s.params.semihostEnabled = true → s.readReg 10#5 = 6#32 →
    (∀ k : Nat, k < bs.length → (s.readReg 11#5).toNat + k < s.params.memSize ∧
      readByte s.mem ((s.readReg 11#5).toNat + k) = bs.getD k 0#8) →
    (∀ b ∈ bs, b ≠ 0#8) →
    s.params.memSize ≤ (s.readReg 11#5).toNat + bs.length → (s.readReg 11#5).toNat + bs.length < 2 ^ 32 →
    exec (.ebreak 0#5 0#5) s = .fault (.addressFault
      ⟨.semihost, BitVec.ofNat 32 ((s.readReg 11#5).toNat + bs.length), 1, s.pc⟩
      { s with pc := BitVec.ofNat 32 (s.pc.toNat + 4), port := { s.port with out := s.port.out ++ bs } })

/-- The model stops for an endless string only where the string is endless: memSize is 2^32 and no byte of Memory is
zero (derived from R235 and R46; the name of the stop is the model's, log 8). -/
def Obligations.EndlessStringOnlyInZeroFreeMemory : Prop :=
  ∀ (s : State) (i : Instr), s.params.legal → exec i s = .fault .stringNeverEnds →
    s.params.memSize = 2 ^ 32 ∧ ∀ a : Nat, a < 2 ^ 32 → readByte s.mem a ≠ 0#8

/-! ## What only some instructions do -/

/-- "Only STORE" changes Memory once it is loaded (20_memory R41). -/
def Obligations.OnlyStoreChangesMemory : Prop :=
  ∀ (s t : State) (a : Nat), step s = .next t → readByte t.mem a ≠ readByte s.mem a →
    classOf (wordAt s.mem s.pc.toNat) = .store

/-- The class of a word that writes a register is LOAD, JALR, JAL, LUI, AUIPC, OP_IMM or OP, and the register is its rd
field, never x0; "SYSTEM and unrecognized words write no register" (10_state R21, R22). -/
def Obligations.OnlyRdOfWritingClassesChanges : Prop :=
  ∀ (s t : State) (q : RegIdx), step s = .next t → t.readReg q ≠ s.readReg q →
    q = rdOf (wordAt s.mem s.pc.toNat) ∧ q ≠ 0#5 ∧
      classOf (wordAt s.mem s.pc.toNat) ∈ [.load, .jalr, .jal, .lui, .auipc, .opImm, .op]

/-- Only BRANCH, JAL and JALR redirect the pc: after any other word it is pc + 4, modulo 2^32 (10_state R24, R25;
40_execute_cycle R125). It rests on the spec's decision D3. -/
def Obligations.OnlyControlTransfersRedirectPc : Prop :=
  ∀ s t : State, step s = .next t → t.pc ≠ BitVec.ofNat 32 (s.pc.toNat + 4) →
    classOf (wordAt s.mem s.pc.toNat) ∈ [.branch, .jalr, .jal]

/-- `halted` is set by EBREAK alone, and a step that completes with it set ends its trace with the Break marker;
every completed step adds exactly one result to the trace, and no other step's is the Break marker (R31, R127, R128,
R232). It rests on the spec's decisions D13, D26. -/
def Obligations.OnlyEbreakHaltsAndMarksTheTrace : Prop :=
  ∀ s t : State, step s = .next t →
    ∃ r, t.port.trace = s.port.trace ++ [r] ∧ (r = .breakMark ↔ t.halted = true) ∧
      (t.halted = true ↔ ∃ rd rs1, decode (wordAt s.mem s.pc.toNat) = .ok (.ebreak rd rs1))

/-- The parameters are "fixed for a run": no step changes them, one that faults included (10_state R28). It rests on
the spec's decision D33. -/
def Obligations.ParametersNeverChange : Prop :=
  (∀ s t : State, step s = .next t → t.params = s.params) ∧
  (∀ (s left : State) (info : AddressFault), step s = .fault (.addressFault info left) → left.params = s.params)

/-! ## Faults -/

/-- An AddressFault of kind fetch, load or store is precise: it leaves the state as it was; one of kind semihost
leaves the pc at the EBREAK's address + 4, `halted`, registers and Memory as they were, and adds bytes to `out`
alone; in every case the access was out of bounds, the size is 4, or 1 for semihost, and the pc reported is the
instruction's (R250, R251, R252). It rests on the spec's decisions D16, D17, D22. -/
def Obligations.AddressFaultsArePrecise : Prop :=
  ∀ (s left : State) (info : AddressFault), step s = .fault (.addressFault info left) →
    info.pc = s.pc ∧ s.params.memSize < info.addr.toNat + info.size ∧
    (info.kind ≠ .semihost → info.size = 4 ∧ left = s) ∧
    (info.kind = .semihost → info.size = 1 ∧ left.pc = BitVec.ofNat 32 (s.pc.toNat + 4) ∧
      left.halted = false ∧ left.regs = s.regs ∧ left.mem = s.mem ∧
      ∃ bs, left.port = { s.port with out := s.port.out ++ bs })

/-- AddressFault of kind load comes from a LOAD word only, of kind store from a STORE word only, of kind semihost
from the word 0x00100073 with semihosting enabled only (R251, R258). It rests on the spec's decisions D17, D19. -/
def Obligations.FaultKindFollowsTheWord : Prop :=
  ∀ (s left : State) (info : AddressFault), step s = .fault (.addressFault info left) →
    (info.kind = .fetch ↔ s.params.memSize < s.pc.toNat + 4) ∧
    (info.kind = .load → classOf (wordAt s.mem s.pc.toNat) = .load) ∧
    (info.kind = .store → classOf (wordAt s.mem s.pc.toNat) = .store) ∧
    (info.kind = .semihost → wordAt s.mem s.pc.toNat = 0x00100073#32 ∧ s.params.semihostEnabled = true)

/-! ## Reset and invariants -/

/-- The state after reset where the spec gives it: x0 reads 0, pc = 0x100, not halted, and the default parameters
of R8; every byte of Memory is 0, the zero-initialized Memory with no image over it, for State.reset carries none
(the model's choice, log 9) (R8, R33). It rests on the spec's decisions D9, D20, D22, D24, D26. -/
def Obligations.ResetStateFollowsTheTable : Prop :=
  State.reset.readReg 0#5 = 0#32 ∧ State.reset.pc = 0x100#32 ∧ (∀ a : Nat, readByte State.reset.mem a = 0#8) ∧
    State.reset.halted = false ∧ State.reset.params.memSize = 524288 ∧ State.reset.params.resetAddr = 0x100#32 ∧
    State.reset.params.periphEnabled = false ∧ State.reset.params.semihostEnabled = false ∧
    State.reset.params.branchImmExec = .subAt11

/-- Power-on with any parameters, `initGPR` and image: register r holds its `initGPR` value, the pc is resetAddr,
byte a of Memory is byte a of the image for a < min(L, memSize) and 0 otherwise, the image beyond memSize is dropped,
and the block is not halted (R33, R280, R281). It rests on the spec's decisions D2, D23, D26, D36. -/
def Obligations.PowerOnLoadsTheImage : Prop :=
  ∀ (p : Params) (gpr : Vector Word 31) (image : List Byte) (input : List (List Byte)) (reorder : Bool),
    let s := startOfRun p gpr image input reorder
    (∀ (r : Nat) (h : r < 31), s.readReg (BitVec.ofNat 5 (r + 1)) = gpr[r]) ∧ s.readReg 0#5 = 0#32 ∧
    s.pc = p.resetAddr ∧ s.halted = false ∧ s.params = p ∧
    (∀ a : Nat, a < min image.length p.memSize → readByte s.mem a = image.getD a 0#8) ∧
    (∀ a : Nat, min image.length p.memSize ≤ a → readByte s.mem a = 0#8) ∧
    (p.legal → s.Inv)

/-- The invariant holds after reset. -/
def Obligations.ResetMeetsTheInvariant : Prop := State.reset.Inv ∧ State.reset.pcEven

/-- From every state that meets the invariant (legal parameters, Memory canonical, no byte outside Mem[0..memSize-1])
a step that completes gives one that meets it, and so does the state that an AddressFault leaves (R40, R252, R283).
It rests on the spec's decisions D16, D22, D24. -/
def Obligations.StepKeepsTheInvariant : Prop :=
  ∀ s : State, s.Inv →
    (∀ t, step s = .next t → t.Inv) ∧
    (∀ info left, step s = .fault (.addressFault info left) → left.Inv)

/-- Bit 0 of the pc stays 0 in every step that completes, and in the state that an AddressFault leaves, from which
the host goes on: offsets of BRANCH and JAL are even, JALR clears bit 0, and a semihosting fault comes after pc +
4 (derived from R83, R85, R87, R168, R252). It rests on the spec's decisions D3, D9, D16, D22. -/
def Obligations.PcStaysEven : Prop :=
  ∀ s : State, s.pcEven →
    (∀ t, step s = .next t → t.pcEven) ∧
    (∀ info left, step s = .fault (.addressFault info left) → left.pcEven)

/-- "The block never reads them back": what was emitted, reported or traced before has no effect on a step, which
does the same to the block and to console-in and ends the same way (R32, R268). It rests on the spec's decisions D21,
D22. -/
def Obligations.SentOutputIsNeverReadBack : Prop :=
  ∀ s t : State, SameBlock s t → SameOutcome (step s) (step t)

/-! ## The host -/

/-- On an AddressFault the controller reports it and switches from Running to Stepping, or stays in Stepping if a `step`
command ran the step; the run does not end; the block is as the fault left it (R259, R274). -/
def Obligations.AddressFaultSwitchesToStepping : Prop :=
  ∀ (σ : Session) (info : AddressFault) (left : State), σ.ended = none →
    step σ.machine = .fault (.addressFault info left) →
    (σ.mode = .running →
      σ.turn = { σ with machine := left, mode := .stepping, printed := σ.printed ++ [.fault info] }) ∧
    (∀ rest, σ.mode = .stepping → σ.commands = ['s', 't', 'e', 'p'] :: rest →
      σ.turn = { σ with machine := left, commands := rest, printed := σ.printed ++ [.fault info] })

/-- After a fetch, load or store fault a `step` command faults again identically; `reset` sets the pc to resetAddr
and changes nothing else of the block (R260, R267, R282). It rests on the spec's decisions D16, D25. -/
def Obligations.FaultingStepRepeatsUntilReset : Prop :=
  ∀ (σ : Session) (info : AddressFault) (left : State) (rest : List (List Char)), σ.ended = none →
    σ.mode = .running → step σ.machine = .fault (.addressFault info left) → info.kind ≠ .semihost →
    (σ.commands = ['s', 't', 'e', 'p'] :: rest →
      σ.turn.turn = { σ with
        mode := .stepping, commands := rest, printed := σ.printed ++ [.fault info, .fault info] }) ∧
    (σ.commands = ['r', 'e', 's', 'e', 't'] :: rest →
      σ.turn.turn = { σ with
        machine := { σ.machine with pc := σ.machine.params.resetAddr }
        mode := .stepping, commands := rest, printed := σ.printed ++ [.fault info] })

/-- A run ends in exactly two ways: a step whose outcome is Break, after which `halted` is set and the trace ends
with the Break marker, or the `exit` command read in Stepping (R274). It rests on the spec's decisions D26, D40. -/
def Obligations.RunEndsByBreakOrExit : Prop :=
  ∀ (σ : Session) (e : RunEnd), σ.ended = none → σ.turn.ended = some e →
    (e = .breakReached ∧ σ.turn.machine.halted = true ∧
      ∃ before, σ.turn.finalTrace = before ++ [.breakMark]) ∨
    (e = .exited ∧ σ.mode = .stepping ∧ σ.turn.machine = σ.machine ∧
      ∃ rest, σ.commands = ['e', 'x', 'i', 't'] :: rest)

/-- The memory dump reads COUNT single bytes from ADDRESS and stops at the first byte out of bounds, which it
reports: memSize for a dump that runs out of Memory, ADDRESS itself where ADDRESS lies above memSize and COUNT is
not 0 (R272). It rests on the spec's decision D39. -/
def Obligations.DumpStopsAtTheFirstByteOutOfBounds : Prop :=
  ∀ (s : State) (n a : Nat),
    (a + n ≤ s.params.memSize → dumpBytes s n a = ((List.range n).map fun k => readByte s.mem (a + k), none)) ∧
    (s.params.memSize < a + n → a ≤ s.params.memSize →
      dumpBytes s n a = ((List.range (s.params.memSize - a)).map fun k => readByte s.mem (a + k),
        some s.params.memSize)) ∧
    (s.params.memSize < a → dumpBytes s n a = ([], if n = 0 then none else some a))

/-- What each command line does at the prompt, in Stepping: `step` runs one instruction and stays in Stepping;
`continue` moves to Running; `exit` ends the run; `reset` sets the pc alone; `x COUNT/ADDRESS`, for every COUNT in
decimal digits and every ADDRESS in hexadecimal digits, with and without `0x`, dumps; every other line is ignored
(R267, R272). It rests on the spec's decisions D25, D39, D40. The one space after the x, and that the letters of
ADDRESS may be of either case, are the model's choice (log 14). -/
def Obligations.CommandsChangeOnlyWhatTheyName : Prop :=
  ∀ (σ : Session) (line : List Char) (rest : List (List Char)), σ.ended = none → σ.mode = .stepping →
    σ.commands = line :: rest →
    (line = ['s', 't', 'e', 'p'] → ∀ t, step σ.machine = .next t →
      σ.turn.machine = t ∧ σ.turn.mode = .stepping ∧ σ.turn.commands = rest) ∧
    (line = ['c', 'o', 'n', 't', 'i', 'n', 'u', 'e'] → σ.turn = { σ with mode := .running, commands := rest }) ∧
    (line = ['e', 'x', 'i', 't'] → σ.turn = { σ with ended := some .exited, commands := rest }) ∧
    (line = ['r', 'e', 's', 'e', 't'] → σ.turn = { σ with
      machine := { σ.machine with pc := σ.machine.params.resetAddr }, commands := rest }) ∧
    (∀ (n a j k : Nat) (count digits : List Char),
      count = List.replicate j '0' ++ Nat.toDigits 10 n →
      digits.map Char.toLower = List.replicate k '0' ++ Nat.toDigits 16 a →
      line = 'x' :: ' ' :: (count ++ '/' :: digits) ∨ line = 'x' :: ' ' :: (count ++ '/' :: '0' :: 'x' :: digits) →
      σ.turn = { σ with commands := rest, printed := σ.printed ++ dumpPrinted (dumpBytes σ.machine n a) }) ∧
    (line ∉ [['s', 't', 'e', 'p'], ['c', 'o', 'n', 't', 'i', 'n', 'u', 'e'], ['e', 'x', 'i', 't'],
        ['r', 'e', 's', 'e', 't']] → ¬ IsDumpLine line →
      σ.turn = { σ with commands := rest })

/-! ## Display -/

/-- `classify_opcode` maps "the seven-bit opcode" to its format and reads nothing else (30_encoding R104). It rests
on the spec's decision D29. -/
def Obligations.ClassifyOpcodeReadsTheOpcode : Prop :=
  ∀ w : Word,
    (classifyOpcode w = .I ↔ w.extractLsb' 0 7 ∈ [0x03#7, 0x13#7, 0x67#7, 0x73#7]) ∧
    (classifyOpcode w = .S ↔ w.extractLsb' 0 7 = 0x23#7) ∧
    (classifyOpcode w = .B ↔ w.extractLsb' 0 7 = 0x63#7) ∧
    (classifyOpcode w = .U ↔ w.extractLsb' 0 7 ∈ [0x37#7, 0x17#7]) ∧
    (classifyOpcode w = .J ↔ w.extractLsb' 0 7 = 0x6F#7) ∧
    (classifyOpcode w = .R ↔ w.extractLsb' 0 7 = 0x33#7)
end

