-- ==== Sys2Proof/Laws/State.lean ====
section
/-! SUPPORT. One lemma per field per update of State, by rfl, and what the register accessors say of each other. -/

namespace Sys2Proof.Machine

@[simp] theorem State.setPc_regs (s : State) (t : Word) : (s.setPc t).regs = s.regs := rfl
@[simp] theorem State.setPc_pc (s : State) (t : Word) : (s.setPc t).pc = t := rfl
@[simp] theorem State.setPc_mem (s : State) (t : Word) : (s.setPc t).mem = s.mem := rfl
@[simp] theorem State.setPc_halted (s : State) (t : Word) : (s.setPc t).halted = s.halted := rfl
@[simp] theorem State.setPc_params (s : State) (t : Word) : (s.setPc t).params = s.params := rfl
@[simp] theorem State.setPc_port (s : State) (t : Word) : (s.setPc t).port = s.port := rfl
@[simp] theorem State.readReg_setPc (s : State) (t : Word) (q : RegIdx) : (s.setPc t).readReg q = s.readReg q := rfl

@[simp] theorem State.halt_regs (s : State) : (s.halt).regs = s.regs := rfl
@[simp] theorem State.halt_pc (s : State) : (s.halt).pc = s.pc := rfl
@[simp] theorem State.halt_mem (s : State) : (s.halt).mem = s.mem := rfl
@[simp] theorem State.halt_halted (s : State) : (s.halt).halted = true := rfl
@[simp] theorem State.halt_params (s : State) : (s.halt).params = s.params := rfl
@[simp] theorem State.halt_port (s : State) : (s.halt).port = s.port := rfl
@[simp] theorem State.readReg_halt (s : State) (q : RegIdx) : (s.halt).readReg q = s.readReg q := rfl

@[simp] theorem State.emitOut_regs (s : State) (b : Byte) : (s.emitOut b).regs = s.regs := rfl
@[simp] theorem State.emitOut_pc (s : State) (b : Byte) : (s.emitOut b).pc = s.pc := rfl
@[simp] theorem State.emitOut_mem (s : State) (b : Byte) : (s.emitOut b).mem = s.mem := rfl
@[simp] theorem State.emitOut_halted (s : State) (b : Byte) : (s.emitOut b).halted = s.halted := rfl
@[simp] theorem State.emitOut_params (s : State) (b : Byte) : (s.emitOut b).params = s.params := rfl
@[simp] theorem State.emitOut_port (s : State) (b : Byte) : (s.emitOut b).port = { s.port with out := s.port.out ++ [b] } := rfl
@[simp] theorem State.readReg_emitOut (s : State) (b : Byte) (q : RegIdx) : (s.emitOut b).readReg q = s.readReg q := rfl

@[simp] theorem State.emitErr_regs (s : State) (b : Byte) : (s.emitErr b).regs = s.regs := rfl
@[simp] theorem State.emitErr_pc (s : State) (b : Byte) : (s.emitErr b).pc = s.pc := rfl
@[simp] theorem State.emitErr_mem (s : State) (b : Byte) : (s.emitErr b).mem = s.mem := rfl
@[simp] theorem State.emitErr_halted (s : State) (b : Byte) : (s.emitErr b).halted = s.halted := rfl
@[simp] theorem State.emitErr_params (s : State) (b : Byte) : (s.emitErr b).params = s.params := rfl
@[simp] theorem State.emitErr_port (s : State) (b : Byte) : (s.emitErr b).port = { s.port with err := s.port.err ++ [b] } := rfl
@[simp] theorem State.readReg_emitErr (s : State) (b : Byte) (q : RegIdx) : (s.emitErr b).readReg q = s.readReg q := rfl

@[simp] theorem State.report_regs (s : State) (r : UnrecognizedReport) : (s.report r).regs = s.regs := rfl
@[simp] theorem State.report_pc (s : State) (r : UnrecognizedReport) : (s.report r).pc = s.pc := rfl
@[simp] theorem State.report_mem (s : State) (r : UnrecognizedReport) : (s.report r).mem = s.mem := rfl
@[simp] theorem State.report_halted (s : State) (r : UnrecognizedReport) : (s.report r).halted = s.halted := rfl
@[simp] theorem State.report_params (s : State) (r : UnrecognizedReport) : (s.report r).params = s.params := rfl
@[simp] theorem State.report_port (s : State) (r : UnrecognizedReport) : (s.report r).port = { s.port with reports := s.port.reports ++ [r] } := rfl
@[simp] theorem State.readReg_report (s : State) (r : UnrecognizedReport) (q : RegIdx) : (s.report r).readReg q = s.readReg q := rfl

@[simp] theorem State.result_regs (s : State) (r : StepResult) : (s.result r).regs = s.regs := rfl
@[simp] theorem State.result_pc (s : State) (r : StepResult) : (s.result r).pc = s.pc := rfl
@[simp] theorem State.result_mem (s : State) (r : StepResult) : (s.result r).mem = s.mem := rfl
@[simp] theorem State.result_halted (s : State) (r : StepResult) : (s.result r).halted = s.halted := rfl
@[simp] theorem State.result_params (s : State) (r : StepResult) : (s.result r).params = s.params := rfl
@[simp] theorem State.result_port (s : State) (r : StepResult) : (s.result r).port = { s.port with trace := s.port.trace ++ [r] } := rfl
@[simp] theorem State.readReg_result (s : State) (r : StepResult) (q : RegIdx) : (s.result r).readReg q = s.readReg q := rfl

@[simp] theorem State.retire_regs (s : State) (npc : Word) (r : StepResult) : (s.retire npc r).regs = s.regs := rfl
@[simp] theorem State.retire_pc (s : State) (npc : Word) (r : StepResult) : (s.retire npc r).pc = npc := rfl
@[simp] theorem State.retire_mem (s : State) (npc : Word) (r : StepResult) : (s.retire npc r).mem = s.mem := rfl
@[simp] theorem State.retire_halted (s : State) (npc : Word) (r : StepResult) : (s.retire npc r).halted = s.halted := rfl
@[simp] theorem State.retire_params (s : State) (npc : Word) (r : StepResult) : (s.retire npc r).params = s.params := rfl
@[simp] theorem State.retire_port (s : State) (npc : Word) (r : StepResult) : (s.retire npc r).port = { s.port with trace := s.port.trace ++ [r] } := rfl
@[simp] theorem State.readReg_retire (s : State) (npc : Word) (r : StepResult) (q : RegIdx) : (s.retire npc r).readReg q = s.readReg q := rfl

@[simp] theorem State.writeReg_pc (s : State) (r : RegIdx) (v : Word) : (s.writeReg r v).pc = s.pc := by
  unfold State.writeReg; split <;> rfl
@[simp] theorem State.writeReg_mem (s : State) (r : RegIdx) (v : Word) : (s.writeReg r v).mem = s.mem := by
  unfold State.writeReg; split <;> rfl
@[simp] theorem State.writeReg_halted (s : State) (r : RegIdx) (v : Word) : (s.writeReg r v).halted = s.halted := by
  unfold State.writeReg; split <;> rfl
@[simp] theorem State.writeReg_params (s : State) (r : RegIdx) (v : Word) : (s.writeReg r v).params = s.params := by
  unfold State.writeReg; split <;> rfl
@[simp] theorem State.writeReg_port (s : State) (r : RegIdx) (v : Word) : (s.writeReg r v).port = s.port := by
  unfold State.writeReg; split <;> rfl

/-- x0 reads as zero in every state (R21). -/
@[simp] theorem State.readReg_zero (s : State) : s.readReg 0#5 = 0#32 := by simp [State.readReg]

/-- A write to x0 is discarded (R21). -/
@[simp] theorem State.writeReg_zero (s : State) (v : Word) : s.writeReg 0#5 v = s := by simp [State.writeReg]

theorem regIdx_toNat_pos {r : RegIdx} (h : ¬ r = 0#5) : 0 < r.toNat := by
  rcases Nat.eq_zero_or_pos r.toNat with e | e
  · exact absurd (BitVec.eq_of_toNat_eq e) h
  · exact e

/-- Reading a register after a write: the written value for the same register, x0 excepted, the old one otherwise. -/
theorem State.readReg_writeReg (s : State) (r : RegIdx) (v : Word) (q : RegIdx) :
    (s.writeReg r v).readReg q = if q = 0#5 then 0#32 else if q = r then v else s.readReg q := by
  by_cases hq : q = 0#5
  · subst hq; simp
  by_cases hr : r = 0#5
  · subst hr; simp [hq]
  rw [if_neg hq]
  simp only [State.readReg, State.writeReg, dif_neg hq, dif_neg hr]
  by_cases e : q = r
  · subst e; simp
  · have hne : r.toNat - 1 ≠ q.toNat - 1 := by
      intro h
      have h1 := regIdx_toNat_pos hq
      have h2 := regIdx_toNat_pos hr
      exact e (BitVec.eq_of_toNat_eq (by omega))
    rw [if_neg e, Vector.getElem_set, if_neg hne]

/-- A state of the same registers reads them alike. -/
theorem State.readReg_congr {s t : State} (h : s.regs = t.regs) (q : RegIdx) : s.readReg q = t.readReg q := by
  unfold State.readReg; simp [h]

/-- Two states in which every register reads alike hold the same registers. -/
theorem State.regs_ext {s t : State} (h : ∀ q, s.readReg q = t.readReg q) : s.regs = t.regs := by
  apply Vector.ext
  intro i hi
  have h1 := h (BitVec.ofNat 5 (i + 1))
  have hn : (BitVec.ofNat 5 (i + 1)).toNat = i + 1 := by simp; omega
  have hz : ¬ BitVec.ofNat 5 (i + 1) = 0#5 := by
    intro e; have := congrArg BitVec.toNat e; rw [hn] at this; simp at this
  unfold State.readReg at h1
  simp only [hz, dite_false, hn] at h1
  simpa using h1

/-- The pc after an instruction, as a number (10_state R25). -/
theorem State.nextPc_eq (s : State) : s.nextPc = BitVec.ofNat 32 (s.pc.toNat + 4) := by
  apply BitVec.eq_of_toNat_eq
  simp [State.nextPc]

/-- The pc after an instruction at an even address is even. -/
theorem State.nextPc_even {s : State} (h : s.pc.getLsbD 0 = false) : s.nextPc.getLsbD 0 = false := by
  rw [← BitVec.testBit_toNat, Nat.testBit_zero, decide_eq_false_iff_not] at h ⊢
  rw [State.nextPc_eq, BitVec.toNat_ofNat]
  omega

end Sys2Proof.Machine
end

