-- ==== Sys2Proof/Laws/Memory.lean ====
section
/-! SUPPORT. Memory: reading after writing one byte and several, the canonical form and the bound that every
memory operation keeps, and the image load. -/

namespace Sys2Proof.Machine

/-- Reading one byte after writing one (R42, R43). -/
theorem readByte_writeByte (m : Memory) (hw : m.wf) (a : Nat) (v : Byte) (x : Nat) :
    readByte (writeByte m a v) x = if x = a then v else readByte m x := by
  induction m with
  | nil =>
    unfold writeByte
    by_cases hv : v = unlistedByte
    · subst hv; simp [readByte]
    · simp only [if_neg hv, readByte, eq_comm]
  | cons c m ih =>
    obtain ⟨k, b⟩ := c
    obtain ⟨hs, hz⟩ := hw
    rw [List.pairwise_cons] at hs
    have hm : Memory.wf m := ⟨hs.2, fun c hc => hz c (List.mem_cons_of_mem _ hc)⟩
    have hlow : ∀ y, y ≤ k → readByte m y = unlistedByte := by
      intro y hy
      have hk : ∀ c ∈ m, y < c.1 := fun c hc => Nat.lt_of_le_of_lt hy (hs.1 c hc)
      clear ih hm hs hz
      induction m with
      | nil => rfl
      | cons d m ih2 =>
        obtain ⟨j, e⟩ := d
        have := hk (j, e) (by simp)
        simp only [readByte]
        rw [if_neg (by simp only at this; omega)]
        exact ih2 (fun c hc => hk c (List.mem_cons_of_mem _ hc))
    unfold writeByte
    by_cases h1 : a < k
    · by_cases hv : v = unlistedByte
      · subst hv
        simp only [h1, if_true]
        by_cases hx : x = a
        · subst hx
          simp only [if_true, readByte]
          rw [if_neg (by omega), hlow x (by omega)]
        · simp [hx]
      · simp only [h1, if_true, hv, if_false, readByte, eq_comm (a := a)]
    · by_cases h2 : a = k
      · subst h2
        by_cases hv : v = unlistedByte
        · subst hv
          simp only [h1, if_false, if_true]
          by_cases hx : x = a
          · subst hx; simp [hlow x (by omega)]
          · simp [readByte, hx, eq_comm (a := a)]
        · simp only [h1, if_false, if_true, hv, readByte, eq_comm (a := a)]
          by_cases hx : x = a <;> simp [hx]
      · simp only [h1, h2, if_false, readByte, ih hm]
        by_cases hx : k = x
        · subst hx
          rw [if_pos rfl, if_neg (fun e : k = a => h2 e.symm), if_pos rfl]
        · simp [hx]

/-- The addresses a write lists are the old ones and its own. -/
theorem mem_writeByte {m : Memory} {a : Nat} {v : Byte} {c : Host.Cell} (h : c ∈ writeByte m a v) :
    c ∈ m ∨ (c = (a, v) ∧ v ≠ unlistedByte) := by
  induction m with
  | nil =>
    unfold writeByte at h
    by_cases hv : v = unlistedByte
    · simp [hv] at h
    · simp [hv] at h; exact .inr ⟨h, hv⟩
  | cons d m ih =>
    obtain ⟨k, b⟩ := d
    unfold writeByte at h
    by_cases hv : v = unlistedByte
    · simp only [hv, if_true] at h
      split at h
      · exact .inl h
      · split at h
        · exact .inl (List.mem_cons_of_mem _ h)
        · rcases List.mem_cons.1 h with e | e
          · exact .inl (e ▸ List.mem_cons_self)
          · rcases ih (hv ▸ e) with e | ⟨-, e⟩
            · exact .inl (List.mem_cons_of_mem _ e)
            · exact absurd hv e
    · simp only [hv, if_false] at h
      split at h
      · rcases List.mem_cons.1 h with e | e
        · exact .inr ⟨e, hv⟩
        · exact .inl e
      · split at h
        · rcases List.mem_cons.1 h with e | e
          · exact .inr ⟨e, hv⟩
          · exact .inl (List.mem_cons_of_mem _ e)
        · rcases List.mem_cons.1 h with e | e
          · exact .inl (e ▸ List.mem_cons_self)
          · rcases ih e with e | e
            · exact .inl (List.mem_cons_of_mem _ e)
            · exact .inr e

/-- A write keeps the canonical form. -/
theorem writeByte_wf {m : Memory} (hw : m.wf) (a : Nat) (v : Byte) : (writeByte m a v).wf := by
  induction m with
  | nil =>
    unfold writeByte
    by_cases hv : v = unlistedByte
    · simp [hv, Memory.wf]
    · simp [hv, Memory.wf]
  | cons d m ih =>
    obtain ⟨k, b⟩ := d
    obtain ⟨hs, hz⟩ := hw
    have hs' := hs
    rw [List.pairwise_cons] at hs
    have hm : Memory.wf m := ⟨hs.2, fun c hc => hz c (List.mem_cons_of_mem _ hc)⟩
    have hz' := hz
    rw [List.forall_mem_cons] at hz
    unfold writeByte
    by_cases h1 : a < k
    · by_cases hv : v = unlistedByte
      · simp only [h1, hv, if_true]; exact ⟨hs', hz'⟩
      · simp only [h1, hv, if_true, if_false]
        refine ⟨List.pairwise_cons.2 ⟨?_, hs'⟩, ?_⟩
        · intro c hc
          rcases List.mem_cons.1 hc with e | e
          · subst e; exact h1
          · exact Nat.lt_trans h1 (hs.1 c e)
        · intro c hc
          rcases List.mem_cons.1 hc with e | e
          · subst e; exact hv
          · exact hz' c e
    · by_cases h2 : a = k
      · subst h2
        by_cases hv : v = unlistedByte
        · simp only [h1, hv, if_true, if_false]; exact hm
        · simp only [h1, hv, if_true, if_false]
          refine ⟨List.pairwise_cons.2 ⟨hs.1, hs.2⟩, ?_⟩
          intro c hc
          rcases List.mem_cons.1 hc with e | e
          · subst e; exact hv
          · exact hz.2 c e
      · simp only [h1, h2, if_false]
        have hi := ih hm
        refine ⟨List.pairwise_cons.2 ⟨?_, hi.1⟩, ?_⟩
        · intro c hc
          rcases mem_writeByte hc with e | ⟨e, -⟩
          · exact hs.1 c e
          · subst e; show k < a; omega
        · intro c hc
          rcases List.mem_cons.1 hc with e | e
          · subst e; exact hz.1
          · exact hi.2 c e

theorem writeByte_within {m : Memory} {size a : Nat} (hw : m.within size) (ha : a < size) (v : Byte) :
    (writeByte m a v).within size := by
  intro c hc
  rcases mem_writeByte hc with e | ⟨e, -⟩
  · exact hw c e
  · subst e; exact ha

theorem writeBytes_wf {m : Memory} (hw : m.wf) (a n v : Nat) : (writeBytes m a n v).wf := by
  induction n generalizing m a v with
  | zero => exact hw
  | succ n ih => exact ih (writeByte_wf hw _ _) _ _

theorem writeBytes_within {m : Memory} {size : Nat} (hw : m.within size) (a n v : Nat) (ha : a + n ≤ size) :
    (writeBytes m a n v).within size := by
  induction n generalizing m a v with
  | zero => exact hw
  | succ n ih => exact ih (writeByte_within hw (by omega) _) _ _ (by omega)

/-- Reading one byte after storing n: byte x - a of the value inside the span, the old byte outside (R43, R44). -/
theorem readByte_writeBytes (m : Memory) (hw : m.wf) (a n v x : Nat) :
    readByte (writeBytes m a n v) x =
      if a ≤ x ∧ x < a + n then BitVec.ofNat 8 (v / 256 ^ (x - a)) else readByte m x := by
  induction n generalizing m a v with
  | zero => simp [writeBytes, show ¬ (a ≤ x ∧ x < a) by omega]
  | succ n ih =>
    unfold writeBytes
    rw [ih _ (writeByte_wf hw _ _), readByte_writeByte _ hw]
    by_cases h1 : x = a
    · subst h1
      simp [show ¬ (x + 1 ≤ x) by omega]
    · by_cases h2 : a + 1 ≤ x ∧ x < a + 1 + n
      · rw [if_pos h2, if_pos (by omega)]
        have : x - a = (x - (a + 1)) + 1 := by omega
        rw [this, pow_succ, Nat.mul_comm, Nat.div_div_eq_div_mul]
      · rw [if_neg h2, if_neg h1, if_neg (by omega)]

/-- The little-endian value depends on the bytes of the span alone. -/
theorem readBytes_congr {m m' : Memory} {a n : Nat} (h : ∀ k, k < n → readByte m (a + k) = readByte m' (a + k)) :
    readBytes m a n = readBytes m' a n := by
  induction n generalizing a with
  | zero => rfl
  | succ n ih =>
    have h0 := h 0 (by omega)
    simp only [Nat.add_zero] at h0
    simp only [readBytes, h0]
    rw [ih (fun k hk => by have := h (k + 1) (by omega); rwa [show a + (k + 1) = a + 1 + k by omega] at this)]

theorem readBytes_lt (m : Memory) (a n : Nat) : readBytes m a n < 256 ^ n := by
  induction n generalizing a with
  | zero => simp [readBytes]
  | succ n ih =>
    have h1 := ih (a + 1)
    have h2 := (readByte m a).isLt
    simp only [readBytes, pow_succ]
    omega

/-- Reading four bytes gives the word they spell (R42, R44). -/
theorem readBytes_four (m : Memory) (a : Nat) : BitVec.ofNat 32 (readBytes m a 4) = wordAt m a := by
  apply BitVec.eq_of_toNat_eq
  have h0 := (readByte m a).isLt
  have h1 := (readByte m (a + 1)).isLt
  have h2 := (readByte m (a + 2)).isLt
  have h3 := (readByte m (a + 3)).isLt
  simp only [wordAt, BitVec.toNat_append, BitVec.toNat_ofNat, readBytes, Nat.shiftLeft_eq]
  rw [← Nat.shiftLeft_eq, ← Nat.shiftLeft_eq, ← Nat.shiftLeft_eq]
  rw [← Nat.shiftLeft_add_eq_or_of_lt h2, ← Nat.shiftLeft_add_eq_or_of_lt h1, ← Nat.shiftLeft_add_eq_or_of_lt h0]
  simp only [Nat.shiftLeft_eq, show a + 1 + 1 = a + 2 by omega, show a + 2 + 1 = a + 3 by omega]
  omega

/-- The byte at an address after the image load (R281). -/
theorem readByte_loadImageFrom (size a : Nat) (image : List Byte) (x : Nat) :
    readByte (loadImageFrom size a image) x =
      if a ≤ x ∧ x < size then image.getD (x - a) unlistedByte else unlistedByte := by
  induction image generalizing a with
  | nil => simp [loadImageFrom, readByte]
  | cons b image ih =>
    unfold loadImageFrom
    by_cases h : a < size
    · simp only [h, if_true]
      by_cases hb : b = unlistedByte
      · simp only [hb, if_true, ih]
        by_cases hx : x = a
        · subst hx; simp
        · by_cases h2 : a + 1 ≤ x ∧ x < size
          · rw [if_pos h2, if_pos (by omega), show x - a = (x - (a + 1)) + 1 by omega]; rfl
          · rw [if_neg h2, if_neg (by omega)]
      · simp only [hb, if_false, readByte, ih]
        by_cases hx : x = a
        · subst hx; simp [h]
        · rw [if_neg (fun e => hx e.symm)]
          by_cases h2 : a + 1 ≤ x ∧ x < size
          · rw [if_pos h2, if_pos (by omega), show x - a = (x - (a + 1)) + 1 by omega]; rfl
          · rw [if_neg h2, if_neg (by omega)]
    · simp [h, readByte, show ¬ (a ≤ x ∧ x < size) by omega]

theorem loadImageFrom_form (size a : Nat) (image : List Byte) :
    (loadImageFrom size a image).wf ∧ (loadImageFrom size a image).within size ∧
      ∀ c ∈ loadImageFrom size a image, a ≤ c.1 := by
  induction image generalizing a with
  | nil => simp [loadImageFrom, Memory.wf, Memory.within]
  | cons b image ih =>
    obtain ⟨⟨h1, h2⟩, h3, h4⟩ := ih (a + 1)
    unfold loadImageFrom
    by_cases h : a < size
    · by_cases hb : b = unlistedByte
      · simp only [h, hb, if_true]
        exact ⟨⟨h1, h2⟩, h3, fun c hc => Nat.le_of_succ_le (h4 c hc)⟩
      · simp only [h, hb, if_true, if_false]
        refine ⟨⟨List.pairwise_cons.2 ⟨fun c hc => h4 c hc, h1⟩, ?_⟩, ?_, ?_⟩
        · intro c hc; rcases List.mem_cons.1 hc with e | e
          · subst e; exact hb
          · exact h2 c e
        · intro c hc; rcases List.mem_cons.1 hc with e | e
          · subst e; exact h
          · exact h3 c e
        · intro c hc; rcases List.mem_cons.1 hc with e | e
          · subst e; exact Nat.le_refl _
          · exact Nat.le_of_succ_le (h4 c e)
    · simp [h, Memory.wf, Memory.within]

theorem readBytes_one (m : Memory) (a : Nat) : readBytes m a 1 = (readByte m a).toNat := by simp [readBytes]

/-- Reading back the bytes that were written gives the value, cut to their width (R42, R43). -/
theorem readBytes_writeBytes (m : Memory) (hw : m.wf) (a n v : Nat) :
    readBytes (writeBytes m a n v) a n = v % 256 ^ n := by
  have key : ∀ j, j ≤ n → readBytes (writeBytes m a n v) (a + (n - j)) j = v / 256 ^ (n - j) % 256 ^ j := by
    intro j hj
    induction j with
    | zero => simp [readBytes, Nat.mod_one]
    | succ j ih =>
      rw [readBytes, show a + (n - (j + 1)) + 1 = a + (n - j) by omega, ih (by omega), readByte_writeBytes _ hw,
        if_pos (by omega), show a + (n - (j + 1)) - a = n - (j + 1) by omega,
        show n - j = n - (j + 1) + 1 by omega, pow_succ, pow_succ, ← Nat.div_div_eq_div_mul]
      generalize v / 256 ^ (n - (j + 1)) = x
      rw [Nat.mul_comm (256 ^ j) 256, Nat.mod_mul]
      simp
  simpa using key n (Nat.le_refl _)

/-- Byte k of a word, as `wordAt` and as `writeBytes` lay it out (R44). -/
theorem wordAt_byte (m : Memory) (a k : Nat) (hk : k < 4) :
    (wordAt m a).extractLsb' (8 * k) 8 = readByte m (a + k) := by
  apply BitVec.eq_of_getLsbD_eq
  intro i hi
  simp only [wordAt, BitVec.getLsbD_extractLsb', BitVec.getLsbD_append, hi]
  interval_cases k <;> interval_cases i <;> simp

theorem byte_of_word (v : Word) (k : Nat) : BitVec.ofNat 8 (v.toNat / 256 ^ k) = v.extractLsb' (8 * k) 8 := by
  have e : (256 : Nat) ^ k = 2 ^ (8 * k) := by rw [Nat.pow_mul]
  apply BitVec.eq_of_toNat_eq
  simp [BitVec.extractLsb'_toNat, Nat.shiftRight_eq_div_pow, e]

/-- A word is its four bytes, the last one on top. -/
theorem word_of_bytes (w : Word) :
    w.extractLsb' 24 8 ++ w.extractLsb' 16 8 ++ w.extractLsb' 8 8 ++ w.extractLsb' 0 8 = w := by
  apply BitVec.eq_of_getLsbD_eq
  intro i hi
  simp only [BitVec.getLsbD_extractLsb', BitVec.getLsbD_append]
  interval_cases i <;> simp

theorem wordAt_toNat (m : Memory) (a : Nat) :
    (wordAt m a).toNat = (readByte m a).toNat + 2 ^ 8 * (readByte m (a + 1)).toNat +
      2 ^ 16 * (readByte m (a + 2)).toNat + 2 ^ 24 * (readByte m (a + 3)).toNat := by
  have e : (wordAt m a).toNat = readBytes m a 4 % 2 ^ 32 := by rw [← readBytes_four]; rfl
  rw [e]
  simp only [readBytes, show a + 1 + 1 = a + 2 from rfl, show a + 2 + 1 = a + 3 from rfl]
  have h0 := (readByte m a).isLt
  have h1 := (readByte m (a + 1)).isLt
  have h2 := (readByte m (a + 2)).isLt
  have h3 := (readByte m (a + 3)).isLt
  omega

/-- The word at an address where a word was just written is that word (R59). -/
theorem wordAt_writeBytes (m : Memory) (hw : m.wf) (a : Nat) (v : Word) :
    wordAt (writeBytes m a 4 v.toNat) a = v := by
  have h : ∀ k, k < 4 → readByte (writeBytes m a 4 v.toNat) (a + k) = v.extractLsb' (8 * k) 8 := by
    intro k hk
    simp [readByte_writeBytes _ hw, hk, byte_of_word]
  unfold wordAt
  rw [h 3 (by omega), h 2 (by omega), h 1 (by omega),
    show readByte (writeBytes m a 4 v.toNat) a = v.extractLsb' (8 * 0) 8 from h 0 (by omega)]
  exact word_of_bytes v

end Sys2Proof.Machine
end

