-- ==== Sys2Proof/Laws/Decode.lean ====
section
/-! SUPPORT. The decoder by opcode class: which opcode each class is (R79, R80), and what `decode` answers in each. -/

namespace Sys2Proof

theorem classOf_load {w : Word} : classOf w = .load ↔ opcodeOf w = opLoad := by
  constructor
  · intro h
    unfold classOf at h
    repeat' split at h
    all_goals first
      | assumption
      | cases h
  · intro h; simp [classOf, h]

theorem classOf_opImm {w : Word} : classOf w = .opImm ↔ opcodeOf w = opOpImm := by
  constructor
  · intro h
    unfold classOf at h
    repeat' split at h
    all_goals first
      | assumption
      | cases h
  · intro h; simp [classOf, h, opLoad, opOpImm]

theorem classOf_auipc {w : Word} : classOf w = .auipc ↔ opcodeOf w = opAuipc := by
  constructor
  · intro h
    unfold classOf at h
    repeat' split at h
    all_goals first
      | assumption
      | cases h
  · intro h; simp [classOf, h, opLoad, opOpImm, opAuipc]

theorem classOf_store {w : Word} : classOf w = .store ↔ opcodeOf w = opStore := by
  constructor
  · intro h
    unfold classOf at h
    repeat' split at h
    all_goals first
      | assumption
      | cases h
  · intro h; simp [classOf, h, opLoad, opOpImm, opAuipc, opStore]

theorem classOf_op {w : Word} : classOf w = .op ↔ opcodeOf w = opOp := by
  constructor
  · intro h
    unfold classOf at h
    repeat' split at h
    all_goals first
      | assumption
      | cases h
  · intro h; simp [classOf, h, opLoad, opOpImm, opAuipc, opStore, opOp]

theorem classOf_lui {w : Word} : classOf w = .lui ↔ opcodeOf w = opLui := by
  constructor
  · intro h
    unfold classOf at h
    repeat' split at h
    all_goals first
      | assumption
      | cases h
  · intro h; simp [classOf, h, opLoad, opOpImm, opAuipc, opStore, opOp, opLui]

theorem classOf_branch {w : Word} : classOf w = .branch ↔ opcodeOf w = opBranch := by
  constructor
  · intro h
    unfold classOf at h
    repeat' split at h
    all_goals first
      | assumption
      | cases h
  · intro h; simp [classOf, h, opLoad, opOpImm, opAuipc, opStore, opOp, opLui, opBranch]

theorem classOf_jalr {w : Word} : classOf w = .jalr ↔ opcodeOf w = opJalr := by
  constructor
  · intro h
    unfold classOf at h
    repeat' split at h
    all_goals first
      | assumption
      | cases h
  · intro h; simp [classOf, h, opLoad, opOpImm, opAuipc, opStore, opOp, opLui, opBranch, opJalr]

theorem classOf_jal {w : Word} : classOf w = .jal ↔ opcodeOf w = opJal := by
  constructor
  · intro h
    unfold classOf at h
    repeat' split at h
    all_goals first
      | assumption
      | cases h
  · intro h; simp [classOf, h, opLoad, opOpImm, opAuipc, opStore, opOp, opLui, opBranch, opJalr, opJal]

theorem classOf_system {w : Word} : classOf w = .system ↔ opcodeOf w = opSystem := by
  constructor
  · intro h
    unfold classOf at h
    repeat' split at h
    all_goals first
      | assumption
      | cases h
  · intro h; simp [classOf, h, opLoad, opOpImm, opAuipc, opStore, opOp, opLui, opBranch, opJalr, opJal, opSystem]

theorem decode_of_load {w : Word} (h : opcodeOf w = opLoad) : decode w = .ok (decodeLoad w) := by
  unfold decode; rw [classOf_load.2 h]

theorem decode_of_opImm {w : Word} (h : opcodeOf w = opOpImm) : decode w = decodeOpImm w := by
  unfold decode; rw [classOf_opImm.2 h]

theorem decode_of_auipc {w : Word} (h : opcodeOf w = opAuipc) : decode w = .ok (.auipc (rdOf w) (immUOf w)) := by
  unfold decode; rw [classOf_auipc.2 h]

theorem decode_of_store {w : Word} (h : opcodeOf w = opStore) : decode w = .ok (decodeStore w) := by
  unfold decode; rw [classOf_store.2 h]

theorem decode_of_op {w : Word} (h : opcodeOf w = opOp) : decode w = decodeOp w := by
  unfold decode; rw [classOf_op.2 h]

theorem decode_of_lui {w : Word} (h : opcodeOf w = opLui) : decode w = .ok (.lui (rdOf w) (immUOf w)) := by
  unfold decode; rw [classOf_lui.2 h]

theorem decode_of_branch {w : Word} (h : opcodeOf w = opBranch) : decode w = .ok (decodeBranch w) := by
  unfold decode; rw [classOf_branch.2 h]

theorem decode_of_jalr {w : Word} (h : opcodeOf w = opJalr) : decode w = .ok (decodeJalr w) := by
  unfold decode; rw [classOf_jalr.2 h]

theorem decode_of_jal {w : Word} (h : opcodeOf w = opJal) : decode w = .ok (.jal (rdOf w) (immJOf w)) := by
  unfold decode; rw [classOf_jal.2 h]

theorem decode_of_system {w : Word} (h : opcodeOf w = opSystem) : decode w = decodeSystem w := by
  unfold decode; rw [classOf_system.2 h]

/-- A class is UNKNOWN if and only if the opcode is none of the ten (R80). -/
theorem classOf_unknown {w : Word} : classOf w = .unknown ↔
    opcodeOf w ∉ [opLoad, opOpImm, opAuipc, opStore, opOp, opLui, opBranch, opJalr, opJal, opSystem] := by
  constructor
  · intro h
    unfold classOf at h
    repeat' split at h
    all_goals simp_all
  · intro h
    simp only [List.mem_cons, List.not_mem_nil, or_false, not_or] at h
    simp [classOf, h]

/-- A word is put together again from its own fields, in each format, once its fixed fields are known. -/
theorem encR_of {w : Word} {f7 : BitVec 7} {f3 : BitVec 3} {op : BitVec 7} (h7 : funct7Of w = f7) (h3 : funct3Of w = f3)
    (ho : opcodeOf w = op) : encR f7 (rs2Of w) (rs1Of w) f3 (rdOf w) op = w := by subst h7 h3 ho; exact encR_fields w

theorem encI_of {w : Word} {f3 : BitVec 3} {op : BitVec 7} (h3 : funct3Of w = f3) (ho : opcodeOf w = op) :
    encI (immIOf w) (rs1Of w) f3 (rdOf w) op = w := by subst h3 ho; exact encI_fields w

theorem encS_of {w : Word} {f3 : BitVec 3} {op : BitVec 7} (h3 : funct3Of w = f3) (ho : opcodeOf w = op) :
    encS (immSOf w) (rs2Of w) (rs1Of w) f3 op = w := by subst h3 ho; exact encS_fields w

theorem encB_of {w : Word} {f3 : BitVec 3} {op : BitVec 7} (h3 : funct3Of w = f3) (ho : opcodeOf w = op) :
    encB (immBOf w) (rs2Of w) (rs1Of w) f3 op = w := by subst h3 ho; exact encB_fields w

/-- The last of the eight funct3 values. -/
theorem funct3_seven {f : BitVec 3} (h0 : ¬ f = 0#3) (h1 : ¬ f = 1#3) (h2 : ¬ f = 2#3)
    (h3 : ¬ f = 3#3) (h4 : ¬ f = 4#3) (h5 : ¬ f = 5#3) (h6 : ¬ f = 6#3) : f = 7#3 := by
  have := f.isLt
  apply BitVec.eq_of_toNat_eq
  simp only [← BitVec.toNat_inj, BitVec.toNat_ofNat] at *
  omega

/-- The decoder gives a BRANCH an even offset. -/
theorem even_immB (w : Word) : evenOffset (immBOf w) = true := by
  simp only [evenOffset, immBOf, BitVec.getLsbD_append]; rfl

/-- The decoder gives JAL an even offset. -/
theorem even_immJ (w : Word) : evenOffset (immJOf w) = true := by
  simp only [evenOffset, immJOf, BitVec.getLsbD_append]; rfl

/-- What a class decodes to is well-formed and has the word as its encoding. -/
theorem encode_decodeLoad {w : Word} (ho : opcodeOf w = opLoad) : (decodeLoad w).wellFormed = true ∧ encode (decodeLoad w) = w := by
  unfold decodeLoad
  repeat' split
  all_goals refine ⟨rfl, ?_⟩
  all_goals first | (rename_i h; exact encI_of h ho) | exact encI_of (funct3_seven ‹_› ‹_› ‹_› ‹_› ‹_› ‹_› ‹_›) ho

theorem encode_decodeJalr {w : Word} (ho : opcodeOf w = opJalr) : (decodeJalr w).wellFormed = true ∧ encode (decodeJalr w) = w := by
  unfold decodeJalr
  repeat' split
  all_goals refine ⟨rfl, ?_⟩
  all_goals first | (rename_i h; exact encI_of h ho) | exact encI_of (funct3_seven ‹_› ‹_› ‹_› ‹_› ‹_› ‹_› ‹_›) ho

theorem encode_decodeStore {w : Word} (ho : opcodeOf w = opStore) : (decodeStore w).wellFormed = true ∧ encode (decodeStore w) = w := by
  unfold decodeStore
  repeat' split
  all_goals refine ⟨rfl, ?_⟩
  all_goals first | (rename_i h; exact encS_of h ho) | exact encS_of (funct3_seven ‹_› ‹_› ‹_› ‹_› ‹_› ‹_› ‹_›) ho

theorem encode_decodeBranch {w : Word} (ho : opcodeOf w = opBranch) : (decodeBranch w).wellFormed = true ∧ encode (decodeBranch w) = w := by
  unfold decodeBranch
  repeat' split
  all_goals refine ⟨even_immB w, ?_⟩
  all_goals first | (rename_i h; exact encB_of h ho) | exact encB_of (funct3_seven ‹_› ‹_› ‹_› ‹_› ‹_› ‹_› ‹_›) ho

theorem encode_decodeOpImm {w : Word} {i : Instr} (ho : opcodeOf w = opOpImm) (h : decodeOpImm w = .ok i) :
    i.wellFormed = true ∧ encode i = w := by
  unfold decodeOpImm at h
  repeat' split at h
  all_goals cases h
  · exact ⟨rfl, encI_of ‹funct3Of w = 0#3› ho⟩
  · exact ⟨rfl, encR_of ‹funct7Of w = 0x00#7› ‹funct3Of w = 1#3› ho⟩
  · exact ⟨rfl, encI_of ‹funct3Of w = 2#3› ho⟩
  · exact ⟨rfl, encI_of ‹funct3Of w = 3#3› ho⟩
  · exact ⟨rfl, encI_of ‹funct3Of w = 4#3› ho⟩
  · exact ⟨rfl, encR_of ‹funct7Of w = 0x00#7› ‹funct3Of w = 5#3› ho⟩
  · exact ⟨rfl, encR_of ‹funct7Of w = 0x20#7› ‹funct3Of w = 5#3› ho⟩
  · exact ⟨rfl, encI_of ‹funct3Of w = 6#3› ho⟩
  · exact ⟨rfl, encI_of (funct3_seven ‹_› ‹_› ‹_› ‹_› ‹_› ‹_› ‹_›) ho⟩

theorem encode_decodeOp {w : Word} {i : Instr} (ho : opcodeOf w = opOp) (h : decodeOp w = .ok i) :
    i.wellFormed = true ∧ encode i = w := by
  unfold decodeOp at h
  repeat' split at h
  all_goals cases h
  all_goals refine ⟨rfl, ?_⟩
  all_goals first
    | exact encR_of ‹_› ‹_› ho
    | exact encR_of ‹_› (funct3_seven ‹_› ‹_› ‹_› ‹_› ‹_› ‹_› ‹_›) ho

theorem encode_decodeSystem {w : Word} {i : Instr} (ho : opcodeOf w = opSystem) (h : decodeSystem w = .ok i) :
    i.wellFormed = true ∧ encode i = w := by
  unfold decodeSystem at h
  repeat' split at h
  all_goals cases h
  all_goals refine ⟨rfl, ?_⟩
  all_goals
   rename_i hi
   exact (congrArg (fun x => encI x _ _ _ _) hi.symm).trans (encI_of ‹_› ho)

end Sys2Proof
end

