-- ==== Sys2Proof/Laws/Lsu.lean ====
section
/-! SUPPORT. Fetch and the load-store unit: the answer in each case, and everything a completed access can do. -/

namespace Sys2Proof.Machine

theorem State.memRead_inBounds {s : State} {a n : Nat} (h : a + n ≤ s.params.memSize) :
    s.memRead a n = some (readBytes s.mem a n) := by
  simp [State.memRead, State.inBounds, h]

theorem State.memRead_outOfBounds {s : State} {a n : Nat} (h : ¬ a + n ≤ s.params.memSize) :
    s.memRead a n = none := by
  simp [State.memRead, State.inBounds, h]

theorem State.memWrite_inBounds {s : State} {a n : Nat} (v : Nat) (h : a + n ≤ s.params.memSize) :
    s.memWrite a n v = some { s with mem := writeBytes s.mem a n v } := by
  simp [State.memWrite, State.inBounds, h]

theorem State.memWrite_outOfBounds {s : State} {a n : Nat} (v : Nat) (h : ¬ a + n ≤ s.params.memSize) :
    s.memWrite a n v = none := by
  simp [State.memWrite, State.inBounds, h]

theorem fetch_inBounds {s : State} (h : s.pc.toNat + 4 ≤ s.params.memSize) :
    fetch s = .ok (wordAt s.mem s.pc.toNat) := by
  simp [fetch, State.memRead_inBounds h, readBytes_four]

theorem fetch_outOfBounds {s : State} (h : ¬ s.pc.toNat + 4 ≤ s.params.memSize) :
    fetch s = .error (.addressFault ⟨.fetch, s.pc, 4, s.pc⟩ s) := by
  simp [fetch, State.memRead_outOfBounds h, raiseAddressFault]

/-- An access that no peripheral claims is none of the three tests of the load-store unit. -/
theorem unclaimed_tests {s : State} {ea : Word} (h : claimed s ea = false) :
    (s.params.periphEnabled && ea == consoleIn) = false ∧ (s.params.periphEnabled && ea == consoleOut) = false ∧
      (s.params.periphEnabled && ea == consoleErr) = false ∧
        (s.params.periphEnabled && (ea == consoleOut || ea == consoleErr)) = false := by
  unfold claimed at h
  cases hp : s.params.periphEnabled
  · simp
  · simp [hp] at h; simp [h]

theorem lsuRead_inBounds {s : State} {ea : Word} (hc : claimed s ea = false)
    (h : ea.toNat + 4 ≤ s.params.memSize) : lsuRead s ea = .ok (wordAt s.mem ea.toNat, s) := by
  obtain ⟨h1, -, -, h2⟩ := unclaimed_tests hc
  simp [lsuRead, h1, h2, State.memRead_inBounds h, readBytes_four]

theorem lsuRead_outOfBounds {s : State} {ea : Word} (hc : claimed s ea = false)
    (h : ¬ ea.toNat + 4 ≤ s.params.memSize) :
    lsuRead s ea = .error (.addressFault ⟨.load, ea, 4, s.pc⟩ s) := by
  obtain ⟨h1, -, -, h2⟩ := unclaimed_tests hc
  simp [lsuRead, h1, h2, State.memRead_outOfBounds h, raiseAddressFault]

theorem lsuRead_line {s : State} {line : List Byte} {rest : List (List Byte)} (hp : s.params.periphEnabled = true)
    (hi : s.port.input = line :: rest) :
    lsuRead s consoleIn =
      .ok ((firstByte line).setWidth 32, { s with port := { s.port with input := rest } }) := by
  simp [lsuRead, hp, hi]

theorem lsuRead_noLine {s : State} (hp : s.params.periphEnabled = true) (hi : s.port.input = []) :
    lsuRead s consoleIn = .error .consoleInBlocked := by
  simp [lsuRead, hp, hi]

theorem lsuRead_outErr {s : State} {ea : Word} (hp : s.params.periphEnabled = true)
    (h : ea = consoleOut ∨ ea = consoleErr) : lsuRead s ea = .ok (0#32, s) := by
  rcases h with rfl | rfl <;> simp [lsuRead, hp, consoleIn, consoleOut, consoleErr]

/-- Everything a completed read can do: nothing to the state, or consume the next line of console-in. -/
theorem lsuRead_ok {s t : State} {ea v : Word} (h : lsuRead s ea = .ok (v, t)) :
    t = s ∨ (s.params.periphEnabled = true ∧ ea = consoleIn ∧ ∃ line rest, s.port.input = line :: rest ∧
      v = (firstByte line).setWidth 32 ∧ t = { s with port := { s.port with input := rest } }) := by
  unfold lsuRead at h
  split at h
  · rename_i hc
    simp only [Bool.and_eq_true, beq_iff_eq] at hc
    split at h
    · cases h
    · rename_i line rest hi
      simp only [Except.ok.injEq, Prod.mk.injEq] at h
      exact .inr ⟨hc.1, hc.2, line, rest, hi, h.1.symm, h.2.symm⟩
  · split at h
    · simp only [Except.ok.injEq, Prod.mk.injEq] at h; exact .inl h.2.symm
    · split at h
      · simp only [Except.ok.injEq, Prod.mk.injEq] at h; exact .inl h.2.symm
      · cases h

/-- Why a read does not complete: it waits, or it is out of bounds and the state is as it was. -/
theorem lsuRead_error {s : State} {ea : Word} {f : Fault} (h : lsuRead s ea = .error f) :
    f = .consoleInBlocked ∨
      (f = .addressFault ⟨.load, ea, 4, s.pc⟩ s ∧ ¬ ea.toNat + 4 ≤ s.params.memSize) := by
  by_cases hb : ea.toNat + 4 ≤ s.params.memSize
  · unfold lsuRead at h
    rw [State.memRead_inBounds hb] at h
    split at h
    · split at h
      · exact .inl (Except.error.inj h).symm
      · cases h
    · split at h <;> cases h
  · unfold lsuRead at h
    rw [State.memRead_outOfBounds hb] at h
    split at h
    · split at h
      · exact .inl (Except.error.inj h).symm
      · cases h
    · split at h
      · cases h
      · exact .inr ⟨(Except.error.inj h).symm, hb⟩

theorem lsuWrite_inBounds {s : State} {ea : Word} (v : Word) (hc : claimed s ea = false)
    (h : ea.toNat + 4 ≤ s.params.memSize) :
    lsuWrite s ea v = .ok { s with mem := writeBytes s.mem ea.toNat 4 v.toNat } := by
  obtain ⟨h1, h2, h3, -⟩ := unclaimed_tests hc
  simp [lsuWrite, h1, h2, h3, State.memWrite_inBounds v.toNat h]

theorem lsuWrite_outOfBounds {s : State} {ea : Word} (v : Word) (hc : claimed s ea = false)
    (h : ¬ ea.toNat + 4 ≤ s.params.memSize) :
    lsuWrite s ea v = .error (.addressFault ⟨.store, ea, 4, s.pc⟩ s) := by
  obtain ⟨h1, h2, h3, -⟩ := unclaimed_tests hc
  simp [lsuWrite, h1, h2, h3, State.memWrite_outOfBounds v.toNat h, raiseAddressFault]

theorem lsuWrite_out {s : State} (v : Word) (hp : s.params.periphEnabled = true) :
    lsuWrite s consoleOut v = .ok (s.emitOut (v.extractLsb' 0 8)) := by
  simp [lsuWrite, hp]

theorem lsuWrite_err {s : State} (v : Word) (hp : s.params.periphEnabled = true) :
    lsuWrite s consoleErr v = .ok (s.emitErr (v.extractLsb' 0 8)) := by
  simp [lsuWrite, hp, consoleOut, consoleErr]

theorem lsuWrite_in {s : State} (v : Word) (hp : s.params.periphEnabled = true) :
    lsuWrite s consoleIn v = .ok s := by
  simp [lsuWrite, hp, consoleIn, consoleOut, consoleErr]

/-- Everything a completed write can do: store four bytes in bounds, emit one byte on `out` or `err`, or nothing. -/
theorem lsuWrite_ok {s t : State} {ea v : Word} (h : lsuWrite s ea v = .ok t) :
    (ea.toNat + 4 ≤ s.params.memSize ∧ t = { s with mem := writeBytes s.mem ea.toNat 4 v.toNat }) ∨
      t = s.emitOut (v.extractLsb' 0 8) ∨ t = s.emitErr (v.extractLsb' 0 8) ∨ t = s := by
  unfold lsuWrite at h
  split at h
  · exact .inr (.inl (Except.ok.inj h).symm)
  · split at h
    · exact .inr (.inr (.inl (Except.ok.inj h).symm))
    · split at h
      · exact .inr (.inr (.inr (Except.ok.inj h).symm))
      · by_cases hb : ea.toNat + 4 ≤ s.params.memSize
        · rw [State.memWrite_inBounds _ hb] at h
          exact .inl ⟨hb, (Except.ok.inj h).symm⟩
        · rw [State.memWrite_outOfBounds _ hb] at h; cases h

/-- A write that does not complete is out of bounds, and the state is as it was. -/
theorem lsuWrite_error {s : State} {ea v : Word} {f : Fault} (h : lsuWrite s ea v = .error f) :
    f = .addressFault ⟨.store, ea, 4, s.pc⟩ s ∧ ¬ ea.toNat + 4 ≤ s.params.memSize := by
  by_cases hb : ea.toNat + 4 ≤ s.params.memSize
  · unfold lsuWrite at h
    rw [State.memWrite_inBounds _ hb] at h
    split at h
    · cases h
    · split at h
      · cases h
      · split at h <;> cases h
  · unfold lsuWrite at h
    rw [State.memWrite_outOfBounds _ hb] at h
    split at h
    · cases h
    · split at h
      · cases h
      · split at h
        · cases h
        · exact ⟨(Except.error.inj h).symm, hb⟩

end Sys2Proof.Machine
end

