-- ==== Sys2Proof/Laws/Operands.lean ====
section
/-! SUPPORT. The operands and the ALU operations as numbers: sums modulo 2^32, targets with bit 0 cleared, the five-bit
immediate, and the shifts as multiplication and division. -/

namespace Sys2Proof.Machine

/-- `to32(x + z)` for a signed z. -/
theorem word_add_int (x : Word) (z : Int) : x + BitVec.ofInt 32 z = BitVec.ofInt 32 (x.toNat + z) := by
  rw [BitVec.ofInt_add]
  congr 1
  apply BitVec.eq_of_toNat_eq
  simp

theorem toNat_ofInt_word (z : Int) : (BitVec.ofInt 32 z).toNat = (z % 2 ^ 32).toNat := by
  rw [BitVec.toNat_ofInt]; rfl

/-- `t AND 0xFFFFFFFE` as a number (R168). -/
theorem clearBit0_toNat (t : Word) : (clearBit0 t).toNat = 2 * (t.toNat / 2) := by
  have h : clearBit0 t = (t >>> 1) <<< 1 := by
    apply BitVec.eq_of_getLsbD_eq
    intro k hk
    simp only [clearBit0, BitVec.getLsbD_and, BitVec.getLsbD_shiftLeft, BitVec.getLsbD_ushiftRight]
    interval_cases k <;> simp
  rw [h]
  simp only [BitVec.toNat_shiftLeft, BitVec.toNat_ushiftRight, Nat.shiftRight_eq_div_pow, Nat.shiftLeft_eq]
  have := t.isLt
  omega

theorem clearBit0_even (t : Word) : (clearBit0 t).getLsbD 0 = false := by simp [clearBit0]

/-- `immU << 12` as a number (R86). -/
theorem upperImm_eq (imm : BitVec 20) : upperImm imm = BitVec.ofNat 32 (imm.toNat * 2 ^ 12) := by
  apply BitVec.eq_of_toNat_eq
  have := imm.isLt
  have e : (imm ++ 0#12).toNat = imm.toNat <<< 12 ||| 0 := BitVec.toNat_append _ _
  rw [show upperImm imm = imm ++ 0#12 from rfl, BitVec.toNat_ofNat]
  refine e.trans ?_
  rw [Nat.or_zero, Nat.shiftLeft_eq]
  omega

/-- The execute immediate of ADDI..ANDI is the field modulo 32 (R88). -/
theorem imm5_toNat (imm : BitVec 12) : (imm5 imm).toNat = imm.toNat % 32 := by
  have := imm.isLt
  simp [imm5]
  omega

theorem imm5_toInt (imm : BitVec 12) : (imm5 imm).toInt = ((imm.toNat % 32 : Nat) : Int) := by
  rw [BitVec.toInt_eq_toNat_cond, imm5_toNat]
  split
  · rfl
  · omega

theorem imm5_getLsbD (imm : BitVec 12) (k : Nat) : (imm5 imm).getLsbD k = (decide (k < 5) && imm.getLsbD k) := by
  simp [imm5, BitVec.getLsbD_extractLsb']
  intro h h2
  omega

theorem shiftAmount_eq (x : Word) : shiftAmount x = x.toNat % 32 := by simp [shiftAmount]

theorem word_shiftLeft (x : Word) (n : Nat) : x <<< n = BitVec.ofNat 32 (x.toNat * 2 ^ n) := by
  apply BitVec.eq_of_toNat_eq
  simp [Nat.shiftLeft_eq]

theorem word_shiftRight (x : Word) (n : Nat) : x >>> n = BitVec.ofNat 32 (x.toNat / 2 ^ n) := by
  apply BitVec.eq_of_toNat_eq
  simp [Nat.shiftRight_eq_div_pow]
  exact (Nat.mod_eq_of_lt (Nat.lt_of_le_of_lt (Nat.div_le_self _ _) x.isLt)).symm

theorem word_sshiftRight (x : Word) (n : Nat) : x.sshiftRight n = BitVec.ofInt 32 (x.toInt / 2 ^ n) := by
  rw [BitVec.sshiftRight, Int.shiftRight_eq_div_pow]
  simp

/-- The pc after an instruction is even where the pc is (R25). -/
theorem nextPc_even {s : State} (h : s.pc.getLsbD 0 = false) : s.nextPc.getLsbD 0 = false := by
  simp [State.nextPc, BitVec.getLsbD, Nat.testBit_eq_decide_div_mod_eq] at *
  omega

end Sys2Proof.Machine
end

