-- ==== Sys2Proof/Laws/Exec.lean ====
section
/-! SUPPORT. What each family's meaning is, and everything `exec` can do, said once: `exec_shape` for the meaning,
`semihost_spec` for what a semihosting request does to the state. -/

namespace Sys2Proof.Machine

theorem exec_load {i : Instr} {rd rs1 : RegIdx} {imm : BitVec 12} (h : i ∈ loadForms rd rs1 imm) (s : State) :
    exec i s = loadClass rd rs1 imm s := by
  simp only [loadForms, List.mem_cons, List.not_mem_nil, or_false] at h
  rcases h with rfl | rfl | rfl | rfl | rfl | rfl | rfl | rfl <;> rfl

theorem exec_store {i : Instr} {rs1 rs2 : RegIdx} {imm : BitVec 12} (h : i ∈ storeForms rs1 rs2 imm) (s : State) :
    exec i s = storeClass rs1 rs2 imm s := by
  simp only [storeForms, List.mem_cons, List.not_mem_nil, or_false] at h
  rcases h with rfl | rfl | rfl | rfl | rfl | rfl | rfl | rfl <;> rfl

theorem exec_branch {i : Instr} {rs1 rs2 : RegIdx} {off : BitVec 13} (h : i ∈ branchForms rs1 rs2 off) (s : State) :
    exec i s = branchClass rs1 rs2 off s := by
  simp only [branchForms, List.mem_cons, List.not_mem_nil, or_false] at h
  rcases h with rfl | rfl | rfl | rfl | rfl | rfl | rfl | rfl <;> rfl

theorem exec_jalr {i : Instr} {rd rs1 : RegIdx} {imm : BitVec 12} (h : i ∈ jalrForms rd rs1 imm) (s : State) :
    exec i s = jalrClass rd rs1 imm s := by
  simp only [jalrForms, List.mem_cons, List.not_mem_nil, or_false] at h
  rcases h with rfl | rfl | rfl | rfl | rfl | rfl | rfl | rfl <;> rfl

/-- The instructions that write one computed value to rd and go on at the next word. -/
def computedRd : Instr → Option RegIdx
  | .lui rd _ => some rd
  | .auipc rd _ => some rd
  | .addi rd _ _ => some rd
  | .slti rd _ _ => some rd
  | .sltiu rd _ _ => some rd
  | .xori rd _ _ => some rd
  | .ori rd _ _ => some rd
  | .andi rd _ _ => some rd
  | .slli rd _ _ => some rd
  | .srli rd _ _ => some rd
  | .srai rd _ _ => some rd
  | .add rd _ _ => some rd
  | .sub rd _ _ => some rd
  | .sll rd _ _ => some rd
  | .slt rd _ _ => some rd
  | .sltu rd _ _ => some rd
  | .xor rd _ _ => some rd
  | .srl rd _ _ => some rd
  | .sra rd _ _ => some rd
  | .or rd _ _ => some rd
  | .and rd _ _ => some rd
  | _ => none

/-- The meaning of any instruction is one of seven shapes. -/
theorem exec_shape (i : Instr) :
    (∃ rd rs1 imm, i ∈ loadForms rd rs1 imm) ∨ (∃ rs1 rs2 imm, i ∈ storeForms rs1 rs2 imm) ∨
      (∃ rs1 rs2 off, i ∈ branchForms rs1 rs2 off) ∨ (∃ rd rs1 imm, i ∈ jalrForms rd rs1 imm) ∨
        (∃ rd off, i = .jal rd off) ∨
          (∃ rd, computedRd i = some rd ∧ ∀ s, ∃ v, exec i s = writeResult rd v s) ∨
            (∃ rd rs1, i = .ecall rd rs1) ∨ (∃ rd rs1, i = .ebreak rd rs1) := by
  cases i
  case lb a b c => exact .inl ⟨a, b, c, by simp [loadForms]⟩
  case lh a b c => exact .inl ⟨a, b, c, by simp [loadForms]⟩
  case lw a b c => exact .inl ⟨a, b, c, by simp [loadForms]⟩
  case lbu a b c => exact .inl ⟨a, b, c, by simp [loadForms]⟩
  case lhu a b c => exact .inl ⟨a, b, c, by simp [loadForms]⟩
  case load011 a b c => exact .inl ⟨a, b, c, by simp [loadForms]⟩
  case load110 a b c => exact .inl ⟨a, b, c, by simp [loadForms]⟩
  case load111 a b c => exact .inl ⟨a, b, c, by simp [loadForms]⟩
  case sb a b c => exact .inr (.inl ⟨a, b, c, by simp [storeForms]⟩)
  case sh a b c => exact .inr (.inl ⟨a, b, c, by simp [storeForms]⟩)
  case sw a b c => exact .inr (.inl ⟨a, b, c, by simp [storeForms]⟩)
  case store011 a b c => exact .inr (.inl ⟨a, b, c, by simp [storeForms]⟩)
  case store100 a b c => exact .inr (.inl ⟨a, b, c, by simp [storeForms]⟩)
  case store101 a b c => exact .inr (.inl ⟨a, b, c, by simp [storeForms]⟩)
  case store110 a b c => exact .inr (.inl ⟨a, b, c, by simp [storeForms]⟩)
  case store111 a b c => exact .inr (.inl ⟨a, b, c, by simp [storeForms]⟩)
  case beq a b c => exact .inr (.inr (.inl ⟨a, b, c, by simp [branchForms]⟩))
  case bne a b c => exact .inr (.inr (.inl ⟨a, b, c, by simp [branchForms]⟩))
  case blt a b c => exact .inr (.inr (.inl ⟨a, b, c, by simp [branchForms]⟩))
  case bge a b c => exact .inr (.inr (.inl ⟨a, b, c, by simp [branchForms]⟩))
  case bltu a b c => exact .inr (.inr (.inl ⟨a, b, c, by simp [branchForms]⟩))
  case bgeu a b c => exact .inr (.inr (.inl ⟨a, b, c, by simp [branchForms]⟩))
  case branch010 a b c => exact .inr (.inr (.inl ⟨a, b, c, by simp [branchForms]⟩))
  case branch011 a b c => exact .inr (.inr (.inl ⟨a, b, c, by simp [branchForms]⟩))
  case jalr a b c => exact .inr (.inr (.inr (.inl ⟨a, b, c, by simp [jalrForms]⟩)))
  case jalr001 a b c => exact .inr (.inr (.inr (.inl ⟨a, b, c, by simp [jalrForms]⟩)))
  case jalr010 a b c => exact .inr (.inr (.inr (.inl ⟨a, b, c, by simp [jalrForms]⟩)))
  case jalr011 a b c => exact .inr (.inr (.inr (.inl ⟨a, b, c, by simp [jalrForms]⟩)))
  case jalr100 a b c => exact .inr (.inr (.inr (.inl ⟨a, b, c, by simp [jalrForms]⟩)))
  case jalr101 a b c => exact .inr (.inr (.inr (.inl ⟨a, b, c, by simp [jalrForms]⟩)))
  case jalr110 a b c => exact .inr (.inr (.inr (.inl ⟨a, b, c, by simp [jalrForms]⟩)))
  case jalr111 a b c => exact .inr (.inr (.inr (.inl ⟨a, b, c, by simp [jalrForms]⟩)))
  case jal a b => exact .inr (.inr (.inr (.inr (.inl ⟨a, b, rfl⟩))))
  case ecall a b => exact .inr (.inr (.inr (.inr (.inr (.inr (.inl ⟨a, b, rfl⟩))))))
  case ebreak a b => exact .inr (.inr (.inr (.inr (.inr (.inr (.inr ⟨a, b, rfl⟩))))))
  all_goals exact .inr (.inr (.inr (.inr (.inr (.inl ⟨_, rfl, fun _ => ⟨_, rfl⟩⟩)))))

/-- The state with bytes appended to `out`. -/
def State.emitAll (s : State) (bs : List Byte) : State :=
  { s with port := { s.port with out := s.port.out ++ bs } }

@[simp] theorem State.emitAll_nil (s : State) : s.emitAll [] = s := by simp [State.emitAll]
theorem State.emitAll_cons (s : State) (b : Byte) (bs : List Byte) : (s.emitOut b).emitAll bs = s.emitAll (b :: bs) := by
  simp [State.emitAll, State.emitOut]
@[simp] theorem State.emitAll_params (s : State) (bs : List Byte) : (s.emitAll bs).params = s.params := rfl
@[simp] theorem State.emitAll_mem (s : State) (bs : List Byte) : (s.emitAll bs).mem = s.mem := rfl
@[simp] theorem State.emitAll_pc (s : State) (bs : List Byte) : (s.emitAll bs).pc = s.pc := rfl
@[simp] theorem State.emitAll_regs (s : State) (bs : List Byte) : (s.emitAll bs).regs = s.regs := rfl
@[simp] theorem State.emitAll_halted (s : State) (bs : List Byte) : (s.emitAll bs).halted = s.halted := rfl
@[simp] theorem State.readReg_emitAll (s : State) (bs : List Byte) (q : RegIdx) : (s.emitAll bs).readReg q = s.readReg q := rfl

/-- A semihosting string only adds bytes to `out`; it ends, faults at a byte out of bounds, or runs out of fuel. -/
theorem semihostString_spec (fuel : Nat) (p pc : Word) (s : State) :
    (∃ bs, semihostString fuel p pc s = .ok (s.emitAll bs)) ∨
      (∃ bs q, semihostString fuel p pc s = .error (.addressFault ⟨.semihost, q, 1, pc⟩ (s.emitAll bs)) ∧
        ¬ q.toNat + 1 ≤ s.params.memSize) ∨
        semihostString fuel p pc s = .error .stringNeverEnds := by
  induction fuel generalizing p s with
  | zero => exact .inr (.inr rfl)
  | succ n ih =>
    unfold semihostString
    by_cases hb : p.toNat + 1 ≤ s.params.memSize
    · rw [State.memRead_inBounds hb]
      by_cases hc : readBytes s.mem p.toNat 1 = 0
      · exact .inl ⟨[], by simp [hc]⟩
      · simp only [hc, if_false]
        rcases ih (p + 1#32) (s.emitOut (BitVec.ofNat 8 (readBytes s.mem p.toNat 1))) with ⟨bs, h⟩ | ⟨bs, q, h, hq⟩ | h
        · exact .inl ⟨_, by rw [h, State.emitAll_cons]⟩
        · exact .inr (.inl ⟨_, q, by rw [h, State.emitAll_cons], hq⟩)
        · exact .inr (.inr h)
    · rw [State.memRead_outOfBounds hb]
      exact .inr (.inl ⟨[], p, by simp [raiseAddressFault], hb⟩)

/-- A semihosting request only adds bytes to `out`. -/
theorem semihost_spec (pc : Word) (s : State) :
    (∃ bs, semihost pc s = .ok (s.emitAll bs)) ∨
      (∃ bs q, semihost pc s = .error (.addressFault ⟨.semihost, q, 1, pc⟩ (s.emitAll bs)) ∧
        ¬ q.toNat + 1 ≤ s.params.memSize) ∨
        semihost pc s = .error .stringNeverEnds := by
  unfold semihost
  split
  · exact .inl ⟨[_], rfl⟩
  · split
    · exact semihostString_spec _ _ _ _
    · exact .inl ⟨[], by simp⟩

/-- The trigger is the EBREAK whose rd and rs1 fields are both 0 (R232, R233). -/
theorem isSemihostTrigger_ebreak (rd rs1 : RegIdx) :
    isSemihostTrigger (.ebreak rd rs1) = true ↔ rd = 0#5 ∧ rs1 = 0#5 := by
  constructor
  · intro h
    have e : encode (.ebreak rd rs1) = semihostWord := by simpa [isSemihostTrigger] using h
    have h1 : rdOf (encode (.ebreak rd rs1)) = rdOf semihostWord := by rw [e]
    have h2 : rs1Of (encode (.ebreak rd rs1)) = rs1Of semihostWord := by rw [e]
    have e1 : rdOf (encI 1#12 rs1 0#3 rd opSystem) = rd := by simp
    have e2 : rs1Of (encI 1#12 rs1 0#3 rd opSystem) = rs1 := by simp
    exact ⟨e1.symm.trans (h1.trans (by decide)), e2.symm.trans (h2.trans (by decide))⟩
  · rintro ⟨rfl, rfl⟩; decide

/-- Everything EBREAK can do: halt after adding bytes to `out`, or stop at a byte of a semihosting string. -/
theorem execEbreak_spec (rd rs1 : RegIdx) (s : State) :
    (∃ bs, execEbreak rd rs1 s = .next ((((s.setPc s.nextPc).emitAll bs).halt).result .breakMark)) ∨
      (∃ bs q, execEbreak rd rs1 s =
        .fault (.addressFault ⟨.semihost, q, 1, s.pc⟩ ((s.setPc s.nextPc).emitAll bs)) ∧
          ¬ q.toNat + 1 ≤ s.params.memSize) ∨
        execEbreak rd rs1 s = .fault .stringNeverEnds := by
  unfold execEbreak
  split
  · rcases semihost_spec s.pc (s.setPc s.nextPc) with ⟨bs, h⟩ | ⟨bs, q, h, hq⟩ | h
    · exact .inl ⟨bs, by rw [h]⟩
    · exact .inr (.inl ⟨bs, q, by rw [h], hq⟩)
    · exact .inr (.inr (by rw [h]))
  · exact .inl ⟨[], by simp⟩

/-! ## The class rules -/

theorem loadClass_ok {s t : State} {rd rs1 : RegIdx} {imm : BitVec 12} {v : Word}
    (h : lsuRead s (effAddr s rs1 imm) = .ok (v, t)) :
    loadClass rd rs1 imm s = .next ((t.writeReg rd v).retire s.nextPc (.value v)) := by
  unfold loadClass; rw [h]

theorem loadClass_error {s : State} {rd rs1 : RegIdx} {imm : BitVec 12} {f : Fault}
    (h : lsuRead s (effAddr s rs1 imm) = .error f) : loadClass rd rs1 imm s = .fault f := by
  unfold loadClass; rw [h]

theorem storeClass_ok {s t : State} {rs1 rs2 : RegIdx} {imm : BitVec 12}
    (h : lsuWrite s (effAddr s rs1 imm) (s.readReg rs2) = .ok t) :
    storeClass rs1 rs2 imm s = .next (t.retire s.nextPc .noValue) := by
  unfold storeClass; rw [h]

theorem storeClass_error {s : State} {rs1 rs2 : RegIdx} {imm : BitVec 12} {f : Fault}
    (h : lsuWrite s (effAddr s rs1 imm) (s.readReg rs2) = .error f) : storeClass rs1 rs2 imm s = .fault f := by
  unfold storeClass; rw [h]

/-- A LOAD that completes has consumed at most one line of input. -/
theorem loadClass_next {s t : State} {rd rs1 : RegIdx} {imm : BitVec 12} (h : loadClass rd rs1 imm s = .next t) :
    ∃ u v, (u = s ∨ ∃ rest, u = { s with port := { s.port with input := rest } }) ∧
      t = (u.writeReg rd v).retire s.nextPc (.value v) := by
  cases hr : lsuRead s (effAddr s rs1 imm) with
  | ok p =>
    obtain ⟨v, u⟩ := p
    rw [loadClass_ok hr] at h; cases h
    rcases lsuRead_ok hr with e | ⟨-, -, l, r, -, -, e⟩
    · exact ⟨u, v, .inl e, rfl⟩
    · exact ⟨u, v, .inr ⟨r, e⟩, rfl⟩
  | error f => rw [loadClass_error hr] at h; cases h

theorem loadClass_fault {s : State} {rd rs1 : RegIdx} {imm : BitVec 12} {f : Fault}
    (h : loadClass rd rs1 imm s = .fault f) : lsuRead s (effAddr s rs1 imm) = .error f := by
  cases hr : lsuRead s (effAddr s rs1 imm) with
  | ok p => rw [loadClass_ok hr] at h; cases h
  | error g => rw [loadClass_error hr] at h; cases h; rfl

theorem storeClass_next {s t : State} {rs1 rs2 : RegIdx} {imm : BitVec 12} (h : storeClass rs1 rs2 imm s = .next t) :
    ∃ u, lsuWrite s (effAddr s rs1 imm) (s.readReg rs2) = .ok u ∧ t = u.retire s.nextPc .noValue := by
  cases hr : lsuWrite s (effAddr s rs1 imm) (s.readReg rs2) with
  | ok u => rw [storeClass_ok hr] at h; cases h; exact ⟨u, rfl, rfl⟩
  | error f => rw [storeClass_error hr] at h; cases h

theorem storeClass_fault {s : State} {rs1 rs2 : RegIdx} {imm : BitVec 12} {f : Fault}
    (h : storeClass rs1 rs2 imm s = .fault f) : lsuWrite s (effAddr s rs1 imm) (s.readReg rs2) = .error f := by
  cases hr : lsuWrite s (effAddr s rs1 imm) (s.readReg rs2) with
  | ok p => rw [storeClass_ok hr] at h; cases h
  | error g => rw [storeClass_error hr] at h; cases h; rfl

/-- What the end of a computational instruction leaves. -/
theorem writeResult_computed (s : State) (rd : RegIdx) (v : Word) :
    Computed rd v (BitVec.ofNat 32 (s.pc.toNat + 4)) s ((s.writeReg rd v).retire s.nextPc (.value v)) := by
  refine ⟨fun q => by simp [State.readReg_writeReg], fun a => by rw [State.retire_mem, State.writeReg_mem],
    State.nextPc_eq s, ?_, ?_, ?_⟩ <;> simp

/-- What a jump leaves. -/
theorem jumpTo_leaves (s : State) (rd : RegIdx) (target : Word) :
    let t := (s.writeReg rd s.nextPc).retire target (.value s.nextPc)
    OnlyRegister rd (BitVec.ofNat 32 (s.pc.toNat + 4)) s t ∧ SameMemory s t ∧
      Retired target (.value (BitVec.ofNat 32 (s.pc.toNat + 4))) s t := by
  rw [← State.nextPc_eq]
  refine ⟨fun q => by simp [State.readReg_writeReg], fun a => by rw [State.retire_mem, State.writeReg_mem],
    ?_, ?_, ?_, ?_⟩ <;> simp

/-! ## Semihosting strings -/

/-- A run of readable bytes that are not zero is emitted, and the read goes on after it (R235). -/
theorem semihostString_run (bs : List Byte) : ∀ (fuel : Nat) (p pc : Word) (s : State),
    (∀ k, k < bs.length → (p.toNat + k) % 2 ^ 32 < s.params.memSize ∧
      readByte s.mem ((p.toNat + k) % 2 ^ 32) = bs.getD k 0#8) →
    (∀ b ∈ bs, b ≠ 0#8) →
    semihostString (bs.length + fuel) p pc s =
      semihostString fuel (p + BitVec.ofNat 32 bs.length) pc (s.emitAll bs) := by
  induction bs with
  | nil => intro fuel p pc s _ _; simp
  | cons b bs ih =>
    intro fuel p pc s h hn
    have h0 := h 0 (by simp)
    simp only [Nat.add_zero, Nat.mod_eq_of_lt p.isLt, List.getD_cons_zero] at h0
    rw [List.length_cons, show bs.length + 1 + fuel = (bs.length + fuel) + 1 by omega, semihostString,
      State.memRead_inBounds (by omega), readBytes_one, h0.2]
    have hb : b.toNat ≠ 0 := fun e => hn b (by simp) (BitVec.eq_of_toNat_eq e)
    simp only [hb, if_false, show BitVec.ofNat 8 b.toNat = b by simp]
    rw [ih]
    · rw [State.emitAll_cons]; congr 1
      apply BitVec.eq_of_toNat_eq; simp; omega
    · intro k hk
      have := h (k + 1) (by simpa using hk)
      rw [show ((p + 1#32).toNat + k) % 2 ^ 32 = (p.toNat + (k + 1)) % 2 ^ 32 by simp; omega]
      simpa using this
    · intro b' hb'; exact hn b' (by simp [hb'])

/-- A string read that runs out of fuel has met only readable bytes that are not zero. -/
theorem semihostString_never (fuel : Nat) : ∀ (p pc : Word) (s : State),
    semihostString fuel p pc s = .error .stringNeverEnds →
    ∀ k, k < fuel → (p.toNat + k) % 2 ^ 32 + 1 ≤ s.params.memSize ∧
      readByte s.mem ((p.toNat + k) % 2 ^ 32) ≠ 0#8 := by
  induction fuel with
  | zero => intro p pc s _ k hk; omega
  | succ n ih =>
    intro p pc s h k hk
    rw [semihostString] at h
    by_cases hb : p.toNat + 1 ≤ s.params.memSize
    · rw [State.memRead_inBounds hb, readBytes_one] at h
      by_cases hc : (readByte s.mem p.toNat).toNat = 0
      · simp [hc] at h
      · simp only [hc, if_false] at h
        rcases k with _ | k
        · simp only [Nat.add_zero, Nat.mod_eq_of_lt p.isLt]
          exact ⟨hb, fun e => hc (by rw [e]; rfl)⟩
        · have := ih _ _ _ h k (by omega)
          rw [show ((p + 1#32).toNat + k) % 2 ^ 32 = (p.toNat + (k + 1)) % 2 ^ 32 by simp; omega] at this
          exact this
    · rw [State.memRead_outOfBounds hb] at h; cases h

end Sys2Proof.Machine
end

