-- ==== Sys2Proof/Laws/Step.lean ====
section
/-! SUPPORT. What a step does with the word it fetches, and what the decoder answers in each class. -/

namespace Sys2Proof.Machine

/-- A step that completes: the block was not halted, the fetch was in bounds, and the word at the pc was run. -/
theorem step_next {s t : State} (h : step s = .next t) :
    s.halted = false ∧ s.pc.toNat + 4 ≤ s.params.memSize ∧ fetch s = .ok (wordAt s.mem s.pc.toNat) ∧
      runWord (wordAt s.mem s.pc.toNat) s = .next t := by
  unfold step at h
  split at h
  · rename_i he
    by_cases hb : s.pc.toNat + 4 ≤ s.params.memSize
    · rw [fetch_inBounds hb] at h
      exact ⟨by simpa [State.stepEnabled] using he, hb, fetch_inBounds hb, h⟩
    · rw [fetch_outOfBounds hb] at h; cases h
  · cases h

/-- A step that is enabled and fetches in bounds is the run of the word at the pc. -/
theorem step_runWord {s : State} (hh : s.halted = false) (hb : s.pc.toNat + 4 ≤ s.params.memSize) :
    step s = runWord (wordAt s.mem s.pc.toNat) s := by
  simp [step, State.stepEnabled, hh, fetch_inBounds hb]

/-- A step that does not complete: halted, a fetch fault, or the fault of the word that was run. -/
theorem step_fault {s : State} {f : Fault} (h : step s = .fault f) :
    (s.halted = true ∧ f = .haltedNoStep) ∨
      (s.halted = false ∧ ¬ s.pc.toNat + 4 ≤ s.params.memSize ∧ f = .addressFault ⟨.fetch, s.pc, 4, s.pc⟩ s) ∨
        (s.halted = false ∧ s.pc.toNat + 4 ≤ s.params.memSize ∧
          runWord (wordAt s.mem s.pc.toNat) s = .fault f) := by
  cases hh : s.halted
  · by_cases hb : s.pc.toNat + 4 ≤ s.params.memSize
    · rw [step_runWord hh hb] at h; exact .inr (.inr ⟨rfl, hb, h⟩)
    · simp [step, State.stepEnabled, hh, fetch_outOfBounds hb] at h
      exact .inr (.inl ⟨rfl, hb, h.symm⟩)
  · simp [step, State.stepEnabled, hh] at h
    exact .inl ⟨rfl, h.symm⟩

/-- A run of a word is the meaning of its instruction, or the no-op of an unrecognized word. -/
theorem runWord_cases (w : Word) (s : State) :
    (∃ i, decode w = .ok i ∧ runWord w s = exec i s) ∨
      (∃ e, decode w = .error e ∧ runWord w s = execUnrecognized w s) := by
  unfold runWord
  cases h : decode w with
  | ok i => exact .inl ⟨i, rfl, rfl⟩
  | error e => exact .inr ⟨e, rfl, rfl⟩

theorem decodeLoad_forms (w : Word) : decodeLoad w ∈ loadForms (rdOf w) (rs1Of w) (immIOf w) := by
  unfold decodeLoad loadForms
  repeat' split
  all_goals simp

theorem decodeStore_forms (w : Word) : decodeStore w ∈ storeForms (rs1Of w) (rs2Of w) (immSOf w) := by
  unfold decodeStore storeForms
  repeat' split
  all_goals simp

theorem decodeBranch_forms (w : Word) : decodeBranch w ∈ branchForms (rs1Of w) (rs2Of w) (immBOf w) := by
  unfold decodeBranch branchForms
  repeat' split
  all_goals simp

theorem decodeJalr_forms (w : Word) : decodeJalr w ∈ jalrForms (rdOf w) (rs1Of w) (immIOf w) := by
  unfold decodeJalr jalrForms
  repeat' split
  all_goals simp

theorem decodeOpImm_computes {w : Word} {i : Instr} (h : decodeOpImm w = .ok i) : computedRd i = some (rdOf w) := by
  unfold decodeOpImm at h
  repeat' split at h
  all_goals first
    | (cases h; rfl)
    | cases h

theorem decodeOp_computes {w : Word} {i : Instr} (h : decodeOp w = .ok i) : computedRd i = some (rdOf w) := by
  unfold decodeOp at h
  repeat' split at h
  all_goals first
    | (cases h; rfl)
    | cases h

theorem decodeSystem_cases {w : Word} {i : Instr} (h : decodeSystem w = .ok i) :
    i = .ecall (rdOf w) (rs1Of w) ∨ i = .ebreak (rdOf w) (rs1Of w) := by
  unfold decodeSystem at h
  repeat' split at h
  · cases h; exact .inl rfl
  · cases h; exact .inr rfl
  · cases h
  · cases h

/-- What a recognized word decodes to, by its class. -/
theorem decode_ok {w : Word} {i : Instr} (h : decode w = .ok i) :
    (classOf w = .load ∧ i ∈ loadForms (rdOf w) (rs1Of w) (immIOf w)) ∨
    (classOf w = .store ∧ i ∈ storeForms (rs1Of w) (rs2Of w) (immSOf w)) ∨
    (classOf w = .branch ∧ i ∈ branchForms (rs1Of w) (rs2Of w) (immBOf w)) ∨
    (classOf w = .jalr ∧ i ∈ jalrForms (rdOf w) (rs1Of w) (immIOf w)) ∨
    (classOf w = .jal ∧ i = .jal (rdOf w) (immJOf w)) ∨
    ((classOf w = .lui ∨ classOf w = .auipc ∨ classOf w = .opImm ∨ classOf w = .op) ∧
      computedRd i = some (rdOf w)) ∨
    (classOf w = .system ∧ (i = .ecall (rdOf w) (rs1Of w) ∨ i = .ebreak (rdOf w) (rs1Of w))) := by
  unfold decode at h
  split at h
  · rename_i c; cases h; exact .inl ⟨c, decodeLoad_forms w⟩
  · rename_i c
    exact .inr (.inr (.inr (.inr (.inr (.inl ⟨.inr (.inr (.inl c)), decodeOpImm_computes h⟩)))))
  · rename_i c; cases h
    exact .inr (.inr (.inr (.inr (.inr (.inl ⟨.inr (.inl c), rfl⟩)))))
  · rename_i c; cases h; exact .inr (.inl ⟨c, decodeStore_forms w⟩)
  · rename_i c
    exact .inr (.inr (.inr (.inr (.inr (.inl ⟨.inr (.inr (.inr c)), decodeOp_computes h⟩)))))
  · rename_i c; cases h
    exact .inr (.inr (.inr (.inr (.inr (.inl ⟨.inl c, rfl⟩)))))
  · rename_i c; cases h; exact .inr (.inr (.inl ⟨c, decodeBranch_forms w⟩))
  · rename_i c; cases h; exact .inr (.inr (.inr (.inl ⟨c, decodeJalr_forms w⟩)))
  · rename_i c; cases h; exact .inr (.inr (.inr (.inr (.inl ⟨c, rfl⟩))))
  · rename_i c
    exact .inr (.inr (.inr (.inr (.inr (.inr ⟨c, decodeSystem_cases h⟩)))))
  · cases h

/-- A computational instruction ends by writing one value to its rd. -/
theorem exec_computed {i : Instr} {rd : RegIdx} (h : computedRd i = some rd) (s : State) :
    ∃ v, exec i s = writeResult rd v s := by
  cases i <;> simp [computedRd] at h <;> subst h <;> exact ⟨_, rfl⟩

theorem lsuWrite_frame {s u : State} {ea v : Word} (h : lsuWrite s ea v = .ok u) :
    (∀ q, u.readReg q = s.readReg q) ∧ u.pc = s.pc ∧ u.halted = s.halted ∧ u.params = s.params ∧
      u.port.trace = s.port.trace := by
  rcases lsuWrite_ok h with ⟨-, rfl⟩ | rfl | rfl | rfl <;> exact ⟨fun _ => rfl, rfl, rfl, rfl, rfl⟩

/-- Everything the run of a word can do where it completes: the no-op of an unrecognized word; a LOAD or a computational
instruction; a STORE; a BRANCH; a jump; ECALL; EBREAK, the only one that halts. -/
theorem runWord_next {w : Word} {s t : State} (h : runWord w s = .next t) :
    ((∃ e, decode w = .error e) ∧ t = (s.report ⟨s.pc, w⟩).retire s.nextPc .noValue) ∨
    (classOf w ∈ [OpClass.load, .lui, .auipc, .opImm, .op] ∧ (∀ rd rs1, decode w ≠ .ok (.ebreak rd rs1)) ∧
      ∃ u v, (u = s ∨ ∃ rest, u = { s with port := { s.port with input := rest } }) ∧
        t = (u.writeReg (rdOf w) v).retire s.nextPc (.value v)) ∨
    (classOf w = .store ∧ (∀ rd rs1, decode w ≠ .ok (.ebreak rd rs1)) ∧
      ∃ u ea v, lsuWrite s ea v = .ok u ∧ t = u.retire s.nextPc .noValue) ∨
    (classOf w = .branch ∧ (∀ rd rs1, decode w ≠ .ok (.ebreak rd rs1)) ∧
      ∃ c : Bool, t = s.retire (if c then branchTarget s (immBOf w) else s.nextPc)
        (.value (branchTarget s (immBOf w)))) ∨
    (classOf w ∈ [OpClass.jalr, .jal] ∧ (∀ rd rs1, decode w ≠ .ok (.ebreak rd rs1)) ∧
      ∃ x, t = (s.writeReg (rdOf w) s.nextPc).retire (clearBit0 x) (.value s.nextPc)) ∨
    (classOf w = .system ∧ (∀ rd rs1, decode w ≠ .ok (.ebreak rd rs1)) ∧ t = s.retire s.nextPc .noValue) ∨
    (classOf w = .system ∧ (∃ rd rs1, decode w = .ok (.ebreak rd rs1)) ∧
      ∃ bs, t = (((s.setPc s.nextPc).emitAll bs).halt).result .breakMark) := by
  rcases runWord_cases w s with ⟨i, hd, he⟩ | ⟨e, hd, he⟩
  · rw [he] at h
    have nb : (∀ rd rs1, i ≠ .ebreak rd rs1) → ∀ rd rs1, decode w ≠ .ok (.ebreak rd rs1) := by
      intro hn rd rs1 e
      rw [hd] at e; cases e; exact hn _ _ rfl
    rcases decode_ok hd with ⟨c, hi⟩ | ⟨c, hi⟩ | ⟨c, hi⟩ | ⟨c, hi⟩ | ⟨c, rfl⟩ | ⟨c, hi⟩ | ⟨c, hi⟩
    · rw [exec_load hi] at h
      refine .inr (.inl ⟨by simp [c], nb ?_, loadClass_next h⟩)
      rintro rd rs1 rfl; simp [loadForms] at hi
    · rw [exec_store hi] at h
      obtain ⟨u, h1, h2⟩ := storeClass_next h
      refine .inr (.inr (.inl ⟨c, nb ?_, u, _, _, h1, h2⟩))
      rintro rd rs1 rfl; simp [storeForms] at hi
    · rw [exec_branch hi] at h
      refine .inr (.inr (.inr (.inl ⟨c, nb ?_,
        branchTaken (s.readReg (rs1Of w)) (s.readReg (rs2Of w)), ?_⟩)))
      · rintro rd rs1 rfl; simp [branchForms] at hi
      · cases h; rfl
    · rw [exec_jalr hi] at h
      refine .inr (.inr (.inr (.inr (.inl ⟨by simp [c], nb ?_,
        s.readReg (rs1Of w) + (immIOf w).signExtend 32, ?_⟩))))
      · rintro rd rs1 rfl; simp [jalrForms] at hi
      · cases h; rfl
    · refine .inr (.inr (.inr (.inr (.inl ⟨by simp [c], nb ?_, s.pc + (immJOf w).signExtend 32, ?_⟩))))
      · rintro rd rs1 e; cases e
      · cases h; rfl
    · obtain ⟨v, hv⟩ := exec_computed hi s
      refine .inr (.inl ⟨by rcases c with c | c | c | c <;> simp [c], nb ?_, s, v, .inl rfl, ?_⟩)
      · rintro rd rs1 rfl; simp [computedRd] at hi
      · rw [hv] at h; cases h; rfl
    · rcases hi with rfl | rfl
      · refine .inr (.inr (.inr (.inr (.inr (.inl ⟨c, nb ?_, ?_⟩)))))
        · rintro rd rs1 e; cases e
        · cases h; rfl
      · refine .inr (.inr (.inr (.inr (.inr (.inr ⟨c, ⟨_, _, hd⟩, ?_⟩)))))
        rcases execEbreak_spec (rdOf w) (rs1Of w) s with ⟨bs, e⟩ | ⟨bs, q, e, -⟩ | e
        · have := h.symm.trans e; cases this; exact ⟨bs, rfl⟩
        · have := h.symm.trans e; cases this
        · have := h.symm.trans e; cases this
  · rw [he] at h; cases h; exact .inl ⟨⟨e, hd⟩, rfl⟩

/-- Every AddressFault the run of a word can raise: a LOAD's, a STORE's, or that of a semihosting string. -/
theorem runWord_addressFault {w : Word} {s : State} {info : AddressFault} {left : State}
    (h : runWord w s = .fault (.addressFault info left)) :
    (classOf w = .load ∧ ∃ ea, info = ⟨.load, ea, 4, s.pc⟩ ∧ left = s ∧ ¬ ea.toNat + 4 ≤ s.params.memSize) ∨
    (classOf w = .store ∧ ∃ ea, info = ⟨.store, ea, 4, s.pc⟩ ∧ left = s ∧ ¬ ea.toNat + 4 ≤ s.params.memSize) ∨
    (decode w = .ok (.ebreak 0#5 0#5) ∧ s.params.semihostEnabled = true ∧
      ∃ q bs, info = ⟨.semihost, q, 1, s.pc⟩ ∧ left = (s.setPc s.nextPc).emitAll bs ∧
        ¬ q.toNat + 1 ≤ s.params.memSize) := by
  rcases runWord_cases w s with ⟨i, hd, he⟩ | ⟨e, hd, he⟩
  · rw [he] at h
    rcases decode_ok hd with ⟨c, hi⟩ | ⟨c, hi⟩ | ⟨c, hi⟩ | ⟨c, hi⟩ | ⟨c, rfl⟩ | ⟨c, hi⟩ | ⟨c, hi⟩
    · rw [exec_load hi] at h
      rcases lsuRead_error (loadClass_fault h) with e | ⟨e, hn⟩
      · cases e
      · cases e; exact .inl ⟨c, _, rfl, rfl, hn⟩
    · rw [exec_store hi] at h
      obtain ⟨e, hn⟩ := lsuWrite_error (storeClass_fault h)
      cases e; exact .inr (.inl ⟨c, _, rfl, rfl, hn⟩)
    · rw [exec_branch hi] at h; cases h
    · rw [exec_jalr hi] at h; cases h
    · cases h
    · obtain ⟨v, hv⟩ := exec_computed hi s
      rw [hv] at h; cases h
    · rcases hi with rfl | rfl
      · cases h
      · have h' : execEbreak (rdOf w) (rs1Of w) s = _ := h
        have trig : s.params.semihostEnabled = true ∧ isSemihostTrigger (.ebreak (rdOf w) (rs1Of w)) = true := by
          unfold execEbreak at h'
          split at h'
          · rename_i hc; simpa using hc
          · cases h'
        obtain ⟨hs, ht⟩ := trig
        rw [isSemihostTrigger_ebreak] at ht
        rcases execEbreak_spec (rdOf w) (rs1Of w) s with ⟨bs, e⟩ | ⟨bs, q, e, hn⟩ | e
        · have := h'.symm.trans e; cases this
        · have := h'.symm.trans e; cases this
          exact .inr (.inr ⟨by rw [hd, ht.1, ht.2], hs, q, bs, rfl, rfl, hn⟩)
        · have := h'.symm.trans e; cases this
  · rw [he] at h; cases h

/-- The state that an AddressFault leaves: the one before the step, or, for a semihosting string, the one after the pc
update with bytes added to `out` (R252). -/
theorem step_addressFault {s : State} {info : AddressFault} {left : State}
    (h : step s = .fault (.addressFault info left)) :
    s.halted = false ∧ (left = s ∨ ∃ bs, left = (s.setPc s.nextPc).emitAll bs) := by
  rcases step_fault h with ⟨-, e⟩ | ⟨hh, -, e⟩ | ⟨hh, -, hr⟩
  · cases e
  · cases e; exact ⟨hh, .inl rfl⟩
  · rcases runWord_addressFault hr with ⟨-, -, -, e, -⟩ | ⟨-, -, -, e, -⟩ | ⟨-, -, -, bs, -, e, -⟩
    · exact ⟨hh, .inl e⟩
    · exact ⟨hh, .inl e⟩
    · exact ⟨hh, .inr ⟨bs, e⟩⟩

end Sys2Proof.Machine
end

