-- ==== Sys2Proof/Laws/Controller.lean ====
section
/-! SUPPORT. The Step Controller: what a turn is, which reports a step adds, how a command line's digits are read, and
where the memory dump stops. -/

namespace Sys2Proof.Machine

/-! ## Turns -/

theorem Session.turn_running {σ : Session} (he : σ.ended = none) (hm : σ.mode = .running) : σ.turn = σ.runStep := by
  simp [Session.turn, he, hm]

/-- At the prompt, the next line is carried out, unless it is a `step` whose step waits. -/
theorem Session.turn_stepping {σ : Session} {line : List Char} {rest : List (List Char)} (he : σ.ended = none)
    (hm : σ.mode = .stepping) (hc : σ.commands = line :: rest)
    (hw : ¬ (parseCommand line = .step ∧ σ.stepWaits = true)) :
    σ.turn = ({ σ with commands := rest }).command (parseCommand line) := by
  simp [Session.turn, he, hm, hc, hw]

/-- A step that completes does not wait. -/
theorem Session.stepWaits_next {σ : Session} {t : State} (h : step σ.machine = .next t) : σ.stepWaits = false := by
  simp [Session.stepWaits, h]

/-- The response to a step that completes (R255, R274). -/
theorem Session.runStep_next {σ : Session} {t : State} (h : step σ.machine = .next t) :
    σ.runStep = { σ with
      machine := t
      printed := σ.printed ++ newReports σ.machine t
      ended := if t.halted then some .breakReached else σ.ended } := by
  simp [Session.runStep, h, Session.afterStep]

/-! ## Reports (60_exceptions R255) -/

theorem newReports_append {s t : State} {rs : List UnrecognizedReport} (h : t.port.reports = s.port.reports ++ rs) :
    newReports s t = rs.map .unrecognized := by
  simp [newReports, h]

/-- A step that completes reports its word if the decoder rejects it, and nothing otherwise. -/
theorem step_newReports {s t : State} (h : step s = .next t) :
    ((∃ e, decode (wordAt s.mem s.pc.toNat) = .error e) ∧
      newReports s t = [.unrecognized ⟨s.pc, wordAt s.mem s.pc.toNat⟩]) ∨
    ((∃ i, decode (wordAt s.mem s.pc.toNat) = .ok i) ∧ newReports s t = []) := by
  obtain ⟨-, -, -, hr⟩ := step_next h
  rcases runWord_cases (wordAt s.mem s.pc.toNat) s with ⟨i, hd, -⟩ | ⟨e, hd, he⟩
  · refine .inr ⟨⟨i, hd⟩, newReports_append (rs := []) ?_⟩
    rcases runWord_next hr with ⟨⟨e, he⟩, -⟩ | ⟨-, -, u, v, hu, rfl⟩ | ⟨-, -, u, ea, v, hu, rfl⟩ | ⟨-, -, c, rfl⟩ |
      ⟨-, -, x, rfl⟩ | ⟨-, -, rfl⟩ | ⟨-, -, bs, rfl⟩
    · rw [hd] at he; cases he
    · rcases hu with rfl | ⟨rest, rfl⟩ <;> simp
    · rcases lsuWrite_ok hu with ⟨-, rfl⟩ | rfl | rfl | rfl <;> simp
    · simp
    · simp
    · simp
    · simp [State.emitAll]
  · rw [he] at hr; cases hr
    exact .inl ⟨⟨e, hd⟩, newReports_append (rs := [⟨s.pc, wordAt s.mem s.pc.toNat⟩]) (by simp)⟩

/-! ## Numbers on a command line (D39) -/

/-- A number with its last digit apart. -/
theorem digitsValue_concat (base : Nat) (c : Char) : ∀ (cs : List Char) (acc : Nat),
    digitsValue base acc (cs ++ [c]) =
      (digitsValue base acc cs).bind fun v => (digitValue c).bind fun d => if d < base then some (v * base + d) else none
  | [], acc => by cases h : digitValue c <;> simp [digitsValue, h]
  | b :: cs, acc => by
    simp only [List.cons_append, digitsValue]
    cases digitValue b with
    | none => rfl
    | some d =>
      dsimp only
      split
      · exact digitsValue_concat base c cs _
      · rfl

theorem digitValue_digitChar : ∀ d : Nat, d < 16 → digitValue (Nat.digitChar d) = some d := by decide

/-- The digits of a number in base 16 or less read as that number. -/
theorem digitsValue_toDigits {base : Nat} (h1 : 1 < base) (h2 : base ≤ 16) (n : Nat) :
    digitsValue base 0 (Nat.toDigits base n) = some n := by
  induction n using Nat.strongRecOn with
  | ind n ih =>
    by_cases hn : n < base
    · rw [Nat.toDigits_of_lt_base hn]
      simp [digitsValue, digitValue_digitChar n (by omega), hn]
    · rw [Nat.toDigits_of_base_le h1 (by omega), digitsValue_concat,
        ih (n / base) (Nat.div_lt_self (by omega) h1), digitValue_digitChar _ (by have := Nat.mod_lt n (show base > 0 by omega); omega)]
      have := Nat.mod_lt n (show base > 0 by omega)
      simp [this, Nat.div_add_mod']

/-- Leading zeros do not count. -/
theorem digitsValue_zeros {base : Nat} (h : 0 < base) (cs : List Char) : ∀ k : Nat,
    digitsValue base 0 (List.replicate k '0' ++ cs) = digitsValue base 0 cs
  | 0 => rfl
  | k + 1 => by
    have e : digitValue '0' = some 0 := by decide
    simpa [List.replicate_succ, digitsValue, e, h] using digitsValue_zeros h cs k

theorem digitValue_toLower_upper : ∀ k : Nat, k < 26 →
    digitValue (Char.ofNat (65 + k)).toLower = digitValue (Char.ofNat (65 + k)) := by decide

/-- Hexadecimal digits of either case have the same value (log 14). -/
theorem digitValue_toLower (c : Char) : digitValue c.toLower = digitValue c := by
  by_cases h : 65 ≤ c.toNat ∧ c.toNat ≤ 90
  · obtain ⟨k, hk, hc⟩ : ∃ k : Nat, k < 26 ∧ c = Char.ofNat (65 + k) :=
      ⟨c.toNat - 65, by omega, by rw [show 65 + (c.toNat - 65) = c.toNat by omega, Char.ofNat_toNat]⟩
    subst hc
    exact digitValue_toLower_upper k hk
  · rw [show c.toLower = c from dif_neg h]

theorem digitsValue_toLower (base : Nat) : ∀ (cs : List Char) (acc : Nat),
    digitsValue base acc (cs.map Char.toLower) = digitsValue base acc cs
  | [], _ => rfl
  | c :: cs, acc => by simp [digitsValue, digitValue_toLower, digitsValue_toLower base cs]

/-- A number in base 16 or less, with any leading zeros, and its letters of either case. -/
theorem parseNumber_digits {base : Nat} (h1 : 1 < base) (h2 : base ≤ 16) {n k : Nat} {cs : List Char}
    (h : cs.map Char.toLower = List.replicate k '0' ++ Nat.toDigits base n) : parseNumber base cs = some n := by
  have e : digitsValue base 0 cs = some n := by
    rw [← digitsValue_toLower, h, digitsValue_zeros (by omega), digitsValue_toDigits h1 h2]
  cases cs with
  | nil =>
    simp at h
  | cons c cs => exact e

theorem digitsValue_some {base v : Nat} : ∀ {cs : List Char} {acc : Nat}, digitsValue base acc cs = some v →
    ∀ c ∈ cs, ∃ d, digitValue c = some d ∧ d < base
  | [], _, _ => by simp
  | c :: cs, acc, h => by
    unfold digitsValue at h
    split at h
    · rename_i d hd
      split at h
      · rename_i hb
        intro x hx
        rcases List.mem_cons.1 hx with rfl | hx
        · exact ⟨d, hd, hb⟩
        · exact digitsValue_some h x hx
      · cases h
    · cases h

/-- What reads as a number is a non-empty list of digits of the base. -/
theorem parseNumber_some {base v : Nat} {cs : List Char} (h : parseNumber base cs = some v) :
    cs ≠ [] ∧ ∀ c ∈ cs, ∃ d, digitValue c = some d ∧ d < base := by
  cases cs with
  | nil => cases h
  | cons c cs => exact ⟨by simp, digitsValue_some h⟩

theorem digitValue_some {c : Char} {d : Nat} (h : digitValue c = some d) :
    ('0' ≤ c ∧ c ≤ '9' ∧ d < 10) ∨ (10 ≤ d ∧ ('a' ≤ c ∧ c ≤ 'f' ∨ 'A' ≤ c ∧ c ≤ 'F')) := by
  unfold digitValue at h
  split at h
  · rename_i hc; cases h
    have h1 : 48 ≤ c.toNat := hc.1
    have h2 : c.toNat ≤ 57 := hc.2
    exact .inl ⟨hc.1, hc.2, by omega⟩
  · split at h
    · rename_i hc; cases h
      have h1 : 97 ≤ c.toNat := hc.1
      exact .inr ⟨by omega, .inl hc⟩
    · split at h
      · rename_i hc; cases h
        have h1 : 65 ≤ c.toNat := hc.1
        exact .inr ⟨by omega, .inr hc⟩
      · cases h

/-- Neither a slash nor an x is a digit. -/
theorem parseNumber_mem {base v : Nat} {cs : List Char} (h : parseNumber base cs = some v) :
    '/' ∉ cs ∧ 'x' ∉ cs := by
  constructor <;> intro hm <;> obtain ⟨d, hd, -⟩ := (parseNumber_some h).2 _ hm <;> revert hd <;>
    simp [show digitValue '/' = none from by decide, show digitValue 'x' = none from by decide]

/-! ## Command lines (R267, D39) -/

theorem splitAtSlash_append : ∀ {cs ds : List Char}, '/' ∉ cs → splitAtSlash (cs ++ '/' :: ds) = some (cs, ds)
  | [], _, _ => rfl
  | c :: cs, ds, h => by
    rw [List.mem_cons, not_or] at h
    simp [splitAtSlash, Ne.symm h.1, splitAtSlash_append h.2]

theorem splitAtSlash_some : ∀ {line cs ds : List Char}, splitAtSlash line = some (cs, ds) → line = cs ++ '/' :: ds
  | c :: line, cs, ds, h => by
    unfold splitAtSlash at h
    split at h
    · rename_i hc; cases h; simp [hc]
    · obtain ⟨⟨a, b⟩, h1, h2⟩ := Option.map_eq_some_iff.1 h
      cases h2
      simp [splitAtSlash_some h1]

/-- ADDRESS without `0x`. -/
theorem parseAddress_plain {cs : List Char} {v : Nat} (h : parseNumber 16 cs = some v) : parseAddress cs = some v := by
  unfold parseAddress
  split
  · exact absurd (by simp) (parseNumber_mem h).2
  · exact h

/-- What reads as an ADDRESS reads as a number, after `0x` if it stands there. -/
theorem parseAddress_some {cs : List Char} {v : Nat} (h : parseAddress cs = some v) :
    parseNumber 16 cs = some v ∨ ∃ ds, cs = '0' :: 'x' :: ds ∧ parseNumber 16 ds = some v := by
  unfold parseAddress at h
  split at h
  · exact .inr ⟨_, rfl, h⟩
  · exact .inl h

/-- A dump line's two numbers. -/
theorem parseCommand_dump {cs ds : List Char} {n a : Nat} (hn : parseNumber 10 cs = some n)
    (ha : parseAddress ds = some a) : parseCommand ('x' :: ' ' :: (cs ++ '/' :: ds)) = .dump n a := by
  have ne : ∀ w : List Char, w.head? ≠ some 'x' → ¬ 'x' :: ' ' :: (cs ++ '/' :: ds) = w := by rintro w hw rfl; exact hw rfl
  unfold parseCommand
  rw [if_neg (ne _ (by decide)), if_neg (ne _ (by decide)), if_neg (ne _ (by decide)), if_neg (ne _ (by decide))]
  simp only [parseDump, splitAtSlash_append (parseNumber_mem hn).1, hn, ha]

/-- Every line that is read as a command is one of the four words or a dump line. -/
theorem parseCommand_cases (line : List Char) :
    line = "step".toList ∨ line = "continue".toList ∨ line = "exit".toList ∨ line = "reset".toList ∨
      parseCommand line = .ignored ∨ ∃ cs ds n a, line = 'x' :: ' ' :: (cs ++ '/' :: ds) ∧
        parseNumber 10 cs = some n ∧ parseAddress ds = some a := by
  unfold parseCommand
  split
  · exact .inl ‹_›
  split
  · exact .inr (.inl ‹_›)
  split
  · exact .inr (.inr (.inl ‹_›))
  split
  · exact .inr (.inr (.inr (.inl ‹_›)))
  refine .inr (.inr (.inr (.inr ?_)))
  split
  · rename_i cs
    unfold parseDump
    split
    · exact .inl rfl
    · rename_i count address hs
      split
      · rename_i n a hn ha
        exact .inr ⟨count, address, n, a, by rw [splitAtSlash_some hs], hn, ha⟩
      · exact .inl rfl
  · exact .inl rfl

/-! ## The memory dump (R272) -/

/-- A dump whose first byte is out of bounds (D39). -/
theorem dumpBytes_outOfBounds {s : State} {a : Nat} (h : ¬ a + 1 ≤ s.params.memSize) (n : Nat) :
    dumpBytes s (n + 1) a = ([], some a) := by
  simp [dumpBytes, State.memRead, State.inBounds, h]

end Sys2Proof.Machine
end

