-- ==== Sys2Proof/Laws/PerInstr.lean ====
section
/-! SUPPORT. Per instruction: the encoder's word is of the instruction's own row of spec/opcode_table.json. -/

namespace Sys2Proof.Laws.OwnRow

/-- The row with the instruction's mnemonic is in the table, and the encoded word matches it. -/
def Statement (i : Instr) : Prop :=
  ∃ r ∈ opcodeTable, r.mnemonic = i.mnemonic ∧ r.matchesWord (encode i) = true

theorem lb (rd rs1 : RegIdx) (imm : BitVec 12) : Statement (.lb rd rs1 imm) := by
  refine ⟨⟨"LB", 0x00000003#32, 0x0000707F#32⟩, by decide, rfl, ?_⟩
  show (encI imm rs1 0#3 rd opLoad &&& _ == _) = true
  rw [encI_masked]; decide
theorem lh (rd rs1 : RegIdx) (imm : BitVec 12) : Statement (.lh rd rs1 imm) := by
  refine ⟨⟨"LH", 0x00001003#32, 0x0000707F#32⟩, by decide, rfl, ?_⟩
  show (encI imm rs1 1#3 rd opLoad &&& _ == _) = true
  rw [encI_masked]; decide
theorem lw (rd rs1 : RegIdx) (imm : BitVec 12) : Statement (.lw rd rs1 imm) := by
  refine ⟨⟨"LW", 0x00002003#32, 0x0000707F#32⟩, by decide, rfl, ?_⟩
  show (encI imm rs1 2#3 rd opLoad &&& _ == _) = true
  rw [encI_masked]; decide
theorem lbu (rd rs1 : RegIdx) (imm : BitVec 12) : Statement (.lbu rd rs1 imm) := by
  refine ⟨⟨"LBU", 0x00004003#32, 0x0000707F#32⟩, by decide, rfl, ?_⟩
  show (encI imm rs1 4#3 rd opLoad &&& _ == _) = true
  rw [encI_masked]; decide
theorem lhu (rd rs1 : RegIdx) (imm : BitVec 12) : Statement (.lhu rd rs1 imm) := by
  refine ⟨⟨"LHU", 0x00005003#32, 0x0000707F#32⟩, by decide, rfl, ?_⟩
  show (encI imm rs1 5#3 rd opLoad &&& _ == _) = true
  rw [encI_masked]; decide
theorem load011 (rd rs1 : RegIdx) (imm : BitVec 12) : Statement (.load011 rd rs1 imm) := by
  refine ⟨⟨"LOAD.f3_011", 0x00003003#32, 0x0000707F#32⟩, by decide, rfl, ?_⟩
  show (encI imm rs1 3#3 rd opLoad &&& _ == _) = true
  rw [encI_masked]; decide
theorem load110 (rd rs1 : RegIdx) (imm : BitVec 12) : Statement (.load110 rd rs1 imm) := by
  refine ⟨⟨"LOAD.f3_110", 0x00006003#32, 0x0000707F#32⟩, by decide, rfl, ?_⟩
  show (encI imm rs1 6#3 rd opLoad &&& _ == _) = true
  rw [encI_masked]; decide
theorem load111 (rd rs1 : RegIdx) (imm : BitVec 12) : Statement (.load111 rd rs1 imm) := by
  refine ⟨⟨"LOAD.f3_111", 0x00007003#32, 0x0000707F#32⟩, by decide, rfl, ?_⟩
  show (encI imm rs1 7#3 rd opLoad &&& _ == _) = true
  rw [encI_masked]; decide
theorem sb (rs1 rs2 : RegIdx) (imm : BitVec 12) : Statement (.sb rs1 rs2 imm) := by
  refine ⟨⟨"SB", 0x00000023#32, 0x0000707F#32⟩, by decide, rfl, ?_⟩
  show (encS imm rs2 rs1 0#3 opStore &&& _ == _) = true
  rw [encS_masked]; decide
theorem sh (rs1 rs2 : RegIdx) (imm : BitVec 12) : Statement (.sh rs1 rs2 imm) := by
  refine ⟨⟨"SH", 0x00001023#32, 0x0000707F#32⟩, by decide, rfl, ?_⟩
  show (encS imm rs2 rs1 1#3 opStore &&& _ == _) = true
  rw [encS_masked]; decide
theorem sw (rs1 rs2 : RegIdx) (imm : BitVec 12) : Statement (.sw rs1 rs2 imm) := by
  refine ⟨⟨"SW", 0x00002023#32, 0x0000707F#32⟩, by decide, rfl, ?_⟩
  show (encS imm rs2 rs1 2#3 opStore &&& _ == _) = true
  rw [encS_masked]; decide
theorem store011 (rs1 rs2 : RegIdx) (imm : BitVec 12) : Statement (.store011 rs1 rs2 imm) := by
  refine ⟨⟨"STORE.f3_011", 0x00003023#32, 0x0000707F#32⟩, by decide, rfl, ?_⟩
  show (encS imm rs2 rs1 3#3 opStore &&& _ == _) = true
  rw [encS_masked]; decide
theorem store100 (rs1 rs2 : RegIdx) (imm : BitVec 12) : Statement (.store100 rs1 rs2 imm) := by
  refine ⟨⟨"STORE.f3_100", 0x00004023#32, 0x0000707F#32⟩, by decide, rfl, ?_⟩
  show (encS imm rs2 rs1 4#3 opStore &&& _ == _) = true
  rw [encS_masked]; decide
theorem store101 (rs1 rs2 : RegIdx) (imm : BitVec 12) : Statement (.store101 rs1 rs2 imm) := by
  refine ⟨⟨"STORE.f3_101", 0x00005023#32, 0x0000707F#32⟩, by decide, rfl, ?_⟩
  show (encS imm rs2 rs1 5#3 opStore &&& _ == _) = true
  rw [encS_masked]; decide
theorem store110 (rs1 rs2 : RegIdx) (imm : BitVec 12) : Statement (.store110 rs1 rs2 imm) := by
  refine ⟨⟨"STORE.f3_110", 0x00006023#32, 0x0000707F#32⟩, by decide, rfl, ?_⟩
  show (encS imm rs2 rs1 6#3 opStore &&& _ == _) = true
  rw [encS_masked]; decide
theorem store111 (rs1 rs2 : RegIdx) (imm : BitVec 12) : Statement (.store111 rs1 rs2 imm) := by
  refine ⟨⟨"STORE.f3_111", 0x00007023#32, 0x0000707F#32⟩, by decide, rfl, ?_⟩
  show (encS imm rs2 rs1 7#3 opStore &&& _ == _) = true
  rw [encS_masked]; decide
theorem beq (rs1 rs2 : RegIdx) (off : BitVec 13) : Statement (.beq rs1 rs2 off) := by
  refine ⟨⟨"BEQ", 0x00000063#32, 0x0000707F#32⟩, by decide, rfl, ?_⟩
  show (encB off rs2 rs1 0#3 opBranch &&& _ == _) = true
  rw [encB_masked]; decide
theorem bne (rs1 rs2 : RegIdx) (off : BitVec 13) : Statement (.bne rs1 rs2 off) := by
  refine ⟨⟨"BNE", 0x00001063#32, 0x0000707F#32⟩, by decide, rfl, ?_⟩
  show (encB off rs2 rs1 1#3 opBranch &&& _ == _) = true
  rw [encB_masked]; decide
theorem blt (rs1 rs2 : RegIdx) (off : BitVec 13) : Statement (.blt rs1 rs2 off) := by
  refine ⟨⟨"BLT", 0x00004063#32, 0x0000707F#32⟩, by decide, rfl, ?_⟩
  show (encB off rs2 rs1 4#3 opBranch &&& _ == _) = true
  rw [encB_masked]; decide
theorem bge (rs1 rs2 : RegIdx) (off : BitVec 13) : Statement (.bge rs1 rs2 off) := by
  refine ⟨⟨"BGE", 0x00005063#32, 0x0000707F#32⟩, by decide, rfl, ?_⟩
  show (encB off rs2 rs1 5#3 opBranch &&& _ == _) = true
  rw [encB_masked]; decide
theorem bltu (rs1 rs2 : RegIdx) (off : BitVec 13) : Statement (.bltu rs1 rs2 off) := by
  refine ⟨⟨"BLTU", 0x00006063#32, 0x0000707F#32⟩, by decide, rfl, ?_⟩
  show (encB off rs2 rs1 6#3 opBranch &&& _ == _) = true
  rw [encB_masked]; decide
theorem bgeu (rs1 rs2 : RegIdx) (off : BitVec 13) : Statement (.bgeu rs1 rs2 off) := by
  refine ⟨⟨"BGEU", 0x00007063#32, 0x0000707F#32⟩, by decide, rfl, ?_⟩
  show (encB off rs2 rs1 7#3 opBranch &&& _ == _) = true
  rw [encB_masked]; decide
theorem branch010 (rs1 rs2 : RegIdx) (off : BitVec 13) : Statement (.branch010 rs1 rs2 off) := by
  refine ⟨⟨"BRANCH.f3_010", 0x00002063#32, 0x0000707F#32⟩, by decide, rfl, ?_⟩
  show (encB off rs2 rs1 2#3 opBranch &&& _ == _) = true
  rw [encB_masked]; decide
theorem branch011 (rs1 rs2 : RegIdx) (off : BitVec 13) : Statement (.branch011 rs1 rs2 off) := by
  refine ⟨⟨"BRANCH.f3_011", 0x00003063#32, 0x0000707F#32⟩, by decide, rfl, ?_⟩
  show (encB off rs2 rs1 3#3 opBranch &&& _ == _) = true
  rw [encB_masked]; decide
theorem jalr (rd rs1 : RegIdx) (imm : BitVec 12) : Statement (.jalr rd rs1 imm) := by
  refine ⟨⟨"JALR", 0x00000067#32, 0x0000707F#32⟩, by decide, rfl, ?_⟩
  show (encI imm rs1 0#3 rd opJalr &&& _ == _) = true
  rw [encI_masked]; decide
theorem jalr001 (rd rs1 : RegIdx) (imm : BitVec 12) : Statement (.jalr001 rd rs1 imm) := by
  refine ⟨⟨"JALR.f3_001", 0x00001067#32, 0x0000707F#32⟩, by decide, rfl, ?_⟩
  show (encI imm rs1 1#3 rd opJalr &&& _ == _) = true
  rw [encI_masked]; decide
theorem jalr010 (rd rs1 : RegIdx) (imm : BitVec 12) : Statement (.jalr010 rd rs1 imm) := by
  refine ⟨⟨"JALR.f3_010", 0x00002067#32, 0x0000707F#32⟩, by decide, rfl, ?_⟩
  show (encI imm rs1 2#3 rd opJalr &&& _ == _) = true
  rw [encI_masked]; decide
theorem jalr011 (rd rs1 : RegIdx) (imm : BitVec 12) : Statement (.jalr011 rd rs1 imm) := by
  refine ⟨⟨"JALR.f3_011", 0x00003067#32, 0x0000707F#32⟩, by decide, rfl, ?_⟩
  show (encI imm rs1 3#3 rd opJalr &&& _ == _) = true
  rw [encI_masked]; decide
theorem jalr100 (rd rs1 : RegIdx) (imm : BitVec 12) : Statement (.jalr100 rd rs1 imm) := by
  refine ⟨⟨"JALR.f3_100", 0x00004067#32, 0x0000707F#32⟩, by decide, rfl, ?_⟩
  show (encI imm rs1 4#3 rd opJalr &&& _ == _) = true
  rw [encI_masked]; decide
theorem jalr101 (rd rs1 : RegIdx) (imm : BitVec 12) : Statement (.jalr101 rd rs1 imm) := by
  refine ⟨⟨"JALR.f3_101", 0x00005067#32, 0x0000707F#32⟩, by decide, rfl, ?_⟩
  show (encI imm rs1 5#3 rd opJalr &&& _ == _) = true
  rw [encI_masked]; decide
theorem jalr110 (rd rs1 : RegIdx) (imm : BitVec 12) : Statement (.jalr110 rd rs1 imm) := by
  refine ⟨⟨"JALR.f3_110", 0x00006067#32, 0x0000707F#32⟩, by decide, rfl, ?_⟩
  show (encI imm rs1 6#3 rd opJalr &&& _ == _) = true
  rw [encI_masked]; decide
theorem jalr111 (rd rs1 : RegIdx) (imm : BitVec 12) : Statement (.jalr111 rd rs1 imm) := by
  refine ⟨⟨"JALR.f3_111", 0x00007067#32, 0x0000707F#32⟩, by decide, rfl, ?_⟩
  show (encI imm rs1 7#3 rd opJalr &&& _ == _) = true
  rw [encI_masked]; decide
theorem jal (rd : RegIdx) (off : BitVec 21) : Statement (.jal rd off) := by
  refine ⟨⟨"JAL", 0x0000006F#32, 0x0000007F#32⟩, by decide, rfl, ?_⟩
  show (encJ off rd opJal &&& _ == _) = true
  rw [encJ_masked]; decide
theorem lui (rd : RegIdx) (imm : BitVec 20) : Statement (.lui rd imm) := by
  refine ⟨⟨"LUI", 0x00000037#32, 0x0000007F#32⟩, by decide, rfl, ?_⟩
  show (encU imm rd opLui &&& _ == _) = true
  rw [encU_masked]; decide
theorem auipc (rd : RegIdx) (imm : BitVec 20) : Statement (.auipc rd imm) := by
  refine ⟨⟨"AUIPC", 0x00000017#32, 0x0000007F#32⟩, by decide, rfl, ?_⟩
  show (encU imm rd opAuipc &&& _ == _) = true
  rw [encU_masked]; decide
theorem addi (rd rs1 : RegIdx) (imm : BitVec 12) : Statement (.addi rd rs1 imm) := by
  refine ⟨⟨"ADDI", 0x00000013#32, 0x0000707F#32⟩, by decide, rfl, ?_⟩
  show (encI imm rs1 0#3 rd opOpImm &&& _ == _) = true
  rw [encI_masked]; decide
theorem slti (rd rs1 : RegIdx) (imm : BitVec 12) : Statement (.slti rd rs1 imm) := by
  refine ⟨⟨"SLTI", 0x00002013#32, 0x0000707F#32⟩, by decide, rfl, ?_⟩
  show (encI imm rs1 2#3 rd opOpImm &&& _ == _) = true
  rw [encI_masked]; decide
theorem sltiu (rd rs1 : RegIdx) (imm : BitVec 12) : Statement (.sltiu rd rs1 imm) := by
  refine ⟨⟨"SLTIU", 0x00003013#32, 0x0000707F#32⟩, by decide, rfl, ?_⟩
  show (encI imm rs1 3#3 rd opOpImm &&& _ == _) = true
  rw [encI_masked]; decide
theorem xori (rd rs1 : RegIdx) (imm : BitVec 12) : Statement (.xori rd rs1 imm) := by
  refine ⟨⟨"XORI", 0x00004013#32, 0x0000707F#32⟩, by decide, rfl, ?_⟩
  show (encI imm rs1 4#3 rd opOpImm &&& _ == _) = true
  rw [encI_masked]; decide
theorem ori (rd rs1 : RegIdx) (imm : BitVec 12) : Statement (.ori rd rs1 imm) := by
  refine ⟨⟨"ORI", 0x00006013#32, 0x0000707F#32⟩, by decide, rfl, ?_⟩
  show (encI imm rs1 6#3 rd opOpImm &&& _ == _) = true
  rw [encI_masked]; decide
theorem andi (rd rs1 : RegIdx) (imm : BitVec 12) : Statement (.andi rd rs1 imm) := by
  refine ⟨⟨"ANDI", 0x00007013#32, 0x0000707F#32⟩, by decide, rfl, ?_⟩
  show (encI imm rs1 7#3 rd opOpImm &&& _ == _) = true
  rw [encI_masked]; decide
theorem slli (rd rs1 : RegIdx) (shamt : BitVec 5) : Statement (.slli rd rs1 shamt) := by
  refine ⟨⟨"SLLI", 0x00001013#32, 0xFE00707F#32⟩, by decide, rfl, ?_⟩
  show (encR 0x00#7 shamt rs1 1#3 rd opOpImm &&& _ == _) = true
  rw [encR_masked]; decide
theorem srli (rd rs1 : RegIdx) (shamt : BitVec 5) : Statement (.srli rd rs1 shamt) := by
  refine ⟨⟨"SRLI", 0x00005013#32, 0xFE00707F#32⟩, by decide, rfl, ?_⟩
  show (encR 0x00#7 shamt rs1 5#3 rd opOpImm &&& _ == _) = true
  rw [encR_masked]; decide
theorem srai (rd rs1 : RegIdx) (shamt : BitVec 5) : Statement (.srai rd rs1 shamt) := by
  refine ⟨⟨"SRAI", 0x40005013#32, 0xFE00707F#32⟩, by decide, rfl, ?_⟩
  show (encR 0x20#7 shamt rs1 5#3 rd opOpImm &&& _ == _) = true
  rw [encR_masked]; decide
theorem add (rd rs1 rs2 : RegIdx) : Statement (.add rd rs1 rs2) := by
  refine ⟨⟨"ADD", 0x00000033#32, 0xFE00707F#32⟩, by decide, rfl, ?_⟩
  show (encR 0x00#7 rs2 rs1 0#3 rd opOp &&& _ == _) = true
  rw [encR_masked]; decide
theorem sub (rd rs1 rs2 : RegIdx) : Statement (.sub rd rs1 rs2) := by
  refine ⟨⟨"SUB", 0x40000033#32, 0xFE00707F#32⟩, by decide, rfl, ?_⟩
  show (encR 0x20#7 rs2 rs1 0#3 rd opOp &&& _ == _) = true
  rw [encR_masked]; decide
theorem sll (rd rs1 rs2 : RegIdx) : Statement (.sll rd rs1 rs2) := by
  refine ⟨⟨"SLL", 0x00001033#32, 0xFE00707F#32⟩, by decide, rfl, ?_⟩
  show (encR 0x00#7 rs2 rs1 1#3 rd opOp &&& _ == _) = true
  rw [encR_masked]; decide
theorem slt (rd rs1 rs2 : RegIdx) : Statement (.slt rd rs1 rs2) := by
  refine ⟨⟨"SLT", 0x00002033#32, 0xFE00707F#32⟩, by decide, rfl, ?_⟩
  show (encR 0x00#7 rs2 rs1 2#3 rd opOp &&& _ == _) = true
  rw [encR_masked]; decide
theorem sltu (rd rs1 rs2 : RegIdx) : Statement (.sltu rd rs1 rs2) := by
  refine ⟨⟨"SLTU", 0x00003033#32, 0xFE00707F#32⟩, by decide, rfl, ?_⟩
  show (encR 0x00#7 rs2 rs1 3#3 rd opOp &&& _ == _) = true
  rw [encR_masked]; decide
theorem xor (rd rs1 rs2 : RegIdx) : Statement (.xor rd rs1 rs2) := by
  refine ⟨⟨"XOR", 0x00004033#32, 0xFE00707F#32⟩, by decide, rfl, ?_⟩
  show (encR 0x00#7 rs2 rs1 4#3 rd opOp &&& _ == _) = true
  rw [encR_masked]; decide
theorem srl (rd rs1 rs2 : RegIdx) : Statement (.srl rd rs1 rs2) := by
  refine ⟨⟨"SRL", 0x00005033#32, 0xFE00707F#32⟩, by decide, rfl, ?_⟩
  show (encR 0x00#7 rs2 rs1 5#3 rd opOp &&& _ == _) = true
  rw [encR_masked]; decide
theorem sra (rd rs1 rs2 : RegIdx) : Statement (.sra rd rs1 rs2) := by
  refine ⟨⟨"SRA", 0x40005033#32, 0xFE00707F#32⟩, by decide, rfl, ?_⟩
  show (encR 0x20#7 rs2 rs1 5#3 rd opOp &&& _ == _) = true
  rw [encR_masked]; decide
theorem or (rd rs1 rs2 : RegIdx) : Statement (.or rd rs1 rs2) := by
  refine ⟨⟨"OR", 0x00006033#32, 0xFE00707F#32⟩, by decide, rfl, ?_⟩
  show (encR 0x00#7 rs2 rs1 6#3 rd opOp &&& _ == _) = true
  rw [encR_masked]; decide
theorem and (rd rs1 rs2 : RegIdx) : Statement (.and rd rs1 rs2) := by
  refine ⟨⟨"AND", 0x00007033#32, 0xFE00707F#32⟩, by decide, rfl, ?_⟩
  show (encR 0x00#7 rs2 rs1 7#3 rd opOp &&& _ == _) = true
  rw [encR_masked]; decide
theorem ecall (rd rs1 : RegIdx) : Statement (.ecall rd rs1) := by
  refine ⟨⟨"ECALL", 0x00000073#32, 0xFFF0707F#32⟩, by decide, rfl, ?_⟩
  show (encI 0#12 rs1 0#3 rd opSystem &&& _ == _) = true
  rw [encI_masked_system]; decide
theorem ebreak (rd rs1 : RegIdx) : Statement (.ebreak rd rs1) := by
  refine ⟨⟨"EBREAK", 0x00100073#32, 0xFFF0707F#32⟩, by decide, rfl, ?_⟩
  show (encI 1#12 rs1 0#3 rd opSystem &&& _ == _) = true
  rw [encI_masked_system]; decide

end Sys2Proof.Laws.OwnRow
end

