-- ==== Sys2Proof/Machine/Pseudo.lean ====
section
/-! DEFINITION. The standard assembler's pseudo-instructions and their expansions (30_encoding R106), as instruction
lists. The source defines none; what an expansion does here follows from the class rules. `fence` and the CSR forms
expand to words that are no instruction of the table (R239, R240). The order of the two registers of `bgt`, `ble`,
`bgtu`, `bleu`, `blez` and `bgtz` is the standard assembler's (log 16); a BRANCH compares equality, so it has no
effect here. -/

namespace Sys2Proof.Machine

def pseudoNop : List Instr := [.addi 0 0 0]
def pseudoMv (rd rs : RegIdx) : List Instr := [.addi rd rs 0]
def pseudoLi (rd : RegIdx) (k : BitVec 12) : List Instr := [.addi rd 0 k]
def pseudoLiLarge (rd : RegIdx) (hi : BitVec 20) (lo : BitVec 12) : List Instr := [.lui rd hi, .addi rd rd lo]
def pseudoLa (rd : RegIdx) (hi : BitVec 20) (lo : BitVec 12) : List Instr := [.auipc rd hi, .addi rd rd lo]
def pseudoNot (rd rs : RegIdx) : List Instr := [.xori rd rs (BitVec.allOnes 12)]
def pseudoNeg (rd rs : RegIdx) : List Instr := [.sub rd 0 rs]
def pseudoSeqz (rd rs : RegIdx) : List Instr := [.sltiu rd rs 1]
def pseudoSnez (rd rs : RegIdx) : List Instr := [.sltu rd 0 rs]
def pseudoSltz (rd rs : RegIdx) : List Instr := [.slt rd rs 0]
def pseudoSgtz (rd rs : RegIdx) : List Instr := [.slt rd 0 rs]
def pseudoZextB (rd rs : RegIdx) : List Instr := [.andi rd rs 255]
def pseudoBeqz (rs : RegIdx) (off : BitVec 13) : List Instr := [.beq rs 0 off]
def pseudoBnez (rs : RegIdx) (off : BitVec 13) : List Instr := [.bne rs 0 off]
def pseudoBlez (rs : RegIdx) (off : BitVec 13) : List Instr := [.bge 0 rs off]
def pseudoBgez (rs : RegIdx) (off : BitVec 13) : List Instr := [.bge rs 0 off]
def pseudoBltz (rs : RegIdx) (off : BitVec 13) : List Instr := [.blt rs 0 off]
def pseudoBgtz (rs : RegIdx) (off : BitVec 13) : List Instr := [.blt 0 rs off]
def pseudoBgt (rs rt : RegIdx) (off : BitVec 13) : List Instr := [.blt rt rs off]
def pseudoBle (rs rt : RegIdx) (off : BitVec 13) : List Instr := [.bge rt rs off]
def pseudoBgtu (rs rt : RegIdx) (off : BitVec 13) : List Instr := [.bltu rt rs off]
def pseudoBleu (rs rt : RegIdx) (off : BitVec 13) : List Instr := [.bgeu rt rs off]
def pseudoJ (off : BitVec 21) : List Instr := [.jal 0 off]
def pseudoJal (off : BitVec 21) : List Instr := [.jal 1 off]
def pseudoJr (rs : RegIdx) : List Instr := [.jalr 0 rs 0]
def pseudoJalr (rs : RegIdx) : List Instr := [.jalr 1 rs 0]
def pseudoRet : List Instr := [.jalr 0 1 0]
def pseudoCall (hi : BitVec 20) (lo : BitVec 12) : List Instr := [.auipc 1 hi, .jalr 1 1 lo]
def pseudoTail (hi : BitVec 20) (lo : BitVec 12) : List Instr := [.auipc 6 hi, .jalr 0 6 lo]
def pseudoLb (rd : RegIdx) (hi : BitVec 20) (lo : BitVec 12) : List Instr := [.auipc rd hi, .lb rd rd lo]
def pseudoLh (rd : RegIdx) (hi : BitVec 20) (lo : BitVec 12) : List Instr := [.auipc rd hi, .lh rd rd lo]
def pseudoLw (rd : RegIdx) (hi : BitVec 20) (lo : BitVec 12) : List Instr := [.auipc rd hi, .lw rd rd lo]
def pseudoSb (rs rt : RegIdx) (hi : BitVec 20) (lo : BitVec 12) : List Instr := [.auipc rt hi, .sb rt rs lo]
def pseudoSh (rs rt : RegIdx) (hi : BitVec 20) (lo : BitVec 12) : List Instr := [.auipc rt hi, .sh rt rs lo]
def pseudoSw (rs rt : RegIdx) (hi : BitVec 20) (lo : BitVec 12) : List Instr := [.auipc rt hi, .sw rt rs lo]

end Sys2Proof.Machine
end

