-- ==== Sys2Proof/Tests/Slice0.lean ====
section
/-! SUPPORT. Tests. Every expected value is the spec's: a vector of 95_test_vectors.md is named by its id (V-LD1, H-3,
W13 ...), anything else by its rule. After them, for every statement that has hypotheses, a witness that meets them. -/

namespace Sys2Proof.Tests

open Sys2Proof.Machine

/-! ## Helpers -/

def putBytes (bytes : List (Nat × Byte)) (m : Memory) : Memory :=
  match bytes with
  | [] => m
  | (a, b) :: rest => putBytes rest (writeByte m a b)

def putRegs (regs : List (RegIdx × Word)) (s : State) : State :=
  match regs with
  | [] => s
  | (r, v) :: rest => putRegs rest (s.writeReg r v)

/-- The state of a vector: the reset state, with pc, the word at pc, registers and bytes as the vector starts. -/
def start (pc : Word) (w : Nat) (regs : List (RegIdx × Word)) (bytes : List (Nat × Byte)) : State :=
  (putRegs regs { State.reset with mem := putBytes bytes [], pc := pc }).withFetchWord 32 w

/-- The same at pc 0x100. -/
def vec (w : Nat) (regs : List (RegIdx × Word)) (bytes : List (Nat × Byte)) : State := start 0x100#32 w regs bytes

/-- With the three peripherals and these input lines. -/
def withPeriph (s : State) (lines : List (List Byte)) : State :=
  { s with params := { s.params with periphEnabled := true }, port := { s.port with input := lines } }

def withSemihost (s : State) : State := { s with params := { s.params with semihostEnabled := true } }

def withReading (s : State) (r : BranchImmExec) : State := { s with params := { s.params with branchImmExec := r } }

/-- The outcome is a next state that p accepts. -/
def nextWith (o : Host.Outcome State Fault Refusal) (p : State → Bool) : Bool :=
  match o with
  | .next t => p t
  | _ => false

/-- The outcome is this AddressFault, and leaves a state that p accepts. -/
def faultWith (o : Host.Outcome State Fault Refusal) (info : AddressFault) (p : State → Bool) : Bool :=
  match o with
  | .fault (.addressFault i left) => i == info && p left
  | _ => false

/-- The step ends at this pc with this result, and these registers hold these values. -/
def ends (s : State) (pc : Word) (r : StepResult) (regs : List (RegIdx × Word)) : Bool :=
  nextWith (step s) fun t =>
    t.pc == pc && t.port.trace == [r] && regs.all fun q => t.readReg q.1 == q.2

/-- The step ends at pc 0x104 without a result, and these bytes stand at this address. -/
def stores (s : State) (a : Nat) (bs : List Byte) : Bool :=
  nextWith (step s) fun t =>
    t.pc == 0x104#32 && t.port.trace == [.noValue] && (List.range bs.length).map (fun k => readByte t.mem (a + k)) == bs

/-! ## Well-formedness: an odd offset has no encoding (30_encoding R76, R78) -/

theorem test_illFormed_odd_branch_offsets :
    (Instr.beq 1 2 7#13).wellFormed = false ∧
    (Instr.bne 1 2 7#13).wellFormed = false ∧
    (Instr.blt 1 2 7#13).wellFormed = false ∧
    (Instr.bge 1 2 7#13).wellFormed = false ∧
    (Instr.bltu 1 2 7#13).wellFormed = false ∧
    (Instr.bgeu 1 2 7#13).wellFormed = false ∧
    (Instr.branch010 1 2 7#13).wellFormed = false ∧
    (Instr.branch011 1 2 7#13).wellFormed = false := by decide

theorem test_illFormed_odd_jal_offset : (Instr.jal 1 0x1FFFFF#21).wellFormed = false := by decide

theorem test_wellFormed_boundary_offsets :
    (Instr.beq 1 2 0x1FFE#13).wellFormed = true ∧ (Instr.jal 1 0x100000#21).wellFormed = true ∧
    (Instr.ecall 31 31).wellFormed = true := by decide

/-! ## Decoding: a word of every row, written out from R71-R94 or taken from a vector -/

theorem test_decode_load :
    decode 0x00008183#32 = .ok (.lb 3 1 0) ∧
    decode 0x00009183#32 = .ok (.lh 3 1 0) ∧
    decode 0xFFC0A183#32 = .ok (.lw 3 1 0xFFC#12) ∧
    decode 0x0000C183#32 = .ok (.lbu 3 1 0) ∧
    decode 0x0000D183#32 = .ok (.lhu 3 1 0) ∧
    decode 0x0000B183#32 = .ok (.load011 3 1 0) ∧
    decode 0x0000E183#32 = .ok (.load110 3 1 0) ∧
    decode 0x0000F183#32 = .ok (.load111 3 1 0) := by decide

theorem test_decode_store :
    decode 0x00208023#32 = .ok (.sb 1 2 0) ∧
    decode 0x00209023#32 = .ok (.sh 1 2 0) ∧
    decode 0x7E20AFA3#32 = .ok (.sw 1 2 2047#12) ∧
    decode 0x0020B023#32 = .ok (.store011 1 2 0) ∧
    decode 0x0020C023#32 = .ok (.store100 1 2 0) ∧
    decode 0x0020D023#32 = .ok (.store101 1 2 0) ∧
    decode 0x0020E023#32 = .ok (.store110 1 2 0) ∧
    decode 0x0020F023#32 = .ok (.store111 1 2 0) := by decide

theorem test_decode_branch :
    decode 0x00208463#32 = .ok (.beq 1 2 8) ∧
    decode 0x00209463#32 = .ok (.bne 1 2 8) ∧
    decode 0x0020C463#32 = .ok (.blt 1 2 8) ∧
    decode 0x0020D463#32 = .ok (.bge 1 2 8) ∧
    decode 0x0020E463#32 = .ok (.bltu 1 2 8) ∧
    decode 0x0020F463#32 = .ok (.bgeu 1 2 8) ∧
    decode 0x0020A463#32 = .ok (.branch010 1 2 8) ∧
    decode 0x0020B463#32 = .ok (.branch011 1 2 8) ∧
    decode 0x80000063#32 = .ok (.beq 0 0 0x1000#13) ∧
    decode 0x000000E3#32 = .ok (.beq 0 0 0x800#13) ∧
    decode 0x7E000F63#32 = .ok (.beq 0 0 2046#13) := by decide

theorem test_decode_jalr :
    decode 0x004280E7#32 = .ok (.jalr 1 5 4) ∧
    decode 0x004290E7#32 = .ok (.jalr001 1 5 4) ∧
    decode 0x0042A0E7#32 = .ok (.jalr010 1 5 4) ∧
    decode 0x0042B0E7#32 = .ok (.jalr011 1 5 4) ∧
    decode 0x0042C0E7#32 = .ok (.jalr100 1 5 4) ∧
    decode 0x0042D0E7#32 = .ok (.jalr101 1 5 4) ∧
    decode 0x0042E0E7#32 = .ok (.jalr110 1 5 4) ∧
    decode 0x0042F0E7#32 = .ok (.jalr111 1 5 4) := by decide

theorem test_decode_jal_lui_auipc :
    decode 0xFF5FF06F#32 = .ok (.jal 0 0x1FFFF4#21) ∧
    decode 0x7FFFF2EF#32 = .ok (.jal 5 0x0FFFFE#21) ∧
    decode 0x800002EF#32 = .ok (.jal 5 0x100000#21) ∧
    decode 0x000800B7#32 = .ok (.lui 1 0x80#20) ∧
    decode 0x12345217#32 = .ok (.auipc 4 0x12345#20) := by decide

theorem test_decode_opImm :
    decode 0xFFF30293#32 = .ok (.addi 5 6 0xFFF#12) ∧
    decode 0x00532293#32 = .ok (.slti 5 6 5) ∧
    decode 0xFFF33293#32 = .ok (.sltiu 5 6 0xFFF#12) ∧
    decode 0xFFF34293#32 = .ok (.xori 5 6 0xFFF#12) ∧
    decode 0xFFF36293#32 = .ok (.ori 5 6 0xFFF#12) ∧
    decode 0xFFF37293#32 = .ok (.andi 5 6 0xFFF#12) ∧
    decode 0x00331293#32 = .ok (.slli 5 6 3) ∧
    decode 0x00335293#32 = .ok (.srli 5 6 3) ∧
    decode 0x41F35293#32 = .ok (.srai 5 6 31) := by decide

theorem test_decode_op :
    decode 0x002081B3#32 = .ok (.add 3 1 2) ∧
    decode 0x402081B3#32 = .ok (.sub 3 1 2) ∧
    decode 0x002091B3#32 = .ok (.sll 3 1 2) ∧
    decode 0x0020A1B3#32 = .ok (.slt 3 1 2) ∧
    decode 0x0020B1B3#32 = .ok (.sltu 3 1 2) ∧
    decode 0x0020C1B3#32 = .ok (.xor 3 1 2) ∧
    decode 0x0020D1B3#32 = .ok (.srl 3 1 2) ∧
    decode 0x4020D1B3#32 = .ok (.sra 3 1 2) ∧
    decode 0x0020E1B3#32 = .ok (.or 3 1 2) ∧
    decode 0x0020F1B3#32 = .ok (.and 3 1 2) := by decide

theorem test_decode_system :
    decode 0x00000073#32 = .ok (.ecall 0 0) ∧
    decode 0x00100073#32 = .ok (.ebreak 0 0) ∧
    decode 0x001000F3#32 = .ok (.ebreak 1 0) := by decide

/-- BEQ x0,x0,-8 bit by bit (R76): w[31], w[30:25], rs2, rs1, funct3, w[11:8], w[7], opcode. -/
theorem test_decode_beq_bits :
    decode (0b1#1 ++ 0b111111#6 ++ 0b00000#5 ++ 0b00000#5 ++ 0b000#3 ++ 0b1100#4 ++ 0b1#1 ++ 0b1100011#7) =
      .ok (.beq 0 0 0b1111111111000#13) := by decide

/-- The words of V-OI23, V-OI24, V-OP20 - V-OP22, V-SY10 - V-SY14 and V-UN1 - V-UN5 are no instruction. -/
theorem test_decode_rejects :
    decode 0x40331293#32 = .error .opImmFunct7 ∧ decode 0x02335293#32 = .error .opImmFunct7 ∧
    decode 0x022081B3#32 = .error .opFunct ∧ decode 0x402091B3#32 = .error .opFunct ∧
    decode 0x4020F1B3#32 = .error .opFunct ∧ decode 0xC00020F3#32 = .error .system ∧
    decode 0x30200073#32 = .error .system ∧ decode 0x00200073#32 = .error .system ∧
    decode 0x00001073#32 = .error .system ∧ decode 0x00000000#32 = .error .opcode ∧
    decode 0xFFFFFFFF#32 = .error .opcode ∧ decode 0x0FF0000F#32 = .error .opcode ∧
    decode 0x0020A0AF#32 = .error .opcode := by decide

/-- The bytes of the EBREAK word (W1). -/
theorem test_ebreak_bytes : wordBytes 0x00100073#32 = [0x73#8, 0x00#8, 0x10#8, 0x00#8] := by decide

theorem test_decodeBytes :
    decodeBytes [0x93#8, 0x00#8, 0x50#8, 0x00#8, 0x13#8] = some (.ok (.addi 1 0 5), [0x13#8]) ∧
    decodeBytes [0x93#8, 0x00#8, 0x50#8] = none := by decide

theorem test_decodeTableWord :
    decodeTableWord 32 0x00500093 = some (.addi 1 0 5) ∧ decodeTableWord 32 0x0FF0000F = none := by decide

/-! ## Immediates: rows of the table of 95_test_vectors Part 2 -/

theorem test_immediates_row_FE000CE3 :
    (immIOf 0xFE000CE3#32).toInt = -32 ∧ (immSOf 0xFE000CE3#32).toInt = -7 ∧ (immBOf 0xFE000CE3#32).toNat = 8184 ∧
    (immBOf 0xFE000CE3#32).toInt = -8 ∧ immBExec .subAt11 (immBOf 0xFE000CE3#32) = 4088 ∧
    immBExec .sext12 (immBOf 0xFE000CE3#32) = -8 ∧ immBExec .orAt11 (immBOf 0xFE000CE3#32) = -8 ∧
    (immUOf 0xFE000CE3#32) = 0xFE000#20 ∧ (immJOf 0xFE000CE3#32).toInt = -1046560 ∧
    (imm5 (immIOf 0xFE000CE3#32)).toNat = 0 := by decide

theorem test_immediates_row_FFFFF000 :
    (immIOf 0xFFFFF000#32).toInt = -1 ∧ (immSOf 0xFFFFF000#32).toInt = -32 ∧ (immBOf 0xFFFFF000#32).toNat = 6112 ∧
    (immBOf 0xFFFFF000#32).toInt = -2080 ∧ immBExec .subAt11 (immBOf 0xFFFFF000#32) = 6112 ∧
    immBExec .sext12 (immBOf 0xFFFFF000#32) = 2016 ∧ immBExec .orAt11 (immBOf 0xFFFFF000#32) = 6112 ∧
    (immJOf 0xFFFFF000#32).toInt = -2 ∧ (imm5 (immIOf 0xFFFFF000#32)).toNat = 31 := by decide

/-! ## One step of every instruction -/

/-- V-LD1. -/
theorem test_lw : ends (vec 0x0000A183 [(1, 0x1000#32)]
    [(0x1000, 0x80#8), (0x1001, 0xFF#8), (0x1002, 0x12#8), (0x1003, 0x34#8)])
    0x104#32 (.value 0x3412FF80#32) [(3, 0x3412FF80#32)] = true := by decide

/-- V-LD2. -/
theorem test_lb : ends (vec 0x00008183 [(1, 0x1000#32)]
    [(0x1000, 0x80#8), (0x1001, 0xFF#8), (0x1002, 0x12#8), (0x1003, 0x34#8)])
    0x104#32 (.value 0x3412FF80#32) [(3, 0x3412FF80#32)] = true := by decide

/-- V-LD3. -/
theorem test_lh : ends (vec 0x00009183 [(1, 0x1000#32)]
    [(0x1000, 0x80#8), (0x1001, 0xFF#8), (0x1002, 0x12#8), (0x1003, 0x34#8)])
    0x104#32 (.value 0x3412FF80#32) [(3, 0x3412FF80#32)] = true := by decide

/-- V-LD4. -/
theorem test_lbu : ends (vec 0x0000C183 [(1, 0x1000#32)]
    [(0x1000, 0x80#8), (0x1001, 0xFF#8), (0x1002, 0x12#8), (0x1003, 0x34#8)])
    0x104#32 (.value 0x3412FF80#32) [(3, 0x3412FF80#32)] = true := by decide

/-- V-LD5. -/
theorem test_lhu : ends (vec 0x0000D183 [(1, 0x1000#32)]
    [(0x1000, 0x80#8), (0x1001, 0xFF#8), (0x1002, 0x12#8), (0x1003, 0x34#8)])
    0x104#32 (.value 0x3412FF80#32) [(3, 0x3412FF80#32)] = true := by decide

/-- V-LD6. -/
theorem test_load011 : ends (vec 0x0000B183 [(1, 0x1000#32)]
    [(0x1000, 0x80#8), (0x1001, 0xFF#8), (0x1002, 0x12#8), (0x1003, 0x34#8)])
    0x104#32 (.value 0x3412FF80#32) [(3, 0x3412FF80#32)] = true := by decide

/-- V-LD7. -/
theorem test_load110 : ends (vec 0x0000E183 [(1, 0x1000#32)]
    [(0x1000, 0x80#8), (0x1001, 0xFF#8), (0x1002, 0x12#8), (0x1003, 0x34#8)])
    0x104#32 (.value 0x3412FF80#32) [(3, 0x3412FF80#32)] = true := by decide

/-- V-LD8. -/
theorem test_load111 : ends (vec 0x0000F183 [(1, 0x1000#32)]
    [(0x1000, 0x80#8), (0x1001, 0xFF#8), (0x1002, 0x12#8), (0x1003, 0x34#8)])
    0x104#32 (.value 0x3412FF80#32) [(3, 0x3412FF80#32)] = true := by decide

/-- V-LD9. -/
theorem test_lw_misaligned : ends (vec 0x0010A183 [(1, 0x1000#32)]
    [(0x1000, 0x80#8), (0x1001, 0xFF#8), (0x1002, 0x12#8), (0x1003, 0x34#8), (0x1004, 0x56#8)])
    0x104#32 (.value 0x563412FF#32) [(3, 0x563412FF#32)] = true := by decide

/-- V-LD16, with LB in the place of LW (R141). -/
theorem test_lb_over_its_own_base : ends (vec 0x00108083 [(1, 0x200#32)]
    [(0x201, 0xAA#8), (0x202, 0xBB#8), (0x203, 0xCC#8), (0x204, 0xDD#8)])
    0x104#32 (.value 0xDDCCBBAA#32) [(1, 0xDDCCBBAA#32)] = true := by decide

/-- V-LD11. -/
theorem test_load_last_word : ends (vec 0x0000A183 [(1, 0x7FFFC#32)] [(0x7FFFC, 1#8), (0x7FFFD, 2#8), (0x7FFFE, 3#8), (0x7FFFF, 4#8)])
    0x104#32 (.value 0x04030201#32) [(3, 0x04030201#32)] = true := by decide

/-- V-LD14. -/
theorem test_load_to_x0 : ends (vec 0x0000A003 [(1, 0x1000#32)]
    [(0x1000, 0x80#8), (0x1001, 0xFF#8), (0x1002, 0x12#8), (0x1003, 0x34#8)])
    0x104#32 (.value 0x3412FF80#32) [(0, 0#32)] = true := by decide

/-- V-LD12 and V-LD13. -/
theorem test_load_faults : faultWith (step (vec 0x0000A183 [(1, 0x7FFFD#32)] [])) ⟨.load, 0x7FFFD#32, 4, 0x100#32⟩
      (fun t => t == vec 0x0000A183 [(1, 0x7FFFD#32)] []) = true ∧
    faultWith (step (vec 0xFFC0A183 [] [])) ⟨.load, 0xFFFFFFFC#32, 4, 0x100#32⟩
      (fun t => t == vec 0xFFC0A183 [] []) = true := by decide

/-- V-ST1. -/
theorem test_sw : stores (vec 0x0020A023 [(1, 0x1000#32), (2, 0x11223344#32)]
    [])
    0x1000 [0x44#8, 0x33#8, 0x22#8, 0x11#8] = true := by decide

/-- V-ST2. -/
theorem test_sb : stores (vec 0x00208023 [(1, 0x1000#32), (2, 0x11223344#32)]
    [(0x1000, 0xEE#8), (0x1001, 0xEE#8), (0x1002, 0xEE#8), (0x1003, 0xEE#8), (0x1004, 0xEE#8)])
    0x1000 [0x44#8, 0x33#8, 0x22#8, 0x11#8, 0xEE#8] = true := by decide

/-- V-ST3. -/
theorem test_sh : stores (vec 0x00209023 [(1, 0x1000#32), (2, 0x11223344#32)]
    [(0x1000, 0xEE#8), (0x1001, 0xEE#8), (0x1002, 0xEE#8), (0x1003, 0xEE#8), (0x1004, 0xEE#8)])
    0x1000 [0x44#8, 0x33#8, 0x22#8, 0x11#8, 0xEE#8] = true := by decide

/-- V-ST4. -/
theorem test_store011 : stores (vec 0x0020B023 [(1, 0x1000#32), (2, 0x11223344#32)]
    [])
    0x1000 [0x44#8, 0x33#8, 0x22#8, 0x11#8] = true := by decide

/-- V-ST5. -/
theorem test_store100 : stores (vec 0x0020C023 [(1, 0x1000#32), (2, 0x11223344#32)]
    [])
    0x1000 [0x44#8, 0x33#8, 0x22#8, 0x11#8] = true := by decide

/-- V-ST6. -/
theorem test_store101 : stores (vec 0x0020D023 [(1, 0x1000#32), (2, 0x11223344#32)]
    [])
    0x1000 [0x44#8, 0x33#8, 0x22#8, 0x11#8] = true := by decide

/-- V-ST7. -/
theorem test_store110 : stores (vec 0x0020E023 [(1, 0x1000#32), (2, 0x11223344#32)]
    [])
    0x1000 [0x44#8, 0x33#8, 0x22#8, 0x11#8] = true := by decide

/-- V-ST8. -/
theorem test_store111 : stores (vec 0x0020F023 [(1, 0x1000#32), (2, 0x11223344#32)]
    [])
    0x1000 [0x44#8, 0x33#8, 0x22#8, 0x11#8] = true := by decide

/-- V-ST9. -/
theorem test_sw_misaligned_negative_offset : stores (vec 0xFE20AFA3 [(1, 0x1000#32), (2, 0xA1B2C3D4#32)] [])
    0xFFE [0#8, 0xD4#8, 0xC3#8, 0xB2#8, 0xA1#8, 0#8] = true := by decide

/-- V-ST13, read as the canonical form: no byte but the word itself is listed. -/
theorem test_store_of_x0_clears : nextWith (step (vec 0x0000A023 [(1, 0x1000#32)]
    [(0x1000, 0xEE#8), (0x1001, 0xEE#8), (0x1002, 0xEE#8), (0x1003, 0xEE#8)]))
    (fun t => t.mem == [(0x100, 0x23#8), (0x101, 0xA0#8)]) = true := by decide

/-- V-ST12. -/
theorem test_store_fault : faultWith (step (vec 0x0020A023 [(1, 0x7FFFD#32), (2, 5#32)] [])) ⟨.store, 0x7FFFD#32, 4, 0x100#32⟩
      (fun t => t == vec 0x0020A023 [(1, 0x7FFFD#32), (2, 5#32)] []) = true := by decide

/-- V-PH1, V-PH2 and V-PH3. -/
theorem test_console_stores : nextWith (step (withPeriph (vec 0x0020A223 [(1, 0x4000000#32), (2, 0x141#32)] []) []))
      (fun t => t.port.out == [0x41#8] && t.port.err == [] && t.port.trace == [.noValue]) = true ∧
    nextWith (step (withPeriph (vec 0x0020A423 [(1, 0x4000000#32), (2, 0x7A#32)] []) []))
      (fun t => t.port.out == [] && t.port.err == [0x7A#8]) = true ∧
    nextWith (step (withPeriph (vec 0x0020A023 [(1, 0x4000000#32), (2, 0x41#32)] []) []))
      (fun t => t.port.out == [] && t.port.err == [] && t.pc == 0x104#32) = true := by decide

/-- V-PH4, V-PH5 and V-PH6. -/
theorem test_console_loads : ends (withPeriph (vec 0x0000A183 [(1, 0x4000000#32)] []) [[0x68#8, 0x65#8]]) 0x104#32 (.value 0x68#32) [(3, 0x68#32)] = true ∧
    ends (withPeriph (vec 0x0000A183 [(1, 0x4000000#32)] []) [[]]) 0x104#32 (.value 0#32) [(3, 0#32)] = true ∧
    ends (withPeriph (vec 0x0040A183 [(1, 0x4000000#32)] []) []) 0x104#32 (.value 0#32) [(3, 0#32)] = true := by decide

/-- V-PH8 and V-PH9. -/
theorem test_console_is_absent_or_missed : faultWith (step (vec 0x0020A223 [(1, 0x4000000#32), (2, 0x41#32)] [])) ⟨.store, 0x4000004#32, 4, 0x100#32⟩
      (fun t => t.port.out == []) = true ∧
    faultWith (step (withPeriph (vec 0x0020A2A3 [(1, 0x4000000#32), (2, 0x41#32)] []) []))
      ⟨.store, 0x4000005#32, 4, 0x100#32⟩ (fun t => t.port.out == []) = true := by decide

/-- V-BR1 and V-BR2. -/
theorem test_beq : ends (vec 0x00208463 [(1, 7#32), (2, 7#32)] []) 0x108#32 (.value 0x108#32) [] = true ∧
    ends (vec 0x00208463 [(1, 0xFFFFFFF9#32), (2, 7#32)] []) 0x104#32 (.value 0x108#32) [] = true := by decide

/-- V-BR3 and V-BR4. -/
theorem test_bne : ends (vec 0x00209463 [(1, 7#32), (2, 7#32)] []) 0x108#32 (.value 0x108#32) [] = true ∧
    ends (vec 0x00209463 [(1, 0xFFFFFFF9#32), (2, 7#32)] []) 0x104#32 (.value 0x108#32) [] = true := by decide

/-- V-BR5 and V-BR6. -/
theorem test_blt : ends (vec 0x0020C463 [(1, 7#32), (2, 7#32)] []) 0x108#32 (.value 0x108#32) [] = true ∧
    ends (vec 0x0020C463 [(1, 0xFFFFFFF9#32), (2, 7#32)] []) 0x104#32 (.value 0x108#32) [] = true := by decide

/-- V-BR7 and V-BR8. -/
theorem test_bge : ends (vec 0x0020D463 [(1, 7#32), (2, 7#32)] []) 0x108#32 (.value 0x108#32) [] = true ∧
    ends (vec 0x0020D463 [(1, 0xFFFFFFF9#32), (2, 7#32)] []) 0x104#32 (.value 0x108#32) [] = true := by decide

/-- V-BR9 and V-BR10. -/
theorem test_bltu : ends (vec 0x0020E463 [(1, 7#32), (2, 7#32)] []) 0x108#32 (.value 0x108#32) [] = true ∧
    ends (vec 0x0020E463 [(1, 0xFFFFFFF9#32), (2, 7#32)] []) 0x104#32 (.value 0x108#32) [] = true := by decide

/-- V-BR11 and V-BR12. -/
theorem test_bgeu : ends (vec 0x0020F463 [(1, 7#32), (2, 7#32)] []) 0x108#32 (.value 0x108#32) [] = true ∧
    ends (vec 0x0020F463 [(1, 0xFFFFFFF9#32), (2, 7#32)] []) 0x104#32 (.value 0x108#32) [] = true := by decide

/-- V-BR13 and V-BR14. -/
theorem test_branch010 : ends (vec 0x0020A463 [(1, 7#32), (2, 7#32)] []) 0x108#32 (.value 0x108#32) [] = true ∧
    ends (vec 0x0020A463 [(1, 0xFFFFFFF9#32), (2, 7#32)] []) 0x104#32 (.value 0x108#32) [] = true := by decide

/-- V-BR15 and V-BR16. -/
theorem test_branch011 : ends (vec 0x0020B463 [(1, 7#32), (2, 7#32)] []) 0x108#32 (.value 0x108#32) [] = true ∧
    ends (vec 0x0020B463 [(1, 0xFFFFFFF9#32), (2, 7#32)] []) 0x104#32 (.value 0x108#32) [] = true := by decide

/-- V-BR17, V-BR18 and V-BR19. -/
theorem test_branch_readings : ends (vec 0xFE000CE3 [] []) 0x10F8#32 (.value 0x10F8#32) [] = true ∧
    ends (withReading (vec 0xFE000CE3 [] []) .sext12) 0xF8#32 (.value 0xF8#32) [] = true ∧
    ends (withReading (vec 0xFE000CE3 [] []) .orAt11) 0xF8#32 (.value 0xF8#32) [] = true := by decide

/-- V-BR22, V-BR23 and V-BR24. -/
theorem test_branch_readings_at_4096 : ends (start 0x2000#32 0x80000063 [] []) 0x3000#32 (.value 0x3000#32) [] = true ∧
    ends (withReading (start 0x2000#32 0x80000063 [] []) .sext12) 0x2000#32 (.value 0x2000#32) [] = true ∧
    ends (withReading (start 0x2000#32 0x80000063 [] []) .orAt11) 0x3000#32 (.value 0x3000#32) [] = true := by decide

/-- V-JR1. -/
theorem test_jalr : ends (vec 0x004280E7 [(5, 0x301#32)] []) 0x304#32 (.value 0x104#32) [(1, 0x104#32)] = true := by decide

/-- V-JR6. -/
theorem test_jalr001 : ends (vec 0x004290E7 [(5, 0x301#32)] []) 0x304#32 (.value 0x104#32) [(1, 0x104#32)] = true := by decide

/-- V-JR8. -/
theorem test_jalr010 : ends (vec 0x0042A0E7 [(5, 0x301#32)] []) 0x304#32 (.value 0x104#32) [(1, 0x104#32)] = true := by decide

/-- V-JR9. -/
theorem test_jalr011 : ends (vec 0x0042B0E7 [(5, 0x301#32)] []) 0x304#32 (.value 0x104#32) [(1, 0x104#32)] = true := by decide

/-- V-JR10. -/
theorem test_jalr100 : ends (vec 0x0042C0E7 [(5, 0x301#32)] []) 0x304#32 (.value 0x104#32) [(1, 0x104#32)] = true := by decide

/-- V-JR11. -/
theorem test_jalr101 : ends (vec 0x0042D0E7 [(5, 0x301#32)] []) 0x304#32 (.value 0x104#32) [(1, 0x104#32)] = true := by decide

/-- V-JR12. -/
theorem test_jalr110 : ends (vec 0x0042E0E7 [(5, 0x301#32)] []) 0x304#32 (.value 0x104#32) [(1, 0x104#32)] = true := by decide

/-- V-JR13. -/
theorem test_jalr111 : ends (vec 0x0042F0E7 [(5, 0x301#32)] []) 0x304#32 (.value 0x104#32) [(1, 0x104#32)] = true := by decide

/-- V-JR3. -/
theorem test_jalr_over_its_own_base : ends (vec 0x000080E7 [(1, 0x200#32)] []) 0x200#32 (.value 0x104#32) [(1, 0x104#32)] = true := by decide

/-- V-J5 and V-J6. -/
theorem test_jal : ends (vec 0x7FFFF2EF [] []) 0x1000FE#32 (.value 0x104#32) [(5, 0x104#32)] = true ∧
    ends (vec 0x800002EF [] []) 0xFFF00100#32 (.value 0x104#32) [(5, 0x104#32)] = true := by decide

/-- V-J2. -/
theorem test_jal_backward : ends (start 0x118#32 0xFF5FF06F [] []) 0x10C#32 (.value 0x11C#32) [(0, 0#32)] = true := by decide

/-- V-U2 and V-U3. -/
theorem test_lui : ends (vec 0xFFFFF0B7 [] []) 0x104#32 (.value 0xFFFFF000#32) [(1, 0xFFFFF000#32)] = true ∧
    ends (vec 0x12345037 [] []) 0x104#32 (.value 0x12345000#32) [(0, 0#32)] = true := by decide

/-- V-U4 and V-U6. -/
theorem test_auipc : ends (vec 0x12345217 [] []) 0x104#32 (.value 0x12345100#32) [(4, 0x12345100#32)] = true ∧
    ends (start 0#32 0xFFFFF217 [] []) 4#32 (.value 0xFFFFF000#32) [(4, 0xFFFFF000#32)] = true := by decide

/-- V-OI2 and V-OI4. -/
theorem test_addi : ends (vec 0xFFF30293 [(6, 0xA#32)] []) 0x104#32 (.value 0x29#32) [(5, 0x29#32)] = true ∧
    ends (vec 0x00130293 [(6, 0xFFFFFFFF#32)] []) 0x104#32 (.value 0#32) [(5, 0#32)] = true := by decide

/-- V-OI7 and V-OI9. -/
theorem test_slti : ends (vec 0x00532293 [(6, 5#32)] []) 0x104#32 (.value 0#32) [(5, 0#32)] = true ∧
    ends (vec 0xFFF32293 [(6, 0xFFFFFFFB#32)] []) 0x104#32 (.value 1#32) [(5, 1#32)] = true := by decide

/-- V-OI10 and V-OI11. -/
theorem test_sltiu : ends (vec 0xFFF33293 [(6, 0xA#32)] []) 0x104#32 (.value 1#32) [(5, 1#32)] = true ∧
    ends (vec 0xFFF33293 [(6, 0xFFFFFFFF#32)] []) 0x104#32 (.value 0#32) [(5, 0#32)] = true := by decide

/-- V-OI12. -/
theorem test_xori : ends (vec 0xFFF34293 [(6, 0xFFFFFFFF#32)] []) 0x104#32 (.value 0xFFFFFFE0#32) [(5, 0xFFFFFFE0#32)] = true := by decide

/-- V-OI13. -/
theorem test_ori : ends (vec 0xFFF36293 [(6, 0xA#32)] []) 0x104#32 (.value 0x1F#32) [(5, 0x1F#32)] = true := by decide

/-- V-OI14. -/
theorem test_andi : ends (vec 0xFFF37293 [(6, 0xFFFFFFFF#32)] []) 0x104#32 (.value 0x1F#32) [(5, 0x1F#32)] = true := by decide

/-- V-OI15 and V-OI17. -/
theorem test_slli : ends (vec 0x00331293 [(6, 0x80000010#32)] []) 0x104#32 (.value 0x80#32) [(5, 0x80#32)] = true ∧
    ends (vec 0x01F31293 [(6, 1#32)] []) 0x104#32 (.value 0x80000000#32) [(5, 0x80000000#32)] = true := by decide

/-- V-OI18 and V-OI19. -/
theorem test_srli : ends (vec 0x00335293 [(6, 0x80000010#32)] []) 0x104#32 (.value 0x10000002#32) [(5, 0x10000002#32)] = true ∧
    ends (vec 0x01F35293 [(6, 0x80000000#32)] []) 0x104#32 (.value 1#32) [(5, 1#32)] = true := by decide

/-- V-OI20 and V-OI21. -/
theorem test_srai : ends (vec 0x40335293 [(6, 0x80000010#32)] []) 0x104#32 (.value 0xF0000002#32) [(5, 0xF0000002#32)] = true ∧
    ends (vec 0x41F35293 [(6, 0x80000001#32)] []) 0x104#32 (.value 0xFFFFFFFF#32) [(5, 0xFFFFFFFF#32)] = true := by decide

/-- V-OI26. -/
theorem test_addi_to_x0 : ends (vec 0x00700013 [] []) 0x104#32 (.value 7#32) [(0, 0#32)] = true := by decide

/-- V-OP2. -/
theorem test_add : ends (vec 0x002081B3 [(1, 0xFFFFFFFF#32), (2, 2#32)] []) 0x104#32 (.value 1#32) [(3, 1#32)] = true := by decide

/-- V-OP3 and V-OP4. -/
theorem test_sub : ends (vec 0x402081B3 [(1, 0x80000010#32), (2, 0x24#32)] []) 0x104#32 (.value 0x7FFFFFEC#32) [(3, 0x7FFFFFEC#32)] = true ∧
    ends (vec 0x402081B3 [(1, 0#32), (2, 1#32)] []) 0x104#32 (.value 0xFFFFFFFF#32) [(3, 0xFFFFFFFF#32)] = true := by decide

/-- V-OP5 and V-OP6. -/
theorem test_sll : ends (vec 0x002091B3 [(1, 5#32), (2, 7#32)] []) 0x104#32 (.value 0x280#32) [(3, 0x280#32)] = true ∧
    ends (vec 0x002091B3 [(1, 1#32), (2, 0x21#32)] []) 0x104#32 (.value 2#32) [(3, 2#32)] = true := by decide

/-- V-OP7 and V-OP8. -/
theorem test_slt : ends (vec 0x0020A1B3 [(1, 0xFFFFFFFF#32), (2, 1#32)] []) 0x104#32 (.value 1#32) [(3, 1#32)] = true ∧
    ends (vec 0x0020A1B3 [(1, 1#32), (2, 0xFFFFFFFF#32)] []) 0x104#32 (.value 0#32) [(3, 0#32)] = true := by decide

/-- V-OP10 and V-OP11. -/
theorem test_sltu : ends (vec 0x0020B1B3 [(1, 0xFFFFFFFF#32), (2, 1#32)] []) 0x104#32 (.value 0#32) [(3, 0#32)] = true ∧
    ends (vec 0x0020B1B3 [(1, 1#32), (2, 0xFFFFFFFF#32)] []) 0x104#32 (.value 1#32) [(3, 1#32)] = true := by decide

/-- V-OP12. -/
theorem test_xor : ends (vec 0x0020C1B3 [(1, 0xF0F0F0F0#32), (2, 0x23#32)] []) 0x104#32 (.value 0xF0F0F0D3#32) [(3, 0xF0F0F0D3#32)] = true := by decide

/-- V-OP13 and V-OP14. -/
theorem test_srl : ends (vec 0x0020D1B3 [(1, 0xF0F0F0F0#32), (2, 3#32)] []) 0x104#32 (.value 0x1E1E1E1E#32) [(3, 0x1E1E1E1E#32)] = true ∧
    ends (vec 0x0020D1B3 [(1, 0xF0F0F0F0#32), (2, 0x23#32)] []) 0x104#32 (.value 0x1E1E1E1E#32) [(3, 0x1E1E1E1E#32)] = true := by decide

/-- V-OP15 and V-OP16. -/
theorem test_sra : ends (vec 0x4020D1B3 [(1, 0xF0F0F0F0#32), (2, 0x23#32)] []) 0x104#32 (.value 0xFE1E1E1E#32) [(3, 0xFE1E1E1E#32)] = true ∧
    ends (vec 0x4020D1B3 [(1, 0x80000000#32), (2, 0x1F#32)] []) 0x104#32 (.value 0xFFFFFFFF#32) [(3, 0xFFFFFFFF#32)] = true := by decide

/-- V-OP17. -/
theorem test_or : ends (vec 0x0020E1B3 [(1, 0xF0F0F0F0#32), (2, 0x23#32)] []) 0x104#32 (.value 0xF0F0F0F3#32) [(3, 0xF0F0F0F3#32)] = true := by decide

/-- V-OP18. -/
theorem test_and : ends (vec 0x0020F1B3 [(1, 0xF0F0F0F0#32), (2, 0x23#32)] []) 0x104#32 (.value 0x20#32) [(3, 0x20#32)] = true := by decide

/-- V-OP19. -/
theorem test_add_over_its_own_sources : ends (vec 0x001080B3 [(1, 0x15#32)] []) 0x104#32 (.value 0x2A#32) [(1, 0x2A#32)] = true := by decide

/-- V-SY1. -/
theorem test_ecall : ends (vec 0x00000073 [] []) 0x104#32 .noValue [] = true ∧
    nextWith (step (vec 0x00000073 [] [])) (fun t => !t.halted) = true := by decide

/-- V-SY2 and V-SY8. -/
theorem test_ebreak : nextWith (step (vec 0x00100073 [] []))
      (fun t => t.halted && t.pc == 0x104#32 && t.port.trace == [.breakMark]) = true ∧
    nextWith (step (withSemihost (vec 0x001000F3 [(10, 4#32), (11, 0x41#32)] [])))
      (fun t => t.halted && t.port.out == []) = true := by decide

/-- V-SY3 and V-SY7. -/
theorem test_semihost_character : nextWith (step (withSemihost (vec 0x00100073 [(10, 4#32), (11, 0x1234#32)] [])))
      (fun t => t.halted && t.port.out == [0x34#8] && t.port.trace == [.breakMark]) = true ∧
    nextWith (step (withSemihost (vec 0x00100073 [(10, 5#32), (11, 0x41#32)] [])))
      (fun t => t.halted && t.port.out == []) = true := by decide

/-- V-SY5 and V-SY9. -/
theorem test_semihost_string : nextWith (step (withSemihost (vec 0x00100073 [(10, 6#32), (11, 0x1000#32)] [(0x1000, 0x48#8), (0x1001, 0x69#8)])))
      (fun t => t.halted && t.port.out == [0x48#8, 0x69#8]) = true ∧
    nextWith (step (withSemihost (vec 0x00100073 [(10, 6#32), (11, 0x1000#32)] [])))
      (fun t => t.halted && t.port.out == []) = true := by decide

/-- V-SY6. -/
theorem test_semihost_string_fault : faultWith (step (withSemihost (vec 0x00100073 [(10, 6#32), (11, 0x7FFFF#32)] [(0x7FFFF, 0x41#8)])))
      ⟨.semihost, 0x80000#32, 1, 0x100#32⟩
      (fun t => t.port.out == [0x41#8] && t.pc == 0x104#32 && !t.halted) = true := by decide

/-- V-UN5. -/
theorem test_unrecognized : nextWith (step (vec 0x0020A0AF [(1, 0x1000#32), (2, 5#32)] []))
      (fun t => t == { vec 0x0020A0AF [(1, 0x1000#32), (2, 5#32)] [] with
        pc := 0x104#32
        port := { HostPort.empty with trace := [.noValue], reports := [⟨0x100#32, 0x0020A0AF#32⟩] } }) = true := by decide

/-- V-F1. -/
theorem test_fetch_last_word : ends (start 0x7FFFC#32 0x00000013 [] []) 0x80000#32 (.value 0#32) [] = true := by decide

/-- V-F2 and V-F3. -/
theorem test_fetch_faults : faultWith (step { State.reset with pc := 0x7FFFD#32 }) ⟨.fetch, 0x7FFFD#32, 4, 0x7FFFD#32⟩
      (fun t => t == { State.reset with pc := 0x7FFFD#32 }) = true ∧
    faultWith (step { State.reset with pc := 0xFFFFFFFC#32 }) ⟨.fetch, 0xFFFFFFFC#32, 4, 0xFFFFFFFC#32⟩
      (fun _ => true) = true := by decide

/-- V-F4. -/
theorem test_fetch_misaligned : nextWith (step { State.reset with
      pc := 0x102#32, mem := [(0x100, 0x93#8), (0x102, 0x50#8), (0x104, 0x13#8), (0x105, 0x01#8), (0x106, 0x70#8)] })
      (fun t => t.pc == 0x106#32 && t.port.reports == [⟨0x102#32, 0x01130050#32⟩]) = true := by decide

/-- R31, R120. -/
theorem test_halted_takes_no_step : step { State.reset with halted := true } = .fault .haltedNoStep := by rfl

/-! ## Memory: the primitive vectors M1, M2, M4 and the bounds of W5 -/

theorem test_memWrite_cuts_to_its_width :
    (State.reset.memWrite 0x200 1 0x1AB).map (fun t => t.memRead 0x200 1) = some (some 0xAB) ∧
    (State.reset.memWrite 0x200 2 0x12345).map (fun t => t.memRead 0x200 2) = some (some 0x2345) := by decide

theorem test_narrow_reads_of_a_word :
    (State.reset.memWrite 0x200 4 0xDEADBEEF).map (fun t => [t.memRead 0x201 1, t.memRead 0x201 2, t.memRead 0x202 2]) =
      some [some 0xBE, some 0xADBE, some 0xDEAD] := by decide

theorem test_bounds :
    State.reset.memRead 0x7FFFF 2 = none ∧ State.reset.memRead 0x80000 1 = none ∧
    State.reset.memRead 0xFFFFFFFF 1 = none ∧ State.reset.memWrite 0x7FFFE 4 1 = none ∧
    State.reset.memRead 0x7FFFE 2 = some 0 ∧ State.reset.memRead 0x7FFFC 4 = some 0 := by decide

theorem test_reset_memory_wf : State.reset.mem.wf := by decide

/-- A byte that is written back to what an unlisted byte reads as leaves the list. -/
theorem test_writeByte_canonical :
    writeByte (writeByte (writeByte [] 8 1#8) 4 2#8) 8 0#8 = [(4, 2#8)] := by decide

/-! ## Power-on, reset and the host -/

/-- P1's four words at 0x100. -/
def p1Memory : Memory :=
  [(0x100, 0x93#8), (0x102, 0x50#8), (0x104, 0x13#8), (0x105, 0x01#8), (0x106, 0x70#8),
    (0x108, 0xB3#8), (0x109, 0x81#8), (0x10A, 0x20#8), (0x10C, 0x73#8), (0x10E, 0x10#8)]

/-- Power-on with P1's image. -/
def p1 : State := { State.reset with mem := p1Memory }

/-- A session in Stepping with P1's image, after n turns over these lines. -/
def p1Session (lines : List (List Char)) (n : Nat) : Session := Session.turns n (Session.start p1 .stepping lines)

/-- Bytes at or beyond memSize are dropped (R281). -/
theorem test_image_load_drops_bytes_beyond_memSize : loadImage 4 [1#8, 0#8, 3#8, 4#8, 5#8] = [(0, 1#8), (2, 3#8), (3, 4#8)] := by decide

/-- W12: the reorder pass changes nothing. -/
theorem test_reorder_is_identity : reorderPass p1 = p1 := by rfl

/-- H-1. -/
theorem test_command_step :
    (p1Session ["step".toList] 1).finalTrace = [.value 5#32] ∧ (p1Session ["step".toList] 1).mode = .stepping ∧
    (p1Session ["step".toList] 1).machine.pc = 0x104#32 := by decide

/-- H-2. -/
theorem test_command_continue :
    (p1Session ["step".toList, "continue".toList] 5).finalTrace =
      [.value 5#32, .value 7#32, .value 0xC#32, .breakMark] ∧
    (p1Session ["step".toList, "continue".toList] 5).ended = some .breakReached := by decide

/-- H-3. -/
theorem test_command_dump :
    (p1Session ["x 4/100".toList] 1).printed = [.bytes [0x93#8, 0x00#8, 0x50#8, 0x00#8]] ∧
    (p1Session ["x 4/100".toList] 1).machine = p1 := by decide

/-- H-4. -/
theorem test_command_dump_out_of_bounds :
    (p1Session ["x 2/7FFFF".toList] 1).printed = [.bytes [0x00#8], .outOfBounds 0x80000] := by decide

/-- H-5. -/
theorem test_command_is_case_sensitive : (p1Session ["Step".toList] 1).machine = p1 := by decide

/-- H-6. -/
theorem test_command_reset :
    (p1Session ["step".toList, "step".toList, "reset".toList, "step".toList] 4).finalTrace =
      [.value 5#32, .value 7#32, .value 5#32] ∧
    (p1Session ["step".toList, "step".toList, "reset".toList, "step".toList] 4).machine.readReg 2 = 7#32 := by decide

/-- H-7. -/
theorem test_command_exit :
    (p1Session ["step".toList, "exit".toList] 2).finalTrace = [.value 5#32] ∧
    (p1Session ["step".toList, "exit".toList] 2).ended = some .exited := by decide

/-- A Running session whose next step is V-LD12's fault. -/
def faulting : Session := Session.start (vec 0x0000A183 [(1, 0x7FFFD#32)] []) .running ["step".toList, "reset".toList]

/-- H-8, from the fault on: the switch to Stepping, the repeated fault, the pc after `reset`. -/
theorem test_fault_switches_to_stepping :
    (Session.turns 1 faulting).mode = .stepping ∧
    (Session.turns 2 faulting).printed = [.fault ⟨.load, 0x7FFFD#32, 4, 0x100#32⟩, .fault ⟨.load, 0x7FFFD#32, 4, 0x100#32⟩] ∧
    (Session.turns 3 faulting).machine.pc = 0x100#32 ∧ (Session.turns 3 faulting).ended = none := by decide

/-- R255: the report is shown to the operator, the mode does not change and the run continues; the word of V-UN3. -/
theorem test_unrecognized_is_shown_to_the_operator :
    let σ := Session.turns 1 (Session.start (vec 0x0FF0000F [] []) .running [])
    σ.printed = [.unrecognized ⟨0x100#32, 0x0FF0000F#32⟩] ∧ σ.mode = .running ∧ σ.ended = none ∧
    σ.machine.pc = 0x104#32 := by decide

/-- D39: ADDRESS with `0x`, and a COUNT that decimal and hexadecimal read apart. -/
theorem test_command_dump_reads_count_in_decimal :
    parseCommand "x 10/0x100".toList = .dump 10 256 ∧ parseCommand "x 1F/100".toList = .ignored := by decide

/-- R270: with no line the `step` command does not return, and the next line is not read. -/
theorem test_blocked_step_waits :
    (Session.turns 2 (Session.start (withPeriph (vec 0x0000A183 [(1, 0x4000000#32)] []) []) .stepping
      ["step".toList, "exit".toList])).ended = none := by decide

/-! ## Display: the table of 95_test_vectors Part 2 and W13 -/

theorem test_display_recognized :
    display 0x00500093#32 = "ADDI x1,x0,5" ∧ display 0x002081B3#32 = "ADD x3,x1,x2" ∧
    display 0xFE20AFA3#32 = "SW x2,-1(x1)" ∧ display 0xFE000CE3#32 = "BEQ x0,x0,-8" ∧
    display 0x12345217#32 = "AUIPC x4,0x12345" ∧ display 0xFF5FF06F#32 = "JAL x0,-12" ∧
    display 0x004280E7#32 = "JALR x1,4(x5)" ∧ display 0x41F35293#32 = "SRAI x5,x6,31" ∧
    display 0x00100073#32 = "EBREAK" := by decide

theorem test_display_unknown :
    display 0x0FF0000F#32 = "UNKNOWN 0x0FF0000F" ∧ display 0x0000B183#32 = "UNKNOWN 0x0000B183" := by decide

theorem test_classify :
    classifyOpcode 0x00500093#32 = .I ∧ classifyOpcode 0x0020A423#32 = .S ∧ classifyOpcode 0xFE000CE3#32 = .B ∧
    classifyOpcode 0x12345217#32 = .U ∧ classifyOpcode 0xFF5FF06F#32 = .J ∧ classifyOpcode 0x002081B3#32 = .R ∧
    classifyOpcode 0x0FF0000F#32 = .unknown := by decide

/-- R98: `nop` is ADDI x0,x0,0. -/
theorem test_pseudo_nop : pseudoNop.map encode = [0x00000013#32] := by decide

/-! ## Witnesses: for every statement with hypotheses, states and operands that meet them all, at the boundary of each
clause -/

theorem witness_EncodedInstructionDecodesBack :
    (Instr.beq 31 31 0x1FFE#13).wellFormed = true ∧ (Instr.jal 31 0x1FFFFE#21).wellFormed = true := by decide

theorem witness_DecodedWordEncodesBack : decode 0xFE20AFA3#32 = .ok (.sw 1 2 0xFFF#12) := by decide

theorem witness_DecoderFollowsTheOpcodeTable :
    decode 0x41F35293#32 = .ok (.srai 5 6 31) ∧ ⟨"SRAI", 0x40005013#32, 0xFE00707F#32⟩ ∈ opcodeTable := by decide

/-- The last word of Memory holds the instruction (V-F1). -/
theorem witness_StepRunsTheDecodedInstruction :
    let s := start 0x7FFFC#32 0x00000013 [] []
    s.halted = false ∧ s.pc.toNat + 4 = s.params.memSize ∧
    decode (readByte s.mem (s.pc.toNat + 3) ++ readByte s.mem (s.pc.toNat + 2) ++
      readByte s.mem (s.pc.toNat + 1) ++ readByte s.mem s.pc.toNat) = .ok (.addi 0 0 0) := by decide

theorem witness_StepRunsTheEncodedInstruction :
    let s := start 0x7FFFC#32 0xFE20AFA3 [] []
    (Instr.sw 1 2 0xFFF#12).wellFormed = true ∧ s.halted = false ∧ s.pc.toNat + 4 = s.params.memSize ∧
    ∀ k : Nat, k < 4 → readByte s.mem (s.pc.toNat + k) = (encode (.sw 1 2 0xFFF#12)).extractLsb' (8 * k) 8 := by decide

theorem witness_FetchReadsFourBytesOrFaults :
    (start 0x7FFFC#32 0x13 [] []).pc.toNat + 4 = (start 0x7FFFC#32 0x13 [] []).params.memSize ∧
    ({ State.reset with pc := 0x7FFFD#32 } : State).halted = false ∧
    ({ State.reset with pc := 0x7FFFD#32 } : State).params.memSize <
      ({ State.reset with pc := 0x7FFFD#32 } : State).pc.toNat + 4 := by decide

theorem witness_UnrecognizedWordIsReportedNoOp :
    let s := start 0x7FFFC#32 0x40331293 [] []
    s.halted = false ∧ s.pc.toNat + 4 = s.params.memSize ∧
    decode (wordAt s.mem s.pc.toNat) = .error .opImmFunct7 ∧
    (Session.start s .running []).ended = none ∧ (Session.start s .running []).mode = .running ∧
    (Session.start s .stepping [['s', 't', 'e', 'p']]).mode = .stepping ∧
    (Session.start s .stepping [['s', 't', 'e', 'p']]).commands = ['s', 't', 'e', 'p'] :: [] := by decide

theorem witness_HaltedBlockTakesNoStep :
    nextWith (step State.reset) (fun _ => true) = true ∧
    ({ State.reset with halted := true } : State).halted = true := by decide

/-- ea + 4 = memSize (V-LD11), with peripherals absent and present. -/
theorem witness_LoadReadsFourBytes :
    let s := vec 0x0000A183 [(1, 0x7FFFC#32)] []
    Instr.load111 3 1 0 ∈ loadForms 3 1 0 ∧ claimed s (effAddr s 1 0) = false ∧
    claimed (withPeriph s []) (effAddr (withPeriph s []) 1 0) = false ∧
    (effAddr s 1 0).toNat + 4 = s.params.memSize := by decide

/-- ea + 4 = memSize + 1 (V-LD12), and an address that wraps (V-LD13). -/
theorem witness_LoadOutOfBoundsFaults :
    let s := vec 0x0000A183 [(1, 0x7FFFD#32)] []
    Instr.lb 0 1 0 ∈ loadForms 0 1 0 ∧ claimed s (effAddr s 1 0) = false ∧
    s.params.memSize + 1 = (effAddr s 1 0).toNat + 4 ∧
    s.params.memSize < (effAddr s 0 0xFFC#12).toNat + 4 := by decide

/-- V-PH4, V-PH5, V-PH6, and console-err. -/
theorem witness_LoadOfConsoleAddresses :
    let s := withPeriph (vec 0x0000A183 [(1, 0x4000000#32)] []) [[], [0x68#8, 0x65#8]]
    Instr.lhu 3 1 0 ∈ loadForms 3 1 0 ∧ s.params.periphEnabled = true ∧ effAddr s 1 0 = 0x04000000#32 ∧
    s.port.input = [] :: [[0x68#8, 0x65#8]] ∧ effAddr s 1 4 = 0x04000004#32 ∧ effAddr s 1 8 = 0x04000008#32 := by decide

theorem witness_LoadOfConsoleInWaitsForALine :
    let s := withPeriph (vec 0x0000A183 [(1, 0x4000000#32)] []) []
    Instr.lw 3 1 0 ∈ loadForms 3 1 0 ∧ s.params.periphEnabled = true ∧ effAddr s 1 0 = 0x04000000#32 ∧
    s.port.input = [] := by decide

/-- ea + 4 = memSize. -/
theorem witness_StoreWritesFourBytes :
    let s := vec 0x0020A023 [(1, 0x7FFFC#32), (2, 0x11223344#32)] []
    Instr.sb 1 2 0 ∈ storeForms 1 2 0 ∧ s.mem.wf ∧ claimed s (effAddr s 1 0) = false ∧
    (effAddr s 1 0).toNat + 4 = s.params.memSize := by decide

/-- V-ST12, and a console address without peripherals (V-PH8). -/
theorem witness_StoreOutOfBoundsFaults :
    let s := vec 0x0020A023 [(1, 0x7FFFD#32), (2, 5#32), (3, 0x4000004#32)] []
    Instr.sw 1 2 0 ∈ storeForms 1 2 0 ∧ claimed s (effAddr s 1 0) = false ∧
    s.params.memSize + 1 = (effAddr s 1 0).toNat + 4 ∧ claimed s (effAddr s 3 0) = false ∧
    s.params.memSize < (effAddr s 3 0).toNat + 4 := by decide

theorem witness_StoreToConsoleAddresses :
    let s := withPeriph (vec 0x0020A223 [(1, 0x4000000#32), (2, 0x141#32)] []) []
    Instr.sb 1 2 4 ∈ storeForms 1 2 4 ∧ s.params.periphEnabled = true ∧ effAddr s 1 0 = 0x04000000#32 ∧
    effAddr s 1 4 = 0x04000004#32 ∧ effAddr s 1 8 = 0x04000008#32 := by decide

/-- A SB at the last word of Memory and a LHU of the same address after it. -/
theorem witness_LoadAfterStoreReadsTheStoredValue :
    let s := vec 0x0020A023 [(1, 0x7FFFC#32), (2, 0x11223344#32)] []
    Instr.sb 1 2 0 ∈ storeForms 1 2 0 ∧ Instr.lhu 3 1 0 ∈ loadForms 3 1 0 ∧ s.mem.wf ∧
    claimed s (effAddr s 1 0) = false ∧
    nextWith (exec (.sb 1 2 0) s) (fun t => effAddr t 1 0 == effAddr s 1 0 &&
      nextWith (exec (.lhu 3 1 0) t) fun u => u.readReg 3 == 0x11223344#32) = true := by decide

/-- V-ST14: the store overwrites the word that is fetched next. -/
theorem witness_StoreIsSeenByTheNextFetch :
    let s := vec 0x10102223 [(1, 0x100073#32)] []
    Instr.sw 0 1 260 ∈ storeForms 0 1 260 ∧ s.mem.wf ∧ claimed s (effAddr s 0 260) = false ∧
    nextWith (exec (.sw 0 1 260) s) (fun t => effAddr s 0 260 == t.pc) = true := by decide

/-- M5 (the last word), M6 (the last byte), and W5's first byte beyond. -/
theorem witness_MemoryWriteThenReadRoundTrips :
    State.reset.mem.wf ∧ 0x7FFFC + 4 = State.reset.params.memSize ∧ 0x7FFFF + 1 = State.reset.params.memSize ∧
    State.reset.params.memSize < 0x80000 + 1 := by decide

theorem witness_BranchTakenIffEqual : Instr.bltu 1 2 8 ∈ branchForms 1 2 8 := by decide

theorem witness_JalrJumpsAndLinks : Instr.jalr111 1 5 4 ∈ jalrForms 1 5 4 := by decide

/-- V-SY2, V-SY7 and V-SY8: semihosting off; another a0; another word. -/
theorem witness_EbreakHalts :
    let s := vec 0x00100073 [] []
    let u := withSemihost (vec 0x00100073 [(10, 5#32), (11, 0x41#32)] [])
    let v := withSemihost (vec 0x001000F3 [(10, 4#32), (11, 0x41#32)] [])
    ¬ (s.params.semihostEnabled = true ∧ (0 : RegIdx) = 0#5 ∧ (0 : RegIdx) = 0#5 ∧
      (s.readReg 10#5 = 4#32 ∨ s.readReg 10#5 = 6#32)) ∧
    ¬ (u.params.semihostEnabled = true ∧ (0 : RegIdx) = 0#5 ∧ (0 : RegIdx) = 0#5 ∧
      (u.readReg 10#5 = 4#32 ∨ u.readReg 10#5 = 6#32)) ∧
    ¬ (v.params.semihostEnabled = true ∧ (1 : RegIdx) = 0#5 ∧ (0 : RegIdx) = 0#5 ∧
      (v.readReg 10#5 = 4#32 ∨ v.readReg 10#5 = 6#32)) := by decide

theorem witness_SemihostWritesCharacter :
    let s := withSemihost (vec 0x00100073 [(10, 4#32), (11, 0x1234#32)] [])
    s.params.semihostEnabled = true ∧ s.readReg 10#5 = 4#32 := by decide

/-- V-SY5, and V-SY9 with an empty string at the last byte of Memory. -/
theorem witness_SemihostWritesString :
    let s := withSemihost (vec 0x00100073 [(10, 6#32), (11, 0x1000#32)] [(0x1000, 0x48#8), (0x1001, 0x69#8)])
    let e := withSemihost (vec 0x00100073 [(10, 6#32), (11, 0x7FFFF#32)] [])
    (s.params.legal ∧ s.params.semihostEnabled = true ∧ s.readReg 10#5 = 6#32 ∧
      (∀ k : Nat, k ≤ [0x48#8, 0x69#8].length → ((s.readReg 11#5).toNat + k) % 2 ^ 32 < s.params.memSize ∧
        readByte s.mem (((s.readReg 11#5).toNat + k) % 2 ^ 32) = [0x48#8, 0x69#8].getD k 0#8) ∧
      ∀ b ∈ [0x48#8, 0x69#8], b ≠ 0#8) ∧
    (e.params.legal ∧ e.readReg 10#5 = 6#32 ∧
      ∀ k : Nat, k ≤ ([] : List Byte).length → ((e.readReg 11#5).toNat + k) % 2 ^ 32 < e.params.memSize ∧
        readByte e.mem (((e.readReg 11#5).toNat + k) % 2 ^ 32) = ([] : List Byte).getD k 0#8) := by decide

/-- V-SY6, and a string whose first byte is outside Memory. -/
theorem witness_SemihostStringFaultKeepsItsBytes :
    let s := withSemihost (vec 0x00100073 [(10, 6#32), (11, 0x7FFFF#32)] [(0x7FFFF, 0x41#8)])
    let e := withSemihost (vec 0x00100073 [(10, 6#32), (11, 0xFFFFFFFF#32)] [])
    (s.params.legal ∧ s.params.semihostEnabled = true ∧ s.readReg 10#5 = 6#32 ∧
      (∀ k : Nat, k < [0x41#8].length → (s.readReg 11#5).toNat + k < s.params.memSize ∧
        readByte s.mem ((s.readReg 11#5).toNat + k) = [0x41#8].getD k 0#8) ∧
      (∀ b ∈ [0x41#8], b ≠ 0#8) ∧ s.params.memSize ≤ (s.readReg 11#5).toNat + [0x41#8].length ∧
      (s.readReg 11#5).toNat + [0x41#8].length < 2 ^ 32) ∧
    (e.readReg 10#5 = 6#32 ∧ e.params.memSize ≤ (e.readReg 11#5).toNat + ([] : List Byte).length ∧
      (e.readReg 11#5).toNat + ([] : List Byte).length < 2 ^ 32) := by decide

/-- n bytes of value 1 from address a on. -/
def ones : Nat → Nat → Memory
  | 0, _ => []
  | n + 1, a => (a, 1#8) :: ones n (a + 1)

theorem readByte_ones (n a x : Nat) (h1 : a ≤ x) (h2 : x < a + n) : readByte (ones n a) x = 1#8 := by
  induction n generalizing a with
  | zero => omega
  | succ n ih =>
    simp only [ones, readByte]
    split
    · rfl
    · exact ih (a + 1) (by omega) (by omega)

/-- Where every address holds a byte that is not zero, a string read uses up any fuel. -/
theorem semihostString_endless (fuel : Nat) : ∀ (p pc : Word) (s : State), s.params.memSize = 2 ^ 32 →
    (∀ a, a < 2 ^ 32 → readByte s.mem a ≠ 0#8) → semihostString fuel p pc s = .error .stringNeverEnds := by
  induction fuel with
  | zero => intro p pc s _ _; rfl
  | succ n ih =>
    intro p pc s hm hz
    have hp := p.isLt
    have hc : ¬ (readByte s.mem p.toNat).toNat = 0 := fun e => hz _ hp (BitVec.eq_of_toNat_eq e)
    rw [semihostString, State.memRead_inBounds (by omega), readBytes_one]
    simp only [hc, if_false]
    exact ih _ _ _ hm hz

/-- An EBREAK with request 6 in a state whose every address holds a byte that is not zero. -/
theorem ebreak_endless (s : State) (hs : s.params.semihostEnabled = true) (h6 : s.readReg 10#5 = 6#32)
    (hm : s.params.memSize = 2 ^ 32) (hz : ∀ a, a < 2 ^ 32 → readByte s.mem a ≠ 0#8) :
    exec (.ebreak 0#5 0#5) s = .fault .stringNeverEnds := by
  show execEbreak 0#5 0#5 s = _
  have hr : semihost s.pc (s.setPc s.nextPc) = .error .stringNeverEnds := by
    unfold semihost
    rw [State.readReg_setPc, h6, if_neg (by decide), if_pos rfl]
    exact semihostString_endless _ _ _ _ hm hz
  unfold execEbreak
  rw [hs, (isSemihostTrigger_ebreak 0#5 0#5).2 ⟨rfl, rfl⟩, hr]
  rfl

/-- Memory of 2^32 bytes, none of them zero. -/
theorem witness_EndlessStringOnlyInZeroFreeMemory :
    ∃ s : State, s.params.legal ∧ exec (.ebreak 0#5 0#5) s = .fault .stringNeverEnds := by
  refine ⟨{ (withSemihost State.reset).writeReg 10#5 6#32 with
    mem := ones (2 ^ 32) 0, params := { defaultParams with memSize := 2 ^ 32, semihostEnabled := true } }, ?_, ?_⟩
  · exact ⟨by decide, Nat.le_refl _⟩
  · refine ebreak_endless _ rfl ?_ rfl fun a ha => ?_
    · show ((withSemihost State.reset).writeReg 10#5 6#32).readReg 10#5 = 6#32
      rw [State.readReg_writeReg]; rfl
    · show readByte (ones (2 ^ 32) 0) a ≠ 0#8
      rw [readByte_ones _ _ _ (Nat.zero_le _) (by omega)]; decide

/-- V-ST1 changes Memory. -/
theorem witness_OnlyStoreChangesMemory :
    let s := vec 0x0020A023 [(1, 0x1000#32), (2, 0x11223344#32)] []
    nextWith (step s) (fun t => readByte t.mem 0x1000 != readByte s.mem 0x1000) = true := by decide

/-- V-LD1, V-JR1, V-J1, V-U1, V-U4, V-OI2 and V-OP1 each change their rd. -/
theorem witness_OnlyRdOfWritingClassesChanges :
    nextWith (step (vec 0x0000A183 [(1, 0x100#32)] [])) (fun t => t.readReg 3 != 0#32) = true ∧
    nextWith (step (vec 0x004280E7 [(5, 0x301#32)] [])) (fun t => t.readReg 1 != 0#32) = true ∧
    nextWith (step (vec 0x010000EF [] [])) (fun t => t.readReg 1 != 0#32) = true ∧
    nextWith (step (vec 0x000800B7 [] [])) (fun t => t.readReg 1 != 0#32) = true ∧
    nextWith (step (vec 0x12345217 [] [])) (fun t => t.readReg 4 != 0#32) = true ∧
    nextWith (step (vec 0xFFF30293 [] [])) (fun t => t.readReg 5 != 0#32) = true ∧
    nextWith (step (vec 0x002081B3 [(1, 5#32)] [])) (fun t => t.readReg 3 != 0#32) = true := by decide

/-- V-BR1, V-JR1 and V-J1 leave pc + 4. -/
theorem witness_OnlyControlTransfersRedirectPc :
    nextWith (step (vec 0x00208463 [] [])) (fun t => t.pc != 0x104#32) = true ∧
    nextWith (step (vec 0x004280E7 [(5, 0x301#32)] [])) (fun t => t.pc != 0x104#32) = true ∧
    nextWith (step (vec 0x010000EF [] [])) (fun t => t.pc != 0x104#32) = true := by decide

theorem witness_OnlyEbreakHaltsAndMarksTheTrace :
    nextWith (step (vec 0x00100073 [] [])) (fun t => t.halted) = true ∧
    nextWith (step (vec 0x00000073 [] [])) (fun t => !t.halted) = true := by decide

/-- One fault of each kind: V-F2, V-LD12, V-ST12, V-SY6. They are the witnesses of ParametersNeverChange,
AddressFaultsArePrecise and FaultKindFollowsTheWord, and of the second part of StepKeepsTheInvariant. -/
theorem witness_AddressFaults :
    faultWith (step { State.reset with pc := 0x7FFFD#32 }) ⟨.fetch, 0x7FFFD#32, 4, 0x7FFFD#32⟩ (fun _ => true) = true ∧
    faultWith (step (vec 0x0000A183 [(1, 0x7FFFD#32)] [])) ⟨.load, 0x7FFFD#32, 4, 0x100#32⟩ (fun _ => true) = true ∧
    faultWith (step (vec 0x0020A023 [(1, 0x7FFFD#32)] [])) ⟨.store, 0x7FFFD#32, 4, 0x100#32⟩ (fun _ => true) = true ∧
    faultWith (step (withSemihost (vec 0x00100073 [(10, 6#32), (11, 0x7FFFF#32)] [(0x7FFFF, 0x41#8)])))
      ⟨.semihost, 0x80000#32, 1, 0x100#32⟩ (fun _ => true) = true := by decide

theorem witness_ParametersNeverChange :
    nextWith (step State.reset) (fun _ => true) = true ∧
    faultWith (step { State.reset with pc := 0x7FFFD#32 }) ⟨.fetch, 0x7FFFD#32, 4, 0x7FFFD#32⟩ (fun _ => true) = true := by
  decide

/-- The first and the last register, an image longer than Memory, and the first and the last byte. -/
theorem witness_PowerOnLoadsTheImage :
    let p := { defaultParams with memSize := 4 }
    let image := [1#8, 2#8, 3#8, 4#8, 5#8]
    0 < 31 ∧ 30 < 31 ∧ 0 < min image.length p.memSize ∧ 3 < min image.length p.memSize ∧
    min image.length p.memSize ≤ 4 ∧ p.legal := by decide

/-- The invariant holds of the state of V-ST1, which steps, and of the state of V-SY6, which faults. -/
theorem witness_StepKeepsTheInvariant :
    (vec 0x0020A023 [(1, 0x1000#32), (2, 0x11223344#32)] []).Inv ∧
    nextWith (step (vec 0x0020A023 [(1, 0x1000#32), (2, 0x11223344#32)] [])) (fun _ => true) = true ∧
    (withSemihost (vec 0x00100073 [(10, 6#32), (11, 0x7FFFF#32)] [(0x7FFFF, 0x41#8)])).Inv ∧
    faultWith (step (withSemihost (vec 0x00100073 [(10, 6#32), (11, 0x7FFFF#32)] [(0x7FFFF, 0x41#8)])))
      ⟨.semihost, 0x80000#32, 1, 0x100#32⟩ (fun _ => true) = true := by decide

theorem witness_PcStaysEven :
    (vec 0x004280E7 [(5, 0x301#32)] []).pcEven ∧
    nextWith (step (vec 0x004280E7 [(5, 0x301#32)] [])) (fun _ => true) = true ∧
    (withSemihost (vec 0x00100073 [(10, 6#32), (11, 0x7FFFF#32)] [(0x7FFFF, 0x41#8)])).pcEven ∧
    faultWith (step (withSemihost (vec 0x00100073 [(10, 6#32), (11, 0x7FFFF#32)] [(0x7FFFF, 0x41#8)])))
      ⟨.semihost, 0x80000#32, 1, 0x100#32⟩ (fun left => left.pc == 0x104#32) = true := by decide

/-- Two states of one block with different traces behind them. -/
theorem witness_SentOutputIsNeverReadBack :
    SameBlock State.reset
      { State.reset with port := { HostPort.empty with out := [1#8], err := [2#8], trace := [.breakMark] } } :=
  ⟨rfl, rfl, rfl, rfl, rfl, rfl⟩

theorem witness_AddressFaultSwitchesToStepping :
    faulting.ended = none ∧ faulting.mode = .running ∧ (Session.turns 1 faulting).ended = none ∧
    (Session.turns 1 faulting).mode = .stepping ∧
    (Session.turns 1 faulting).commands = [['s', 't', 'e', 'p'], ['r', 'e', 's', 'e', 't']] ∧
    faultWith (step faulting.machine) ⟨.load, 0x7FFFD#32, 4, 0x100#32⟩ (fun _ => true) = true ∧
    faultWith (step (Session.turns 1 faulting).machine) ⟨.load, 0x7FFFD#32, 4, 0x100#32⟩ (fun _ => true) = true := by decide

theorem witness_FaultingStepRepeatsUntilReset :
    faulting.ended = none ∧ faulting.mode = .running ∧ faulting.commands.head? = some ['s', 't', 'e', 'p'] ∧
    ({ faulting with commands := [['r', 'e', 's', 'e', 't']] } : Session).commands.head? = some ['r', 'e', 's', 'e', 't'] ∧
    faultWith (step faulting.machine) ⟨.load, 0x7FFFD#32, 4, 0x100#32⟩ (fun _ => true) = true ∧
    AccessKind.load ≠ .semihost := by decide

/-- A run that ends by Break and one that ends by `exit`. -/
theorem witness_RunEndsByBreakOrExit :
    (Session.start (vec 0x00100073 [] []) .running []).ended = none ∧
    (Session.start (vec 0x00100073 [] []) .running []).turn.ended = some .breakReached ∧
    (p1Session [['e', 'x', 'i', 't']] 0).ended = none ∧
    (p1Session [['e', 'x', 'i', 't']] 0).turn.ended = some .exited := by decide

/-- H-4's dump, one byte that is in bounds, one that starts at memSize, and one that starts above it. -/
theorem witness_DumpStopsAtTheFirstByteOutOfBounds :
    0x7FFFF + 1 = State.reset.params.memSize ∧ State.reset.params.memSize < 0x7FFFF + 2 ∧
    0x7FFFF ≤ State.reset.params.memSize ∧ State.reset.params.memSize < 0x80000 + 1 ∧
    0x80000 ≤ State.reset.params.memSize ∧ State.reset.params.memSize < 0x80001 := by decide

/-- H-1, H-2, H-7 and H-6 at the prompt, and H-4's dump with a leading zero and with `0x`. -/
theorem witness_CommandsChangeOnlyWhatTheyName :
    (∀ line : List Char, (p1Session [line] 0).ended = none ∧ (p1Session [line] 0).mode = .stepping ∧
      (p1Session [line] 0).commands = line :: []) ∧
    nextWith (step (p1Session [['s', 't', 'e', 'p']] 0).machine) (fun _ => true) = true ∧
    ['0', '2'] = List.replicate 1 '0' ++ Nat.toDigits 10 2 ∧
    ['7', 'F', 'f', 'F', 'f'].map Char.toLower = List.replicate 0 '0' ++ Nat.toDigits 16 0x7FFFF ∧
    ['0'] = List.replicate 0 '0' ++ Nat.toDigits 10 0 ∧
    ['0'].map Char.toLower = List.replicate 0 '0' ++ Nat.toDigits 16 0 :=
  ⟨fun _ => ⟨rfl, rfl, rfl⟩, by decide, by decide, by decide, by decide, by decide⟩

/-- Lines that are ignored: the empty line, H-5's, and a dump line with no slash. -/
theorem witness_CommandsChangeOnlyWhatTheyName_ignored :
    ∀ line ∈ [[], ['S', 't', 'e', 'p'], ['x', ' ', '4']],
      line ∉ [['s', 't', 'e', 'p'], ['c', 'o', 'n', 't', 'i', 'n', 'u', 'e'], ['e', 'x', 'i', 't'],
        ['r', 'e', 's', 'e', 't']] ∧ ¬ IsDumpLine line := by
  intro line hl
  have slash : '/' ∉ line := by revert line; decide
  refine ⟨by revert line; decide, ?_⟩
  rintro ⟨count, digits, -, -, -, -, h | h⟩ <;> rw [h] at slash <;> simp at slash

end Sys2Proof.Tests
end

/-! ## The registers (10_state R21) -/

section

namespace Sys2Proof.Machine

/-- Settles O12: the register file's read-after-write law, with the two laws of x0 and the frame of a register write. -/
theorem registerZeroIsHardWired : Obligations.RegisterZeroIsHardWired := by
  intro s r q v
  exact ⟨s.readReg_zero, s.writeReg_zero v, s.readReg_writeReg r v q, s.writeReg_mem r v, s.writeReg_pc r v⟩

end Sys2Proof.Machine
end

/-! ## Shifts by an immediate, and the ALU operations on two registers (44_integer_computational R197-R211) -/

section

namespace Sys2Proof.Machine

/-- An instruction whose meaning is `writeResult` of a word completes, and computes that word under any name `v` of it. -/
theorem exec_computes {i : Instr} {s : State} {rd : RegIdx} {w v : Word} (hexec : exec i s = writeResult rd w s)
    (hvalue : w = v) : ∃ t, exec i s = .next t ∧ Computed rd v (BitVec.ofNat 32 (s.pc.toNat + 4)) s t := by
  subst hvalue
  exact ⟨_, hexec, writeResult_computed s rd w⟩

/-- `exec_computes` for a value described bit by bit. -/
theorem exec_computes_bits {i : Instr} {s : State} {rd : RegIdx} {v : Word} {bit : Nat → Bool}
    (hexec : exec i s = writeResult rd v s) (hbits : ∀ k : Nat, v.getLsbD k = bit k) :
    ∃ t v, exec i s = .next t ∧ (∀ k : Nat, v.getLsbD k = bit k) ∧
      Computed rd v (BitVec.ofNat 32 (s.pc.toNat + 4)) s t :=
  ⟨_, v, hexec, hbits, writeResult_computed s rd v⟩

/-- `to32(a - b)` of two registers' patterns, where the difference may be negative (R203). -/
theorem word_sub (a b : Word) : a - b = BitVec.ofInt 32 (a.toNat - b.toNat : Int) := by
  apply BitVec.eq_of_toNat_eq
  rw [toNat_ofInt_word, BitVec.toNat_sub]
  have := a.isLt
  have := b.isLt
  omega

/-- `1 if s(a) < s(b) else 0` (R205). -/
theorem boolWord_lessSigned (a b : Word) : boolWord (lessSigned a b) = if a.toInt < b.toInt then 1#32 else 0#32 := by
  simp only [boolWord, lessSigned, BitVec.slt_iff_toInt_lt]

/-- `1 if a <u b else 0` (R206). -/
theorem boolWord_lessUnsigned (a b : Word) :
    boolWord (lessUnsigned a b) = if a.toNat < b.toNat then 1#32 else 0#32 := by
  simp only [boolWord, lessUnsigned, BitVec.ult_iff_toNat_lt]

/-- Settles O31: each shift is its multiplication or floor division. -/
theorem immediateShiftResults : Obligations.ImmediateShiftResults := by
  intro s rd rs1 shamt
  exact ⟨exec_computes rfl (word_shiftLeft _ _), exec_computes rfl (word_shiftRight _ _),
    exec_computes rfl (word_sshiftRight _ _)⟩

/-- Settles O32: the sum and the difference modulo 2^32. -/
theorem addAndSubResults : Obligations.AddAndSubResults := by
  intro s rd rs1 rs2
  exact ⟨exec_computes rfl (BitVec.add_def _ _), exec_computes rfl (word_sub _ _)⟩

/-- Settles O33: the signed and the unsigned comparison as a word. -/
theorem compareResults : Obligations.CompareResults := by
  intro s rd rs1 rs2
  exact ⟨exec_computes rfl (boolWord_lessSigned _ _), exec_computes rfl (boolWord_lessUnsigned _ _)⟩

/-- Settles O34: each bit of the result is the operation on the operands' bits. -/
theorem logicResults : Obligations.LogicResults := by
  intro s rd rs1 rs2
  exact ⟨exec_computes_bits rfl fun _ => BitVec.getLsbD_xor, exec_computes_bits rfl fun _ => BitVec.getLsbD_or,
    exec_computes_bits rfl fun _ => BitVec.getLsbD_and⟩

end Sys2Proof.Machine
end

/-! ## SYSTEM (45_system R231) -/

section

namespace Sys2Proof.Machine

/-- ECALL's arm of the dispatch: neither field is read (R230, D14), and there is no trap to enter (R231). -/
theorem exec_ecall (rd rs1 : RegIdx) (s : State) :
    exec (.ecall rd rs1) s = .next (s.retire s.nextPc .noValue) := rfl

/-- The end of an instruction that only advances the pc, with result `r`. -/
theorem retire_nextPc_leaves (s : State) (r : StepResult) :
    let t := s.retire s.nextPc r
    SameRegisters s t ∧ SameMemory s t ∧ Retired (BitVec.ofNat 32 (s.pc.toNat + 4)) r s t := by
  refine ⟨s.readReg_retire _ r, fun a => ?_, ?_, s.retire_halted _ r, s.retire_params _ r, s.retire_port _ r⟩
  · rw [State.retire_mem]
  · rw [State.retire_pc, State.nextPc_eq]

/-- Settles O36: ECALL is the retirement at pc + 4 with no value, for every rd and rs1. -/
theorem ecallOnlyAdvances : Obligations.EcallOnlyAdvances := by
  intro s rd rs1
  exact ⟨_, exec_ecall rd rs1 s, retire_nextPc_leaves s .noValue⟩

end Sys2Proof.Machine
end

/-! ## The decoder, the encoder and the opcode table (30_encoding R70-R104) -/

section

namespace Sys2Proof

/-- A word is put together again from its own fields in the U-format, once its opcode is known. -/
theorem encU_of {w : Word} {op : BitVec 7} (ho : opcodeOf w = op) : encU (immUOf w) (rdOf w) op = w := by
  subst ho; exact encU_fields w

/-- The same in the J-format. -/
theorem encJ_of {w : Word} {op : BitVec 7} (ho : opcodeOf w = op) : encJ (immJOf w) (rdOf w) op = w := by
  subst ho; exact encJ_fields w

/-- Every class decodes its own encodings, whatever the operands. -/
theorem decode_encode {i : Instr} (h : i.wellFormed = true) : decode (encode i) = .ok i := by
  cases i
  case lb | lh | lw | lbu | lhu | load011 | load110 | load111 =>
    simp [encode, decode_of_load, decodeLoad]
  case sb | sh | sw | store011 | store100 | store101 | store110 | store111 =>
    simp [encode, decode_of_store, decodeStore]
  case beq | bne | blt | bge | bltu | bgeu | branch010 | branch011 =>
    simp [encode, decode_of_branch, decodeBranch, immBOf_encB _ _ _ _ _ h]
  case jalr | jalr001 | jalr010 | jalr011 | jalr100 | jalr101 | jalr110 | jalr111 =>
    simp [encode, decode_of_jalr, decodeJalr]
  case jal => simp [encode, decode_of_jal, immJOf_encJ _ _ _ h]
  case lui => simp [encode, decode_of_lui]
  case auipc => simp [encode, decode_of_auipc]
  case addi | slti | sltiu | xori | ori | andi | slli | srli | srai =>
    simp [encode, decode_of_opImm, decodeOpImm]
  case add | sub | sll | slt | sltu | xor | srl | sra | or | and =>
    simp [encode, decode_of_op, decodeOp]
  case ecall | ebreak => simp [encode, decode_of_system, decodeSystem]

/-- Every class decodes to an instruction whose fields put the word together again. -/
theorem encode_decode {w : Word} {i : Instr} (h : decode w = .ok i) : i.wellFormed = true ∧ encode i = w := by
  unfold decode at h
  split at h
  case h_1 hc => cases h; exact encode_decodeLoad (classOf_load.1 hc)
  case h_2 hc => exact encode_decodeOpImm (classOf_opImm.1 hc) h
  case h_3 hc => cases h; exact ⟨rfl, encU_of (classOf_auipc.1 hc)⟩
  case h_4 hc => cases h; exact encode_decodeStore (classOf_store.1 hc)
  case h_5 hc => exact encode_decodeOp (classOf_op.1 hc) h
  case h_6 hc => cases h; exact ⟨rfl, encU_of (classOf_lui.1 hc)⟩
  case h_7 hc => cases h; exact encode_decodeBranch (classOf_branch.1 hc)
  case h_8 hc => cases h; exact encode_decodeJalr (classOf_jalr.1 hc)
  case h_9 hc => cases h; exact ⟨evenOffset_immJOf w, encJ_of (classOf_jal.1 hc)⟩
  case h_10 hc => exact encode_decodeSystem (classOf_system.1 hc) h
  case h_11 => cases h

/-- Settles O1: the ten classes decode their own encodings. -/
theorem encodedInstructionDecodesBack : Obligations.EncodedInstructionDecodesBack :=
  fun _ => decode_encode

/-- Settles O2: each class's decoder keeps every field of the word. -/
theorem decodedWordEncodesBack : Obligations.DecodedWordEncodesBack :=
  fun _ _ => encode_decode

/-- Settles O6: the decoder evaluated at the nine words. -/
theorem vectorWordsDecode : Obligations.VectorWordsDecode := by
  unfold Obligations.VectorWordsDecode
  decide

/-! ### The rows of the table -/

theorem OpcodeRow.matchesWord_iff {r : OpcodeRow} {w : Word} : r.matchesWord w = true ↔ w &&& r.mask = r.pattern := by
  simp [OpcodeRow.matchesWord]

/-- Two rows that ask for different bits under their common mask share no word. -/
theorem OpcodeRow.disjoint {r q : OpcodeRow} (h : r.pattern &&& q.mask ≠ q.pattern &&& r.mask) (w : Word) :
    ¬ (r.matchesWord w = true ∧ q.matchesWord w = true) := by
  rintro ⟨hr, hq⟩
  rw [matchesWord_iff] at hr hq
  refine h ?_
  rw [← hr, ← hq, BitVec.and_assoc, BitVec.and_assoc, BitVec.and_comm r.mask]

theorem opcodeTable_patterns_differ :
    opcodeTable.Pairwise fun r q => r.pattern &&& q.mask ≠ q.pattern &&& r.mask := by
  decide

/-- Settles O3: any two rows differ in a bit that both masks fix. -/
theorem opcodeRowsAreDisjoint : Obligations.OpcodeRowsAreDisjoint :=
  opcodeTable_patterns_differ.imp OpcodeRow.disjoint

/-- Two rows that share a word are one row. -/
theorem opcodeTable_row_unique {w : Word} {r q : OpcodeRow} (hr : r ∈ opcodeTable) (hq : q ∈ opcodeTable)
    (hrw : r.matchesWord w = true) (hqw : q.matchesWord w = true) : r = q := by
  by_contra hne
  have symm : Std.Symm fun r q : OpcodeRow => ∀ w, ¬ (r.matchesWord w = true ∧ q.matchesWord w = true) :=
    ⟨fun _ _ h w hw => h w hw.symm⟩
  exact opcodeRowsAreDisjoint.forall hr hq hne w ⟨hrw, hqw⟩

theorem opcodeTable_mnemonics_differ : (opcodeTable.map OpcodeRow.mnemonic).Nodup := by decide

open Laws in
/-- Every instruction's word is of the row with its mnemonic: `OwnRow`, for the 56 instructions at once. -/
theorem encode_ownRow (i : Instr) :
    ∃ r ∈ opcodeTable, r.mnemonic = i.mnemonic ∧ r.matchesWord (encode i) = true := by
  show OwnRow.Statement i
  cases i <;> simp only [OwnRow.lb, OwnRow.lh, OwnRow.lw, OwnRow.lbu, OwnRow.lhu, OwnRow.load011, OwnRow.load110,
    OwnRow.load111, OwnRow.sb, OwnRow.sh, OwnRow.sw, OwnRow.store011, OwnRow.store100, OwnRow.store101, OwnRow.store110,
    OwnRow.store111, OwnRow.beq, OwnRow.bne, OwnRow.blt, OwnRow.bge, OwnRow.bltu, OwnRow.bgeu, OwnRow.branch010,
    OwnRow.branch011, OwnRow.jalr, OwnRow.jalr001, OwnRow.jalr010, OwnRow.jalr011, OwnRow.jalr100, OwnRow.jalr101,
    OwnRow.jalr110, OwnRow.jalr111, OwnRow.jal, OwnRow.lui, OwnRow.auipc, OwnRow.addi, OwnRow.slti, OwnRow.sltiu,
    OwnRow.xori, OwnRow.ori, OwnRow.andi, OwnRow.slli, OwnRow.srli, OwnRow.srai, OwnRow.add, OwnRow.sub, OwnRow.sll,
    OwnRow.slt, OwnRow.sltu, OwnRow.xor, OwnRow.srl, OwnRow.sra, OwnRow.or, OwnRow.and, OwnRow.ecall, OwnRow.ebreak]

/-! ### Which words are rejected (R95, R96) -/

/-- The opcode is of no class, or its class leaves the other fields without a row (R91, R92, R94-R96). -/
def SelectsNothing (op : BitVec 7) (f3 : BitVec 3) (f7 : BitVec 7) (imm : BitVec 12) : Prop :=
  op ∉ [opLoad, opOpImm, opAuipc, opStore, opOp, opLui, opBranch, opJalr, opJal, opSystem] ∨
  (op = opOp ∧ ¬ (f7 = 0#7 ∨ (f7 = 0x20#7 ∧ f3 ∈ [0#3, 5#3]))) ∨
  (op = opOpImm ∧ f3 = 1#3 ∧ f7 ≠ 0#7) ∨
  (op = opOpImm ∧ f3 = 5#3 ∧ f7 ∉ [0#7, 0x20#7]) ∨
  (op = opSystem ∧ ¬ (f3 = 0#3 ∧ imm ∈ [0#12, 1#12]))

theorem decodeOp_error_iff (w : Word) : (∃ e, decodeOp w = .error e) ↔
    ¬ (funct7Of w = 0#7 ∨ (funct7Of w = 0x20#7 ∧ funct3Of w ∈ [0#3, 5#3])) := by
  unfold decodeOp
  repeat' split
  all_goals simp [*]

theorem decodeOpImm_error_iff (w : Word) : (∃ e, decodeOpImm w = .error e) ↔
    (funct3Of w = 1#3 ∧ funct7Of w ≠ 0#7) ∨ (funct3Of w = 5#3 ∧ funct7Of w ∉ [0#7, 0x20#7]) := by
  unfold decodeOpImm
  repeat' split
  all_goals simp [*]

theorem decodeSystem_error_iff (w : Word) : (∃ e, decodeSystem w = .error e) ↔
    ¬ (funct3Of w = 0#3 ∧ immIOf w ∈ [0#12, 1#12]) := by
  unfold decodeSystem
  repeat' split
  all_goals simp [*]

theorem decode_error_iff (w : Word) : (∃ e, decode w = .error e) ↔
    SelectsNothing (opcodeOf w) (funct3Of w) (funct7Of w) (immIOf w) := by
  unfold decode SelectsNothing
  split
  case h_1 hc => simp [classOf_load.1 hc, opLoad, opOp, opOpImm, opSystem]
  case h_2 hc => simp [decodeOpImm_error_iff, classOf_opImm.1 hc, opOp, opOpImm, opSystem]
  case h_3 hc => simp [classOf_auipc.1 hc, opAuipc, opOp, opOpImm, opSystem]
  case h_4 hc => simp [classOf_store.1 hc, opStore, opOp, opOpImm, opSystem]
  case h_5 hc => simp [decodeOp_error_iff, classOf_op.1 hc, opOp, opOpImm, opSystem]
  case h_6 hc => simp [classOf_lui.1 hc, opLui, opOp, opOpImm, opSystem]
  case h_7 hc => simp [classOf_branch.1 hc, opBranch, opOp, opOpImm, opSystem]
  case h_8 hc => simp [classOf_jalr.1 hc, opJalr, opOp, opOpImm, opSystem]
  case h_9 hc => simp [classOf_jal.1 hc, opJal, opOp, opOpImm, opSystem]
  case h_10 hc => simp [decodeSystem_error_iff, classOf_system.1 hc, opOp, opOpImm, opSystem]
  case h_11 hc => exact iff_of_true ⟨_, rfl⟩ (.inl (classOf_unknown.1 hc))

/-- Settles O5: the decoder's rejections, class by class. -/
theorem rejectedWordsByClass : Obligations.RejectedWordsByClass :=
  decode_error_iff

/-- The bits that a row leaves free select nothing: a class that reads a field has it under the row's mask. -/
def OpcodeRow.FixesSelectors (r : OpcodeRow) : Prop :=
  opcodeOf r.mask = BitVec.allOnes 7 ∧
  (opcodeOf r.pattern ∈ [opOp, opOpImm, opSystem] → funct3Of r.mask = BitVec.allOnes 3) ∧
  (opcodeOf r.pattern = opOp ∨ (opcodeOf r.pattern = opOpImm ∧ funct3Of r.pattern ∈ [1#3, 5#3]) →
    funct7Of r.mask = BitVec.allOnes 7) ∧
  (opcodeOf r.pattern = opSystem → immIOf r.mask = BitVec.allOnes 12)

theorem opcodeTable_fixesSelectors : ∀ r ∈ opcodeTable, r.FixesSelectors := by
  unfold OpcodeRow.FixesSelectors
  decide

theorem opcodeTable_patterns_decode : ∀ r ∈ opcodeTable, ¬ ∃ e, decode r.pattern = .error e := by
  simp only [decode_error_iff, SelectsNothing]
  decide

/-- A field under the row's mask is the pattern's. -/
theorem OpcodeRow.field_eq {r : OpcodeRow} {w : Word} (h : r.matchesWord w = true) (a n : Nat)
    (hm : r.mask.extractLsb' a n = BitVec.allOnes n) : w.extractLsb' a n = r.pattern.extractLsb' a n := by
  rw [← matchesWord_iff.1 h, BitVec.extractLsb'_and, hm, BitVec.and_allOnes]

/-- A word of a row is rejected only if the row's own pattern is. -/
theorem OpcodeRow.rejects_pattern {r : OpcodeRow} {w : Word} (hf : r.FixesSelectors) (h : r.matchesWord w = true)
    (hw : ∃ e, decode w = .error e) : ∃ e, decode r.pattern = .error e := by
  obtain ⟨hop, hf3, hf7, himm⟩ := hf
  have op : opcodeOf w = opcodeOf r.pattern := field_eq h 0 7 hop
  rw [decode_error_iff] at hw ⊢
  rcases hw with hw | ⟨ho, hw⟩ | ⟨ho, h3, hw⟩ | ⟨ho, h3, hw⟩ | ⟨ho, hw⟩ <;> rw [op] at *
  · exact .inl hw
  · have f3 : funct3Of w = funct3Of r.pattern := field_eq h 12 3 (hf3 (by simp [ho]))
    have f7 : funct7Of w = funct7Of r.pattern := field_eq h 25 7 (hf7 (by simp [ho]))
    exact .inr (.inl ⟨ho, f3 ▸ f7 ▸ hw⟩)
  · have f3 : funct3Of w = funct3Of r.pattern := field_eq h 12 3 (hf3 (by simp [ho]))
    have f7 : funct7Of w = funct7Of r.pattern := field_eq h 25 7 (hf7 (by simp [ho, ← f3, h3]))
    exact .inr (.inr (.inl ⟨ho, f3 ▸ h3, f7 ▸ hw⟩))
  · have f3 : funct3Of w = funct3Of r.pattern := field_eq h 12 3 (hf3 (by simp [ho]))
    have f7 : funct7Of w = funct7Of r.pattern := field_eq h 25 7 (hf7 (by simp [ho, ← f3, h3]))
    exact .inr (.inr (.inr (.inl ⟨ho, f3 ▸ h3, f7 ▸ hw⟩)))
  · have f3 : funct3Of w = funct3Of r.pattern := field_eq h 12 3 (hf3 (by simp [ho]))
    have imm : immIOf w = immIOf r.pattern := field_eq h 20 12 (himm ho)
    exact .inr (.inr (.inr (.inr ⟨ho, f3 ▸ imm ▸ hw⟩)))

/-- Settles O4: a recognized word is of its instruction's own row, and rows are disjoint; a word of a row differs from
the row's pattern only where the decoder does not select. -/
theorem decoderFollowsTheOpcodeTable : Obligations.DecoderFollowsTheOpcodeTable := by
  have own : ∀ {w i}, decode w = .ok i → ∃ q ∈ opcodeTable, q.mnemonic = i.mnemonic ∧ q.matchesWord w = true := by
    intro w i h
    exact (encode_decode h).2 ▸ encode_ownRow i
  refine ⟨fun w i h r hr => ?_, fun w => ⟨fun hw r hr => ?_, fun hw => ?_⟩⟩
  · obtain ⟨q, hq, hmn, hqw⟩ := own h
    constructor
    · intro hrw
      rw [opcodeTable_row_unique hr hq hrw hqw, hmn]
    · intro hm
      rw [List.inj_on_of_nodup_map opcodeTable_mnemonics_differ hr hq (hm.trans hmn.symm)]
      exact hqw
  · by_contra hrw
    exact opcodeTable_patterns_decode r hr
      (OpcodeRow.rejects_pattern (opcodeTable_fixesSelectors r hr) (eq_true_of_ne_false hrw) hw)
  · cases hd : decode w with
    | error e => exact ⟨e, rfl⟩
    | ok i =>
      obtain ⟨q, hq, -, hqw⟩ := own hd
      rw [hw q hq] at hqw
      cases hqw

/-! ### The format of a word (R104) -/

open Machine in
/-- The classes of each format (R80, R104). -/
theorem classifyOpcode_iff_class (w : Word) :
    (classifyOpcode w = .I ↔ classOf w = .load ∨ classOf w = .opImm ∨ classOf w = .jalr ∨ classOf w = .system) ∧
    (classifyOpcode w = .S ↔ classOf w = .store) ∧ (classifyOpcode w = .B ↔ classOf w = .branch) ∧
    (classifyOpcode w = .U ↔ classOf w = .lui ∨ classOf w = .auipc) ∧ (classifyOpcode w = .J ↔ classOf w = .jal) ∧
    (classifyOpcode w = .R ↔ classOf w = .op) := by
  unfold classifyOpcode
  cases classOf w <;> decide

/-- Settles O60: the format is a function of the class, and the class of the opcode. -/
theorem classifyOpcodeReadsTheOpcode : Obligations.ClassifyOpcodeReadsTheOpcode := by
  intro w
  have h := classifyOpcode_iff_class w
  simp only [classOf_load, classOf_opImm, classOf_jalr, classOf_system, classOf_store, classOf_branch, classOf_lui,
    classOf_auipc, classOf_jal, classOf_op] at h
  simp only [List.mem_cons, List.not_mem_nil, or_false]
  exact h

end Sys2Proof
end

/-! ## What a completed step leaves of Memory, the parameters, the pc, the registers and the trace -/

section

namespace Sys2Proof.Machine

/-- A completed step keeps the parameters, and only a STORE word writes to Memory: four bytes in bounds (R28, R41). -/
theorem step_next_mem {s t : State} (h : step s = .next t) :
    t.params = s.params ∧ (t.mem = s.mem ∨ (classOf (wordAt s.mem s.pc.toNat) = .store ∧
      ∃ a v, a + 4 ≤ s.params.memSize ∧ t.mem = writeBytes s.mem a 4 v)) := by
  obtain ⟨-, -, -, hr⟩ := step_next h
  rcases runWord_next hr with ⟨-, rfl⟩ | ⟨-, -, u, v, hu, rfl⟩ | ⟨hc, -, u, ea, v, hu, rfl⟩ | ⟨-, -, c, rfl⟩ |
    ⟨-, -, x, rfl⟩ | ⟨-, -, rfl⟩ | ⟨-, -, bs, rfl⟩
  case inr.inl => rcases hu with rfl | ⟨rest, rfl⟩ <;> simp
  case inr.inr.inl =>
    rcases lsuWrite_ok hu with ⟨hb, rfl⟩ | rfl | rfl | rfl
    · exact ⟨rfl, .inr ⟨hc, _, _, hb, rfl⟩⟩
    all_goals exact ⟨rfl, .inl rfl⟩
  all_goals simp

/-- After a completed step the pc is the next address, a branch's target or a jump's (R125). -/
theorem step_next_pc {s t : State} (h : step s = .next t) :
    t.pc = s.nextPc ∨
    (classOf (wordAt s.mem s.pc.toNat) = .branch ∧ t.pc = branchTarget s (immBOf (wordAt s.mem s.pc.toNat))) ∨
    (classOf (wordAt s.mem s.pc.toNat) ∈ [OpClass.jalr, .jal] ∧ ∃ x, t.pc = clearBit0 x) := by
  obtain ⟨-, -, -, hr⟩ := step_next h
  rcases runWord_next hr with ⟨-, rfl⟩ | ⟨-, -, u, v, hu, rfl⟩ | ⟨-, -, u, ea, v, hu, rfl⟩ | ⟨hc, -, c, rfl⟩ |
    ⟨hc, -, x, rfl⟩ | ⟨-, -, rfl⟩ | ⟨-, -, bs, rfl⟩
  case inr.inr.inr.inl =>
    cases c
    · exact .inl rfl
    · exact .inr (.inl ⟨hc, rfl⟩)
  case inr.inr.inr.inr.inl => exact .inr (.inr ⟨hc, x, rfl⟩)
  all_goals exact .inl rfl

/-- A completed step leaves the registers, or writes the rd of a word of a class that writes one (R22). -/
theorem step_next_regs {s t : State} (h : step s = .next t) :
    (∀ q, t.readReg q = s.readReg q) ∨
    (classOf (wordAt s.mem s.pc.toNat) ∈ [OpClass.load, .jalr, .jal, .lui, .auipc, .opImm, .op] ∧
      ∃ v, ∀ q, t.readReg q = (s.writeReg (rdOf (wordAt s.mem s.pc.toNat)) v).readReg q) := by
  obtain ⟨-, -, -, hr⟩ := step_next h
  rcases runWord_next hr with ⟨-, rfl⟩ | ⟨hc, -, u, v, hu, rfl⟩ | ⟨-, -, u, ea, v, hu, rfl⟩ | ⟨-, -, c, rfl⟩ |
    ⟨hc, -, x, rfl⟩ | ⟨-, -, rfl⟩ | ⟨-, -, bs, rfl⟩
  case inr.inl =>
    refine .inr ⟨by simp at hc ⊢; tauto, v, fun q => ?_⟩
    have hread : u.readReg q = s.readReg q := by rcases hu with rfl | ⟨rest, rfl⟩ <;> rfl
    rw [State.readReg_retire, State.readReg_writeReg, State.readReg_writeReg, hread]
  case inr.inr.inl => exact .inl (lsuWrite_frame hu).1
  case inr.inr.inr.inr.inl => exact .inr ⟨by simp at hc ⊢; tauto, s.nextPc, fun q => rfl⟩
  all_goals exact .inl fun q => rfl

/-- Settles O42: only the STORE case of `step_next_mem` has a byte that reads otherwise. -/
theorem onlyStoreChangesMemory : Obligations.OnlyStoreChangesMemory := by
  intro s t a h hne
  rcases (step_next_mem h).2 with e | ⟨hc, -⟩
  · exact absurd (by rw [e]) hne
  · exact hc

/-- Settles O43: a write reads otherwise at its own register alone, and x0 reads as zero. -/
theorem onlyRdOfWritingClassesChanges : Obligations.OnlyRdOfWritingClassesChanges := by
  intro s t q h hne
  rcases step_next_regs h with e | ⟨hc, v, e⟩
  · exact absurd (e q) hne
  · rw [e, State.readReg_writeReg] at hne
    have h0 : q ≠ 0#5 := by rintro rfl; simp at hne
    have hrd : q = rdOf (wordAt s.mem s.pc.toNat) := by by_contra hq; simp [h0, hq] at hne
    exact ⟨hrd, h0, hc⟩

/-- Settles O44: the two cases of `step_next_pc` beside pc + 4. -/
theorem onlyControlTransfersRedirectPc : Obligations.OnlyControlTransfersRedirectPc := by
  intro s t h hne
  rcases step_next_pc h with e | ⟨hc, -⟩ | ⟨hc, -⟩
  · exact absurd (e.trans s.nextPc_eq) hne
  · simp [hc]
  · exact List.mem_cons_of_mem _ hc

/-- Settles O45: the shapes of a completed step, of which EBREAK's alone halts and leaves the Break marker. -/
theorem onlyEbreakHaltsAndMarksTheTrace : Obligations.OnlyEbreakHaltsAndMarksTheTrace := by
  intro s t h
  obtain ⟨hh, -, -, hr⟩ := step_next h
  have goesOn : ∀ r, t.port.trace = s.port.trace ++ [r] → r ≠ .breakMark → t.halted = false →
      (∀ rd rs1, decode (wordAt s.mem s.pc.toNat) ≠ .ok (.ebreak rd rs1)) →
      ∃ r, t.port.trace = s.port.trace ++ [r] ∧ (r = .breakMark ↔ t.halted = true) ∧
        (t.halted = true ↔ ∃ rd rs1, decode (wordAt s.mem s.pc.toNat) = .ok (.ebreak rd rs1)) := by
    intro r ht hr hf hd
    exact ⟨r, ht, by simp [hr, hf], by simp [hd, hf]⟩
  rcases runWord_next hr with ⟨⟨e, he⟩, rfl⟩ | ⟨-, hd, u, v, hu, rfl⟩ | ⟨-, hd, u, ea, v, hu, rfl⟩ | ⟨-, hd, c, rfl⟩ |
    ⟨-, hd, x, rfl⟩ | ⟨-, hd, rfl⟩ | ⟨-, hd, bs, rfl⟩
  · exact goesOn .noValue rfl nofun hh (by simp [he])
  · refine goesOn (.value v) ?_ nofun ?_ hd <;> rcases hu with rfl | ⟨rest, rfl⟩ <;> simp [hh]
  · obtain ⟨-, -, hhalt, -, htrace⟩ := lsuWrite_frame hu
    exact goesOn .noValue (by simp [htrace]) nofun (by simp [hhalt, hh]) hd
  · exact goesOn _ rfl nofun hh hd
  · exact goesOn (.value s.nextPc) (by simp) nofun (by simp [hh]) hd
  · exact goesOn _ rfl nofun hh hd
  · exact ⟨.breakMark, rfl, by simp, by simp [hd]⟩

/-- Settles O46: `step_next_mem`, and the two states that an AddressFault leaves. -/
theorem parametersNeverChange : Obligations.ParametersNeverChange := by
  refine ⟨fun s t h => (step_next_mem h).1, fun s left info h => ?_⟩
  rcases (step_addressFault h).2 with rfl | ⟨bs, rfl⟩ <;> rfl

/-! ### The invariants -/

/-- The invariant reads the parameters and Memory alone. -/
theorem State.Inv.congr {s t : State} (h : s.Inv) (hp : t.params = s.params) (hm : t.mem = s.mem) : t.Inv := by
  unfold State.Inv
  rwa [hp, hm]

/-- Settles O52: a completed step leaves Memory or writes to it in bounds, and an AddressFault leaves it. -/
theorem stepKeepsTheInvariant : Obligations.StepKeepsTheInvariant := by
  intro s hs
  refine ⟨fun t h => ?_, fun info left h => ?_⟩
  · obtain ⟨hp, hm | ⟨-, a, v, hb, hm⟩⟩ := step_next_mem h
    · exact hs.congr hp hm
    · obtain ⟨hlegal, hwf, hwithin⟩ := hs
      unfold State.Inv
      rw [hp, hm]
      exact ⟨hlegal, writeBytes_wf hwf _ _ _, writeBytes_within hwithin _ _ _ hb⟩
  · rcases (step_addressFault h).2 with rfl | ⟨bs, rfl⟩
    · exact hs
    · exact hs.congr rfl rfl

theorem getLsbD_zero_eq_false_iff {n : Nat} (x : BitVec n) : x.getLsbD 0 = false ↔ x.toNat % 2 = 0 := by
  simp [BitVec.getLsbD, Nat.testBit_zero]

/-- Every reading of an even offset is even (R85). -/
theorem immBExec_even (reading : BranchImmExec) {off : BitVec 13} (h : evenOffset off = true) :
    immBExec reading off % 2 = 0 := by
  have heven : off.toNat % 2 = 0 := by
    rwa [evenOffset, Bool.not_eq_true', getLsbD_zero_eq_false_iff] at h
  have hlow : (off.extractLsb' 0 12).toInt % 2 = 0 := by
    rw [BitVec.toInt_eq_toNat_cond, BitVec.extractLsb'_toNat]
    split <;> omega
  cases reading <;> simp only [immBExec]
  · split <;> omega
  · exact hlow
  · split
    · exact hlow
    · omega

/-- A branch from an even address to an even offset goes to an even address (R160). -/
theorem branchTarget_even {s : State} {off : BitVec 13} (hs : s.pcEven) (h : evenOffset off = true) :
    (branchTarget s off).getLsbD 0 = false := by
  have himm := immBExec_even s.params.branchImmExec h
  rw [State.pcEven, getLsbD_zero_eq_false_iff] at hs
  rw [branchTarget, word_add_int, getLsbD_zero_eq_false_iff, toNat_ofInt_word]
  omega

/-- Settles O53: pc + 4, a branch's target, and a jump's, whose bit 0 is cleared. -/
theorem pcStaysEven : Obligations.PcStaysEven := by
  intro s hs
  refine ⟨fun t h => ?_, fun info left h => ?_⟩
  · unfold State.pcEven
    rcases step_next_pc h with e | ⟨-, e⟩ | ⟨-, x, e⟩ <;> rw [e]
    · exact State.nextPc_even hs
    · exact branchTarget_even hs (evenOffset_immBOf _)
    · exact clearBit0_even x
  · rcases (step_addressFault h).2 with rfl | ⟨bs, rfl⟩
    · exact hs
    · exact State.nextPc_even hs

/-- Settles O51: both invariants evaluated at `State.reset`. -/
theorem resetMeetsTheInvariant : Obligations.ResetMeetsTheInvariant := by
  unfold Obligations.ResetMeetsTheInvariant
  decide

end Sys2Proof.Machine
end

/-! ## AddressFaults (60_exceptions R250-R258) -/

section

namespace Sys2Proof.Machine

/-- Every AddressFault of a step: the fetch's, a LOAD word's, a STORE word's, or that of the semihosting word (R251). -/
theorem step_addressFault_cases {s : State} {info : AddressFault} {left : State}
    (h : step s = .fault (.addressFault info left)) :
    (¬ s.pc.toNat + 4 ≤ s.params.memSize ∧ info = ⟨.fetch, s.pc, 4, s.pc⟩ ∧ left = s) ∨
    (s.pc.toNat + 4 ≤ s.params.memSize ∧
      ((classOf (wordAt s.mem s.pc.toNat) = .load ∧ ∃ ea, info = ⟨.load, ea, 4, s.pc⟩ ∧ left = s ∧
        ¬ ea.toNat + 4 ≤ s.params.memSize) ∨
      (classOf (wordAt s.mem s.pc.toNat) = .store ∧ ∃ ea, info = ⟨.store, ea, 4, s.pc⟩ ∧ left = s ∧
        ¬ ea.toNat + 4 ≤ s.params.memSize) ∨
      (wordAt s.mem s.pc.toNat = semihostWord ∧ s.params.semihostEnabled = true ∧
        ∃ q bs, info = ⟨.semihost, q, 1, s.pc⟩ ∧ left = (s.setPc s.nextPc).emitAll bs ∧
          ¬ q.toNat + 1 ≤ s.params.memSize))) := by
  rcases step_fault h with ⟨-, e⟩ | ⟨-, hb, e⟩ | ⟨-, hb, hr⟩
  · cases e
  · cases e; exact .inl ⟨hb, rfl, rfl⟩
  · refine .inr ⟨hb, ?_⟩
    rcases runWord_addressFault hr with hload | hstore | ⟨hd, hsemi⟩
    · exact .inl hload
    · exact .inr (.inl hstore)
    · exact .inr (.inr ⟨(encode_decode hd).2.symm, hsemi⟩)

/-- Settles O47: each of the four AddressFaults carries its record and what it leaves. -/
theorem addressFaultsArePrecise : Obligations.AddressFaultsArePrecise := by
  intro s left info h
  have hh := (step_addressFault h).1
  rcases step_addressFault_cases h with ⟨hb, rfl, rfl⟩ | ⟨-, ⟨-, ea, rfl, rfl, hb⟩ | ⟨-, ea, rfl, rfl, hb⟩ |
    ⟨-, -, q, bs, rfl, rfl, hb⟩⟩
  · exact ⟨rfl, Nat.lt_of_not_le hb, fun _ => ⟨rfl, rfl⟩, nofun⟩
  · exact ⟨rfl, Nat.lt_of_not_le hb, fun _ => ⟨rfl, rfl⟩, nofun⟩
  · exact ⟨rfl, Nat.lt_of_not_le hb, fun _ => ⟨rfl, rfl⟩, nofun⟩
  · exact ⟨rfl, Nat.lt_of_not_le hb, fun hk => absurd rfl hk,
      fun _ => ⟨rfl, s.nextPc_eq, hh, rfl, rfl, bs, rfl⟩⟩

/-- Settles O48: the record's kind tells the four cases apart. -/
theorem faultKindFollowsTheWord : Obligations.FaultKindFollowsTheWord := by
  intro s left info h
  rcases step_addressFault_cases h with ⟨hb, rfl, -⟩ | ⟨hb, ⟨hc, ea, rfl, -, -⟩ | ⟨hc, ea, rfl, -, -⟩ |
    ⟨hw, hs, q, bs, rfl, -, -⟩⟩
  · exact ⟨iff_of_true rfl (Nat.lt_of_not_le hb), nofun, nofun, nofun⟩
  · exact ⟨iff_of_false nofun (Nat.not_lt.2 hb), fun _ => hc, nofun, nofun⟩
  · exact ⟨iff_of_false nofun (Nat.not_lt.2 hb), nofun, fun _ => hc, nofun⟩
  · exact ⟨iff_of_false nofun (Nat.not_lt.2 hb), nofun, nofun, fun _ => ⟨hw, hs⟩⟩

end Sys2Proof.Machine
end

/-! ## What was sent is never read back (10_state R32, 60_exceptions R268) -/

section

namespace Sys2Proof.Machine

section Operations

variable {s t : State} (h : SameBlock s t)
include h

theorem SameBlock.pc : s.pc = t.pc := h.2.1
theorem SameBlock.halted : s.halted = t.halted := h.2.2.2.1
theorem SameBlock.params : s.params = t.params := h.2.2.2.2.1

theorem SameBlock.readReg (q : RegIdx) : s.readReg q = t.readReg q :=
  State.readReg_congr h.1 q

theorem SameBlock.nextPc : s.nextPc = t.nextPc := by
  rw [State.nextPc, State.nextPc, h.pc]

theorem SameBlock.memRead (a n : Nat) : s.memRead a n = t.memRead a n := by
  obtain ⟨-, -, hmem, -⟩ := id h
  rw [State.memRead, State.memRead, State.inBounds, State.inBounds, hmem, h.params]

theorem SameBlock.setPc {x y : Word} (e : x = y) : SameBlock (s.setPc x) (t.setPc y) := by
  obtain ⟨hregs, -, hmem, hhalted, hparams, hinput⟩ := h
  exact ⟨hregs, e, hmem, hhalted, hparams, hinput⟩

theorem SameBlock.writeReg (r : RegIdx) {v w : Word} (e : v = w) : SameBlock (s.writeReg r v) (t.writeReg r w) := by
  obtain ⟨hregs, hpc, hmem, hhalted, hparams, hinput⟩ := h
  subst e
  refine ⟨State.regs_ext fun q => ?_, ?_, ?_, ?_, ?_, ?_⟩
  · simp [State.readReg_writeReg, State.readReg_congr hregs q]
  all_goals simpa

theorem SameBlock.retire {x y : Word} (e : x = y) (r q : StepResult) : SameBlock (s.retire x r) (t.retire y q) := by
  obtain ⟨hregs, -, hmem, hhalted, hparams, hinput⟩ := h
  exact ⟨hregs, e, hmem, hhalted, hparams, hinput⟩

theorem SameBlock.halt_result (r q : StepResult) : SameBlock (s.halt.result r) (t.halt.result q) := by
  obtain ⟨hregs, hpc, hmem, -, hparams, hinput⟩ := h
  exact ⟨hregs, hpc, hmem, rfl, hparams, hinput⟩

theorem SameBlock.emitOut (b c : Byte) : SameBlock (s.emitOut b) (t.emitOut c) := h
theorem SameBlock.emitErr (b c : Byte) : SameBlock (s.emitErr b) (t.emitErr c) := h
theorem SameBlock.report (r q : UnrecognizedReport) : SameBlock (s.report r) (t.report q) := h

end Operations

/-- Two answers of an operation that may fault: values that R relates, or the same fault up to what was sent. -/
def SameAnswer {α : Type} (R : α → α → Prop) : Except Fault α → Except Fault α → Prop
  | .ok a, .ok b => R a b
  | .error f, .error g => SameOutcome (.fault f) (.fault g)
  | _, _ => False

theorem SameAnswer.cases {α : Type} {R : α → α → Prop} {x y : Except Fault α} (h : SameAnswer R x y) :
    (∃ a b, x = .ok a ∧ y = .ok b ∧ R a b) ∨
      ∃ f g, x = .error f ∧ y = .error g ∧ SameOutcome (.fault f) (.fault g) := by
  rcases x with f | a <;> rcases y with g | b
  · exact .inr ⟨f, g, rfl, rfl, h⟩
  · exact h.elim
  · exact h.elim
  · exact .inl ⟨a, b, rfl, rfl, h⟩

theorem fetch_sameAnswer {s t : State} (h : SameBlock s t) : SameAnswer Eq (fetch s) (fetch t) := by
  unfold fetch
  rw [h.memRead, h.pc]
  cases t.memRead t.pc.toNat 4 with
  | none => exact ⟨rfl, h⟩
  | some v => rfl

theorem lsuRead_sameAnswer {s t : State} (h : SameBlock s t) (ea : Word) :
    SameAnswer (fun a b => a.1 = b.1 ∧ SameBlock a.2 b.2) (lsuRead s ea) (lsuRead t ea) := by
  have hmem := h.memRead ea.toNat 4
  obtain ⟨hregs, hpc, hbytes, hhalted, hparams, hinput⟩ := id h
  unfold lsuRead
  rw [hmem, hparams, hinput]
  split
  · cases t.port.input with
    | nil => trivial
    | cons line rest => exact ⟨rfl, hregs, hpc, hbytes, hhalted, rfl, rfl⟩
  split
  · exact ⟨rfl, h⟩
  cases t.memRead ea.toNat 4 with
  | none => exact ⟨by rw [hpc], h⟩
  | some v => exact ⟨rfl, h⟩

theorem lsuWrite_sameAnswer {s t : State} (h : SameBlock s t) (ea v : Word) :
    SameAnswer SameBlock (lsuWrite s ea v) (lsuWrite t ea v) := by
  obtain ⟨hregs, hpc, hmem, hhalted, hparams, hinput⟩ := id h
  unfold lsuWrite State.memWrite State.inBounds
  rw [hparams]
  split
  · exact h.emitOut _ _
  split
  · exact h.emitErr _ _
  split
  · exact h
  cases decide (ea.toNat + 4 ≤ t.params.memSize) with
  | false => exact ⟨by rw [hpc], h⟩
  | true => exact ⟨hregs, hpc, by rw [hmem], hhalted, rfl, hinput⟩

theorem semihostString_sameAnswer (fuel : Nat) {p pc : Word} {s t : State} (h : SameBlock s t) :
    SameAnswer SameBlock (semihostString fuel p pc s) (semihostString fuel p pc t) := by
  induction fuel generalizing p s t with
  | zero => trivial
  | succ fuel ih =>
    unfold semihostString
    rw [h.memRead]
    cases t.memRead p.toNat 1 with
    | none => exact ⟨rfl, h⟩
    | some c =>
      dsimp only
      split
      · exact h
      · exact ih (h.emitOut _ _)

theorem semihost_sameAnswer {s t : State} (h : SameBlock s t) (pc : Word) :
    SameAnswer SameBlock (semihost pc s) (semihost pc t) := by
  unfold semihost
  rw [h.readReg, h.readReg, h.params]
  split
  · exact h.emitOut _ _
  split
  · exact semihostString_sameAnswer _ h
  · exact h

section Meanings

variable {s t : State} (h : SameBlock s t)
include h

theorem SameBlock.effAddr (rs1 : RegIdx) (imm : BitVec 12) : effAddr s rs1 imm = effAddr t rs1 imm := by
  rw [Machine.effAddr, Machine.effAddr, h.readReg]

theorem SameBlock.branchTarget (off : BitVec 13) : branchTarget s off = branchTarget t off := by
  rw [Machine.branchTarget, Machine.branchTarget, h.pc, h.params]

theorem loadClass_sameOutcome (rd rs1 : RegIdx) (imm : BitVec 12) :
    SameOutcome (loadClass rd rs1 imm s) (loadClass rd rs1 imm t) := by
  rcases (lsuRead_sameAnswer h (effAddr s rs1 imm)).cases with
    ⟨⟨v, u⟩, ⟨w, u'⟩, hs, ht, hv, hu⟩ | ⟨f, g, hs, ht, hfg⟩ <;> rw [h.effAddr] at ht
  · rw [loadClass_ok hs, loadClass_ok ht]
    exact (hu.writeReg rd hv).retire h.nextPc _ _
  · rw [loadClass_error hs, loadClass_error ht]
    exact hfg

theorem storeClass_sameOutcome (rs1 rs2 : RegIdx) (imm : BitVec 12) :
    SameOutcome (storeClass rs1 rs2 imm s) (storeClass rs1 rs2 imm t) := by
  rcases (lsuWrite_sameAnswer h (effAddr s rs1 imm) (s.readReg rs2)).cases with
    ⟨u, u', hs, ht, hu⟩ | ⟨f, g, hs, ht, hfg⟩ <;> rw [h.effAddr, h.readReg] at ht
  · rw [storeClass_ok hs, storeClass_ok ht]
    exact hu.retire h.nextPc _ _
  · rw [storeClass_error hs, storeClass_error ht]
    exact hfg

theorem branchClass_sameOutcome (rs1 rs2 : RegIdx) (off : BitVec 13) :
    SameOutcome (branchClass rs1 rs2 off s) (branchClass rs1 rs2 off t) := by
  unfold branchClass
  rw [h.readReg, h.readReg, h.branchTarget, h.nextPc]
  exact h.retire rfl _ _

theorem jumpTo_sameOutcome (rd : RegIdx) {x y : Word} (e : x = y) : SameOutcome (jumpTo rd x s) (jumpTo rd y t) :=
  (h.writeReg rd h.nextPc).retire e _ _

/-- A computational instruction computes the same value from the same block. -/
theorem exec_computed_sameOutcome {i : Instr} {rd : RegIdx} (hi : computedRd i = some rd) :
    SameOutcome (exec i s) (exec i t) := by
  have same : ∀ {v w : Word}, v = w → SameOutcome (writeResult rd v s) (writeResult rd w t) :=
    fun e => (h.writeReg rd e).retire h.nextPc _ _
  cases i <;> simp only [computedRd, Option.some.injEq, reduceCtorEq] at hi
  all_goals
    subst hi
    exact same (by simp only [h.readReg, h.pc])

theorem execEbreak_sameOutcome (rd rs1 : RegIdx) : SameOutcome (execEbreak rd rs1 s) (execEbreak rd rs1 t) := by
  have hset := h.setPc h.nextPc
  unfold execEbreak
  rw [h.params, h.pc]
  split
  · rcases (semihost_sameAnswer hset t.pc).cases with ⟨u, u', hs, ht, hu⟩ | ⟨f, g, hs, ht, hfg⟩ <;> rw [hs, ht]
    · exact hu.halt_result _ _
    · exact hfg
  · exact hset.halt_result _ _

theorem exec_sameOutcome (i : Instr) : SameOutcome (exec i s) (exec i t) := by
  rcases exec_shape i with ⟨rd, rs1, imm, hi⟩ | ⟨rs1, rs2, imm, hi⟩ | ⟨rs1, rs2, off, hi⟩ | ⟨rd, rs1, imm, hi⟩ |
    ⟨rd, off, rfl⟩ | ⟨rd, hi, -⟩ | ⟨rd, rs1, rfl⟩ | ⟨rd, rs1, rfl⟩
  · rw [exec_load hi, exec_load hi]
    exact loadClass_sameOutcome h rd rs1 imm
  · rw [exec_store hi, exec_store hi]
    exact storeClass_sameOutcome h rs1 rs2 imm
  · rw [exec_branch hi, exec_branch hi]
    exact branchClass_sameOutcome h rs1 rs2 off
  · rw [exec_jalr hi, exec_jalr hi]
    exact jumpTo_sameOutcome h rd (by rw [jalrTarget, jalrTarget, h.readReg])
  · exact jumpTo_sameOutcome h rd (by rw [jalTarget, jalTarget, h.pc])
  · exact exec_computed_sameOutcome h hi
  · exact h.retire h.nextPc _ _
  · exact execEbreak_sameOutcome h rd rs1

theorem runWord_sameOutcome (w : Word) : SameOutcome (runWord w s) (runWord w t) := by
  unfold runWord
  cases decode w with
  | ok i => exact exec_sameOutcome h i
  | error e => exact (h.report _ _).retire h.nextPc _ _

end Meanings

/-- Settles O54: fetch, the decoder and every meaning read the block and console-in alone. -/
theorem sentOutputIsNeverReadBack : Obligations.SentOutputIsNeverReadBack := by
  intro s t h
  unfold step State.stepEnabled
  rw [h.halted]
  split
  · rcases (fetch_sameAnswer h).cases with ⟨w, w', hs, ht, rfl⟩ | ⟨f, g, hs, ht, hfg⟩ <;> rw [hs, ht]
    · exact runWord_sameOutcome h w
    · exact hfg
  · trivial

end Sys2Proof.Machine
end

/-! ## The step (40_execute_cycle R120-R131) -/

section

namespace Sys2Proof.Machine

/-- An enabled step runs the instruction that the word at the pc decodes to (R121-R124). -/
theorem step_eq_exec {s : State} {i : Instr} (hh : s.halted = false) (hb : s.pc.toNat + 4 ≤ s.params.memSize)
    (hd : decode (wordAt s.mem s.pc.toNat) = .ok i) : step s = exec i s := by
  rw [step_runWord hh hb, runWord, hd]

/-- An enabled step of a word that the decoder rejects is the no-op with its report (R238). -/
theorem step_unrecognized {s : State} {e : Unrecognized} (hh : s.halted = false)
    (hb : s.pc.toNat + 4 ≤ s.params.memSize) (hd : decode (wordAt s.mem s.pc.toNat) = .error e) :
    step s = .next ((s.report ⟨s.pc, wordAt s.mem s.pc.toNat⟩).retire s.nextPc .noValue) := by
  rw [step_runWord hh hb, runWord, hd]
  rfl

/-- The word at an address is the one whose bytes stand there (R44). -/
theorem wordAt_eq_of_bytes {m : Memory} {a : Nat} {w : Word}
    (h : ∀ k : Nat, k < 4 → readByte m (a + k) = w.extractLsb' (8 * k) 8) : wordAt m a = w := by
  have h0 : readByte m a = w.extractLsb' 0 8 := h 0 (by omega)
  rw [wordAt, h 3 (by omega), h 2 (by omega), h 1 (by omega), h0]
  exact word_of_bytes w

/-- Settles O7: the four bytes at the pc are `wordAt`. -/
theorem stepRunsTheDecodedInstruction : Obligations.StepRunsTheDecodedInstruction :=
  fun _ _ => step_eq_exec

/-- Settles O8: the word at the pc is the encoding, which decodes back. -/
theorem stepRunsTheEncodedInstruction : Obligations.StepRunsTheEncodedInstruction := by
  intro s i hwf hh hb hbytes
  exact step_eq_exec hh hb (wordAt_eq_of_bytes hbytes ▸ decode_encode hwf)

/-- Settles O9: the two cases of the bound, for fetch and for the step. -/
theorem fetchReadsFourBytesOrFaults : Obligations.FetchReadsFourBytesOrFaults := by
  intro s
  refine ⟨fun hb => ⟨_, fetch_inBounds hb, wordAt_byte s.mem s.pc.toNat⟩, fun hh hb => ?_⟩
  simp [step, State.stepEnabled, hh, fetch_outOfBounds (Nat.not_le.2 hb)]

/-- Settles O11: `step_next` for the completed step; a halted block's is refused first. -/
theorem haltedBlockTakesNoStep : Obligations.HaltedBlockTakesNoStep := by
  refine ⟨fun s t h => (step_next h).1, fun s h => ?_⟩
  simp [step, State.stepEnabled, h]

/-! ### The controller's turn around a step -/

theorem parseCommand_step : parseCommand ['s', 't', 'e', 'p'] = .step := by decide

/-- At the prompt, the `step` line runs one step, which does not wait, and is used up. -/
theorem Session.turn_step {σ : Session} {rest : List (List Char)} (he : σ.ended = none) (hm : σ.mode = .stepping)
    (hc : σ.commands = ['s', 't', 'e', 'p'] :: rest) (hw : σ.stepWaits = false) :
    σ.turn = ({ σ with commands := rest } : Session).runStep := by
  rw [Session.turn_stepping he hm hc (by simp [hw]), parseCommand_step]
  rfl

/-- The response to a step that completes and does not halt. -/
theorem Session.runStep_goesOn {σ : Session} {t : State} {ps : List Printed} (h : step σ.machine = .next t)
    (hh : t.halted = false) (hr : newReports σ.machine t = ps) :
    σ.runStep = { σ with machine := t, printed := σ.printed ++ ps } := by
  rw [Session.runStep_next h, hr, hh]
  rfl

/-- Settles O10: the no-op's state field by field, and the host's turn in each mode. -/
theorem unrecognizedWordIsReportedNoOp : Obligations.UnrecognizedWordIsReportedNoOp := by
  intro s e hh hb hd
  have hstep := step_unrecognized hh hb hd
  refine ⟨_, hstep, fun q => rfl, fun a => rfl, s.nextPc_eq, hh, rfl, rfl, ?_⟩
  rintro σ rfl he
  have hreports := newReports_append (s := σ.machine)
    (t := (σ.machine.report ⟨σ.machine.pc, wordAt σ.machine.mem σ.machine.pc.toNat⟩).retire σ.machine.nextPc .noValue)
    (rs := [⟨σ.machine.pc, wordAt σ.machine.mem σ.machine.pc.toNat⟩]) rfl
  refine ⟨fun hm => ?_, fun rest hm hc => ?_⟩
  · rw [Session.turn_running he hm]
    exact Session.runStep_goesOn hstep hh hreports
  · rw [Session.turn_step he hm hc (Session.stepWaits_next hstep)]
    exact Session.runStep_goesOn hstep hh hreports

end Sys2Proof.Machine
end

/-! ## MemRead and MemWrite (20_memory R42-R46) -/

section

namespace Sys2Proof.Machine

/-- The little-endian value as a sum (R42). -/
theorem readBytes_eq_sum (m : Memory) (a n : Nat) :
    readBytes m a n = ((List.range n).map fun k => (readByte m (a + k)).toNat * 2 ^ (8 * k)).sum := by
  induction n generalizing a with
  | zero => rfl
  | succ n ih =>
    have shift : ∀ k, (readByte m (a + (k + 1))).toNat * 2 ^ (8 * (k + 1)) =
        256 * ((readByte m (a + 1 + k)).toNat * 2 ^ (8 * k)) := by
      intro k
      rw [show a + (k + 1) = a + 1 + k by omega, show 8 * (k + 1) = 8 * k + 8 by omega, pow_add]
      ring
    rw [readBytes, ih, List.range_succ_eq_map, List.map_cons, List.sum_cons, List.map_map, ← List.sum_map_mul_left]
    simp only [Function.comp_def, Nat.succ_eq_add_one, shift]
    simp

theorem pow_256 (k : Nat) : 256 ^ k = 2 ^ (8 * k) := by rw [Nat.pow_mul]

/-- Settles O23: in bounds the laws of `readBytes` and `writeBytes`, out of bounds no access. -/
theorem memoryWriteThenReadRoundTrips : Obligations.MemoryWriteThenReadRoundTrips := by
  intro s a n v hwf
  refine ⟨fun hb => ⟨?_, _, State.memWrite_inBounds v hb, ?_, fun k hk => ?_, fun x hx => ?_, writeBytes_wf hwf a n v⟩,
    fun hb => ⟨State.memWrite_outOfBounds v (by omega), State.memRead_outOfBounds (by omega)⟩⟩
  · rw [State.memRead_inBounds hb, readBytes_eq_sum]
  · rw [← pow_256, ← readBytes_writeBytes _ hwf]
    exact State.memRead_inBounds hb
  · rw [readByte_writeBytes _ hwf, if_pos (by omega), Nat.add_sub_cancel_left, pow_256]
    apply BitVec.eq_of_toNat_eq
    simp
  · rw [readByte_writeBytes _ hwf, if_neg (by omega)]

end Sys2Proof.Machine
end

/-! ## Loads and stores (41_load_store, 20_memory R50-R62) -/

section

namespace Sys2Proof.Machine

/-- Settles O13: `signExtend` is `to32` of the signed value. -/
theorem effectiveAddressWraps : Obligations.EffectiveAddressWraps :=
  fun s rs1 imm => word_add_int (s.readReg rs1) imm.toInt

/-- Settles O14: the read in bounds, then the write of rd. -/
theorem loadReadsFourBytes : Obligations.LoadReadsFourBytes := by
  intro s rd rs1 imm i hi hc hb
  exact ⟨_, _, (exec_load hi s).trans (loadClass_ok (lsuRead_inBounds hc hb)), wordAt_toNat _ _,
    writeResult_computed s rd _⟩

/-- Settles O15: the read out of bounds. -/
theorem loadOutOfBoundsFaults : Obligations.LoadOutOfBoundsFaults := by
  intro s rd rs1 imm i hi hc hb
  exact (exec_load hi s).trans (loadClass_error (lsuRead_outOfBounds hc (Nat.not_le.2 hb)))

/-- Settles O17: the read of console-in with no line. -/
theorem loadOfConsoleInWaitsForALine : Obligations.LoadOfConsoleInWaitsForALine := by
  intro s rd rs1 imm i hi hp he hl
  exact (exec_load hi s).trans (loadClass_error (he ▸ lsuRead_noLine hp hl))

theorem firstByte_eq_headD (line : List Byte) : firstByte line = line.headD 0#8 := by cases line <;> rfl

/-- Settles O16: the load-store unit's answers at the three addresses, then the write of rd. -/
theorem loadOfConsoleAddresses : Obligations.LoadOfConsoleAddresses := by
  intro s rd rs1 imm i hi hp
  refine ⟨fun line rest he hl => ?_, fun he => ?_⟩
  · have hread := lsuRead_line hp hl
    rw [show consoleIn = effAddr s rs1 imm from he.symm] at hread
    refine ⟨_, (firstByte line).setWidth 32, (exec_load hi s).trans (loadClass_ok hread), ?_,
      fun q => ?_, fun a => ?_, s.nextPc_eq, ?_, ?_, ?_⟩
    · rw [firstByte_eq_headD, BitVec.toNat_setWidth]
      omega
    · rw [State.readReg_retire, State.readReg_writeReg]
      rfl
    all_goals simp
  · exact ⟨_, (exec_load hi s).trans (loadClass_ok (lsuRead_outErr hp he)), writeResult_computed s rd _⟩

/-- Settles O18: the bytes of a write in bounds, inside its span and outside. -/
theorem storeWritesFourBytes : Obligations.StoreWritesFourBytes := by
  intro s rs1 rs2 imm i hi hwf hc hb
  refine ⟨_, (exec_store hi s).trans (storeClass_ok (lsuWrite_inBounds _ hc hb)), fun q => rfl, fun k hk => ?_,
    fun a ha => ?_, s.nextPc_eq, rfl, rfl, rfl⟩
  · rw [State.retire_mem, readByte_writeBytes _ hwf, if_pos (by omega), Nat.add_sub_cancel_left, byte_of_word]
  · rw [State.retire_mem, readByte_writeBytes _ hwf, if_neg ha]

/-- Settles O19: the write out of bounds. -/
theorem storeOutOfBoundsFaults : Obligations.StoreOutOfBoundsFaults := by
  intro s rs1 rs2 imm i hi hc hb
  exact (exec_store hi s).trans (storeClass_error (lsuWrite_outOfBounds _ hc (Nat.not_le.2 hb)))

/-- The low byte of a word, as a number (R53). -/
theorem lowByte_eq (v : Word) : v.extractLsb' 0 8 = BitVec.ofNat 8 (v.toNat % 256) := by
  apply BitVec.eq_of_toNat_eq
  simp

/-- A write to a console address emits the low byte, or nothing, and touches nothing else (R53, R269). -/
theorem lsuWrite_console {s : State} {ea : Word} (v : Word) (hp : s.params.periphEnabled = true)
    (he : ea = consoleIn ∨ ea = consoleOut ∨ ea = consoleErr) :
    lsuWrite s ea v = .ok { s with port := { s.port with
      out := if ea = consoleOut then s.port.out ++ [BitVec.ofNat 8 (v.toNat % 256)] else s.port.out
      err := if ea = consoleErr then s.port.err ++ [BitVec.ofNat 8 (v.toNat % 256)] else s.port.err } } := by
  rcases he with rfl | rfl | rfl
  · exact lsuWrite_in v hp
  · rw [← lowByte_eq]
    exact lsuWrite_out v hp
  · rw [← lowByte_eq]
    exact lsuWrite_err v hp

/-- Settles O20: `lsuWrite_console`, then the end of a STORE. -/
theorem storeToConsoleAddresses : Obligations.StoreToConsoleAddresses := by
  intro s rs1 rs2 imm i hi hp he
  simp only [List.mem_cons, List.not_mem_nil, or_false] at he
  exact ⟨_, (exec_store hi s).trans (storeClass_ok (lsuWrite_console _ hp he)), fun q => rfl, fun a => rfl, s.nextPc_eq,
    rfl, rfl, rfl, rfl, rfl, rfl, rfl⟩

/-- A STORE that completes where no peripheral claims the address has written the word, in bounds. -/
theorem exec_store_unclaimed {s t : State} {i : Instr} {rs1 rs2 : RegIdx} {imm : BitVec 12}
    (hi : i ∈ storeForms rs1 rs2 imm) (hwf : s.mem.wf) (hc : claimed s (effAddr s rs1 imm) = false)
    (h : exec i s = .next t) :
    (effAddr s rs1 imm).toNat + 4 ≤ t.params.memSize ∧ t.params = s.params ∧
      wordAt t.mem (effAddr s rs1 imm).toNat = s.readReg rs2 := by
  rw [exec_store hi] at h
  by_cases hb : (effAddr s rs1 imm).toNat + 4 ≤ s.params.memSize
  · rw [storeClass_ok (lsuWrite_inBounds _ hc hb)] at h
    cases h
    exact ⟨hb, rfl, wordAt_writeBytes _ hwf _ _⟩
  · rw [storeClass_error (lsuWrite_outOfBounds _ hc hb)] at h
    cases h

/-- Settles O21: the LOAD reads in bounds the word that the STORE wrote. -/
theorem loadAfterStoreReadsTheStoredValue : Obligations.LoadAfterStoreReadsTheStoredValue := by
  intro s t u rs1 rs2 rd rb imm off i hi j hj hwf hc hs he ht
  obtain ⟨hb, hp, hw⟩ := exec_store_unclaimed hi hwf hc hs
  have hct : claimed t (effAddr t rb off) = false := by rwa [claimed, hp, he]
  rw [exec_load hj, loadClass_ok (lsuRead_inBounds hct (he ▸ hb)), he, hw] at ht
  cases ht
  rw [State.readReg_retire, State.readReg_writeReg]
  simp

/-- Settles O22: the fetch reads in bounds the word that the STORE wrote. -/
theorem storeIsSeenByTheNextFetch : Obligations.StoreIsSeenByTheNextFetch := by
  intro s t rs1 rs2 imm i hi hwf hc hs he
  obtain ⟨hb, -, hw⟩ := exec_store_unclaimed hi hwf hc hs
  rw [he] at hb hw
  rw [fetch_inBounds hb, hw]

end Sys2Proof.Machine
end

/-! ## Branches and jumps (42_control_transfer R160-R169, 30_encoding R84-R87) -/

section

namespace Sys2Proof.Machine

/-- Bit 12 of the assembled field says in which half of its range the field lies. -/
theorem offset_bit12 (b : BitVec 13) : b.getLsbD 12 = true ↔ 4096 ≤ b.toNat := by
  have := b.isLt
  rw [BitVec.getLsbD, Nat.testBit_eq_decide_div_mod_eq, decide_eq_true_eq]
  omega

/-- Bit 11 says the same of the low 12 bits. -/
theorem offset_bit11 (b : BitVec 13) : b.getLsbD 11 = true ↔ 2048 ≤ b.toNat % 4096 := by
  rw [BitVec.getLsbD, Nat.testBit_eq_decide_div_mod_eq, decide_eq_true_eq]
  omega

/-- The low 11 bits of the assembled field: the L of the spec's table (R85). -/
def low11 (b : BitVec 13) : Int := (b.toNat % 2 ^ 11 : Nat)

/-- The display immediate, by bits 12 and 11 (R84). -/
theorem offset_toInt (b : BitVec 13) : b.toInt =
    if b.getLsbD 12 then (if b.getLsbD 11 then low11 b - 2048 else low11 b - 4096)
    else (if b.getLsbD 11 then 2048 + low11 b else low11 b) := by
  have := b.isLt
  simp only [BitVec.toInt_eq_toNat_cond, offset_bit12, offset_bit11, low11]
  split_ifs <;> omega

/-- The reading that subtracts 2^12 at bit 11 (R85). -/
theorem immBExec_subAt11 (b : BitVec 13) : immBExec .subAt11 b =
    if b.getLsbD 12 then (if b.getLsbD 11 then 2048 + low11 b else 4096 + low11 b)
    else (if b.getLsbD 11 then low11 b - 2048 else low11 b) := by
  have := b.isLt
  simp only [immBExec, offset_bit12, offset_bit11, low11]
  split_ifs <;> omega

/-- The reading that sign-extends the low 12 bits (R85). -/
theorem immBExec_sext12 (b : BitVec 13) :
    immBExec .sext12 b = if b.getLsbD 11 then low11 b - 2048 else low11 b := by
  simp only [immBExec, BitVec.toInt_eq_toNat_cond, BitVec.extractLsb'_toNat, offset_bit11, low11]
  split_ifs <;> omega

/-- The reading that sign-extends the low 12 bits only at bit 11 (R85). -/
theorem immBExec_orAt11 (b : BitVec 13) : immBExec .orAt11 b =
    if b.getLsbD 11 then low11 b - 2048 else if b.getLsbD 12 then 4096 + low11 b else low11 b := by
  have := b.isLt
  have hsext := immBExec_sext12 b
  simp only [immBExec, offset_bit12, offset_bit11, low11] at hsext ⊢
  split_ifs at hsext ⊢ <;> omega

/-- Settles O24: the four values by bits 12 and 11; two readings tell the display immediate
apart but where both are 0. -/
theorem branchImmediateReadings : Obligations.BranchImmediateReadings := by
  intro b L
  refine ⟨offset_toInt b, immBExec_subAt11 b, immBExec_sext12 b, immBExec_orAt11 b, fun h => ?_, fun ⟨h12, h11⟩ r => ?_⟩
  · have hsub := h .subAt11
    have hor := h .orAt11
    rw [immBExec_subAt11, offset_toInt] at hsub
    rw [immBExec_orAt11, offset_toInt] at hor
    generalize b.getLsbD 12 = b12, b.getLsbD 11 = b11 at hsub hor ⊢
    cases b12 <;> cases b11 <;> simp only [Bool.false_eq_true, if_true, if_false] at hsub hor
    · exact ⟨rfl, rfl⟩
    all_goals omega
  · rw [offset_toInt]
    cases r
    · simp only [immBExec_subAt11, h12, h11, Bool.false_eq_true, if_false]
    · simp only [immBExec_sext12, h12, h11, Bool.false_eq_true, if_false]
    · simp only [immBExec_orAt11, h12, h11, Bool.false_eq_true, if_false]

/-- Settles O25: the one comparison, and a retirement at the pc that it chooses. -/
theorem branchTakenIffEqual : Obligations.BranchTakenIffEqual := by
  intro s rs1 rs2 off i hi
  refine ⟨_, branchTarget s off, exec_branch hi s, word_add_int _ _, fun q => rfl, fun a => rfl, ?_, rfl, rfl, rfl⟩
  simp only [State.retire_pc, branchTaken, beq_iff_eq, BitVec.toNat_inj, State.nextPc_eq]

/-- Settles O26: the target from the old registers, then what a jump leaves. -/
theorem jalrJumpsAndLinks : Obligations.JalrJumpsAndLinks := by
  intro s rd rs1 imm i hi
  refine ⟨_, jalrTarget s rs1 imm, exec_jalr hi s, ?_, jumpTo_leaves s rd _⟩
  rw [jalrTarget, clearBit0_toNat, BitVec.signExtend, word_add_int, toNat_ofInt_word]

/-- Settles O27: the target from the instruction's own pc, then what a jump leaves. -/
theorem jalJumpsAndLinks : Obligations.JalJumpsAndLinks := by
  intro s rd off
  refine ⟨_, jalTarget s off, rfl, ?_, jumpTo_leaves s rd _⟩
  rw [jalTarget, clearBit0_toNat, BitVec.signExtend, word_add_int, toNat_ofInt_word]

end Sys2Proof.Machine
end

/-! ## Upper immediates, the five-bit immediate and register shifts (43_upper_immediate, 44_integer_computational) -/

section

namespace Sys2Proof.Machine

/-- Settles O28: the upper immediate as a multiple of 2^12. -/
theorem upperImmediateResults : Obligations.UpperImmediateResults := by
  intro s rd imm
  refine ⟨exec_computes rfl (upperImm_eq imm), exec_computes rfl ?_⟩
  rw [upperImm_eq, BitVec.ofNat_add, BitVec.ofNat_toNat, BitVec.setWidth_eq]

/-- Settles O29: the sum and the comparisons with the five-bit immediate as a number. -/
theorem immediateAddAndCompareResults : Obligations.ImmediateAddAndCompareResults := by
  intro s rd rs1 imm
  refine ⟨exec_computes rfl ?_, exec_computes rfl ?_, exec_computes rfl ?_⟩
  · rw [BitVec.add_def, imm5_toNat]
  · rw [boolWord_lessSigned, imm5_toInt]
  · rw [boolWord_lessUnsigned, imm5_toNat]

/-- Settles O30: each bit of the result, with the five-bit immediate's. -/
theorem immediateLogicResults : Obligations.ImmediateLogicResults := by
  intro s rd rs1 imm
  refine ⟨exec_computes_bits rfl fun k => ?_, exec_computes_bits rfl fun k => ?_, exec_computes_bits rfl fun k => ?_⟩
  · rw [BitVec.getLsbD_xor, imm5_getLsbD]
  · rw [BitVec.getLsbD_or, imm5_getLsbD]
  · rw [BitVec.getLsbD_and, imm5_getLsbD]

/-- Settles O35: the shifts of O31 by the register's shift amount. -/
theorem registerShiftResults : Obligations.RegisterShiftResults := by
  intro s rd rs1 rs2
  refine ⟨exec_computes rfl ?_, exec_computes rfl ?_, exec_computes rfl ?_⟩
  · rw [shiftAmount_eq, word_shiftLeft]
  · rw [shiftAmount_eq, word_shiftRight]
  · rw [shiftAmount_eq, word_sshiftRight]

end Sys2Proof.Machine
end

/-! ## EBREAK and semihosting (45_system R232-R236) -/

section

namespace Sys2Proof.Machine

/-- An EBREAK that is the semihosting trigger halts after its request (R233). -/
theorem exec_ebreak_request {s t : State} (he : s.params.semihostEnabled = true)
    (h : semihost s.pc (s.setPc s.nextPc) = .ok t) :
    exec (.ebreak 0#5 0#5) s = .next (t.halt.result .breakMark) := by
  show execEbreak 0#5 0#5 s = _
  rw [execEbreak, he, (isSemihostTrigger_ebreak _ _).2 ⟨rfl, rfl⟩, h]
  rfl

/-- An EBREAK whose request faults ends with that fault, before the halt (R235). -/
theorem exec_ebreak_requestFaults {s : State} {f : Fault} (he : s.params.semihostEnabled = true)
    (h : semihost s.pc (s.setPc s.nextPc) = .error f) : exec (.ebreak 0#5 0#5) s = .fault f := by
  show execEbreak 0#5 0#5 s = _
  rw [execEbreak, he, (isSemihostTrigger_ebreak _ _).2 ⟨rfl, rfl⟩, h]
  rfl

/-- What an EBREAK leaves that halts after emitting bytes. -/
theorem ebreak_leaves (s : State) (bs : List Byte) :
    let t := ((s.setPc s.nextPc).emitAll bs).halt.result .breakMark
    SameRegisters s t ∧ SameMemory s t ∧ t.pc = BitVec.ofNat 32 (s.pc.toNat + 4) ∧ t.halted = true ∧
      t.params = s.params ∧
      t.port = { s.port with out := s.port.out ++ bs, trace := s.port.trace ++ [.breakMark] } :=
  ⟨fun _ => rfl, fun _ => rfl, s.nextPc_eq, rfl, rfl, rfl⟩

/-- Any a0 but 4 and 6 requests nothing (R236). -/
theorem semihost_noRequest {pc : Word} {s : State} (h4 : s.readReg 10#5 ≠ 4#32) (h6 : s.readReg 10#5 ≠ 6#32) :
    semihost pc s = .ok s := by
  rw [semihost, if_neg h4, if_neg h6]

/-- Request 4 emits the low byte of a1 (R234). -/
theorem semihost_character {pc : Word} {s : State} (h : s.readReg 10#5 = 4#32) :
    semihost pc s = .ok (s.emitAll [BitVec.ofNat 8 ((s.readReg 11#5).toNat % 256)]) := by
  rw [semihost, if_pos h, lowByte_eq]
  rfl

/-- Request 6 reads the string at a1 (R235). -/
theorem semihost_string {pc : Word} {s : State} (h : s.readReg 10#5 = 6#32) :
    semihost pc s = semihostString (s.params.memSize + 1) (s.readReg 11#5) pc s := by
  rw [semihost, h, if_neg (by decide), if_pos rfl]

/-- An EBREAK that is no request only halts. -/
theorem exec_ebreak_noRequest {s : State} {rd rs1 : RegIdx} (h : ¬ (s.params.semihostEnabled = true ∧ rd = 0#5 ∧
    rs1 = 0#5 ∧ (s.readReg 10#5 = 4#32 ∨ s.readReg 10#5 = 6#32))) :
    exec (.ebreak rd rs1) s = .next (((s.setPc s.nextPc).emitAll []).halt.result .breakMark) := by
  rw [State.emitAll_nil]
  by_cases ht : s.params.semihostEnabled = true ∧ rd = 0#5 ∧ rs1 = 0#5
  · obtain ⟨he, rfl, rfl⟩ := ht
    have hn : ¬ (s.readReg 10#5 = 4#32 ∨ s.readReg 10#5 = 6#32) := fun hr => h ⟨he, rfl, rfl, hr⟩
    exact exec_ebreak_request he (semihost_noRequest (fun e => hn (.inl e)) fun e => hn (.inr e))
  · have hc : (s.params.semihostEnabled && isSemihostTrigger (.ebreak rd rs1)) = false := by
      rwa [← Bool.not_eq_true, Bool.and_eq_true, isSemihostTrigger_ebreak]
    show execEbreak rd rs1 s = _
    rw [execEbreak, hc]
    rfl

/-- Settles O37: no request, so no byte is emitted. -/
theorem ebreakHalts : Obligations.EbreakHalts := by
  intro s rd rs1 h
  have leaves := ebreak_leaves s []
  rw [List.append_nil] at leaves
  exact ⟨_, exec_ebreak_noRequest h, leaves⟩

/-- Settles O38: one byte is emitted. -/
theorem semihostWritesCharacter : Obligations.SemihostWritesCharacter := by
  intro s he h
  exact ⟨_, exec_ebreak_request he (semihost_character h), ebreak_leaves s _⟩

/-! ### Strings (R235) -/

/-- A string ends at a zero byte. -/
theorem semihostString_zero {fuel : Nat} {p pc : Word} {s : State} (hb : p.toNat < s.params.memSize)
    (hz : readByte s.mem p.toNat = 0#8) : semihostString (fuel + 1) p pc s = .ok s := by
  rw [semihostString, State.memRead_inBounds hb, readBytes_one, hz]
  rfl

/-- A string faults at a byte out of bounds. -/
theorem semihostString_outOfBounds {fuel : Nat} {p pc : Word} {s : State} (hb : s.params.memSize ≤ p.toNat) :
    semihostString (fuel + 1) p pc s = .error (.addressFault ⟨.semihost, p, 1, pc⟩ s) := by
  rw [semihostString, State.memRead_outOfBounds (by omega)]
  rfl

/-- Addresses that stay in a Memory below 2^32 bytes do not go round: the run meets memSize first. -/
theorem run_lt_memSize {memSize p n : Nat} (hsize : memSize < 2 ^ 32) (hp : p < memSize)
    (h : ∀ k, k ≤ n → (p + k) % 2 ^ 32 < memSize) : n < memSize := by
  by_contra hn
  have := h (memSize - p) (by omega)
  omega

/-- A string's bytes before its zero are fewer than memSize. -/
theorem string_length_lt {s : State} {p : Nat} {bs : List Byte} (hlegal : s.params.legal) (hp : p < 2 ^ 32)
    (h : ∀ k : Nat, k ≤ bs.length → (p + k) % 2 ^ 32 < s.params.memSize ∧
      readByte s.mem ((p + k) % 2 ^ 32) = bs.getD k 0#8)
    (hn : ∀ b ∈ bs, b ≠ 0#8) : bs.length < s.params.memSize := by
  obtain ⟨-, hmax⟩ := hlegal
  by_cases hsize : s.params.memSize < 2 ^ 32
  · have hp0 := (h 0 (by omega)).1
    exact run_lt_memSize hsize (by omega) fun k hk => (h k hk).1
  · by_contra hlen
    obtain ⟨-, hzero⟩ := h bs.length (Nat.le_refl _)
    obtain ⟨-, hbyte⟩ := h (bs.length - 2 ^ 32) (by omega)
    have hk : bs.length - 2 ^ 32 < bs.length := by omega
    rw [show (p + (bs.length - 2 ^ 32)) % 2 ^ 32 = (p + bs.length) % 2 ^ 32 by omega, hzero,
      List.getD_eq_default _ _ (Nat.le_refl _), List.getD_eq_getElem _ _ hk] at hbyte
    exact hn _ (List.getElem_mem hk) hbyte.symm

/-- Settles O39: the run of the string's bytes, then its zero. -/
theorem semihostWritesString : Obligations.SemihostWritesString := by
  intro s bs hlegal he h6 h hn
  have hlen := string_length_lt hlegal (s.readReg 11#5).isLt h hn
  obtain ⟨hend, hzero⟩ := h bs.length (Nat.le_refl _)
  rw [List.getD_eq_default _ _ (Nat.le_refl _)] at hzero
  have hp : (s.readReg 11#5 + BitVec.ofNat 32 bs.length).toNat = ((s.readReg 11#5).toNat + bs.length) % 2 ^ 32 := by
    simp
  have hstring : semihost s.pc (s.setPc s.nextPc) = .ok ((s.setPc s.nextPc).emitAll bs) := by
    rw [semihost_string (s := s.setPc s.nextPc) h6, State.setPc_params, State.readReg_setPc,
      show s.params.memSize + 1 = bs.length + (s.params.memSize - bs.length + 1) by omega,
      semihostString_run bs _ _ _ (s.setPc s.nextPc) (fun k hk => h k (Nat.le_of_lt hk)) hn]
    exact semihostString_zero (hp ▸ hend) (hp ▸ hzero)
  exact ⟨_, exec_ebreak_request he hstring, ebreak_leaves s bs⟩

/-- Settles O40: the run of the string's bytes, then the byte out of bounds. -/
theorem semihostStringFaultKeepsItsBytes : Obligations.SemihostStringFaultKeepsItsBytes := by
  intro s bs hlegal he h6 h hn hout hmax
  have hlen : bs.length ≤ s.params.memSize := by
    by_contra hlt
    have := (h (bs.length - 1) (by omega)).1
    omega
  have hwrap : ∀ k, k < bs.length → ((s.readReg 11#5).toNat + k) % 2 ^ 32 = (s.readReg 11#5).toNat + k := by
    intro k hk
    omega
  have hp : s.readReg 11#5 + BitVec.ofNat 32 bs.length = BitVec.ofNat 32 ((s.readReg 11#5).toNat + bs.length) := by
    simp [BitVec.ofNat_add]
  have hstring : semihost s.pc (s.setPc s.nextPc) = .error (.addressFault
      ⟨.semihost, BitVec.ofNat 32 ((s.readReg 11#5).toNat + bs.length), 1, s.pc⟩ ((s.setPc s.nextPc).emitAll bs)) := by
    rw [semihost_string (s := s.setPc s.nextPc) h6, State.setPc_params, State.readReg_setPc,
      show s.params.memSize + 1 = bs.length + (s.params.memSize - bs.length + 1) by omega,
      semihostString_run bs _ _ _ (s.setPc s.nextPc) (fun k hk => (hwrap k hk).symm ▸ h k hk) hn, hp]
    exact semihostString_outOfBounds (by rwa [BitVec.toNat_ofNat, Nat.mod_eq_of_lt hmax])
  rw [exec_ebreak_requestFaults he hstring, ← s.nextPc_eq]
  rfl

/-- Only EBREAK, by its string read, stops with `stringNeverEnds`. -/
theorem exec_stringNeverEnds {s : State} {i : Instr} (h : exec i s = .fault .stringNeverEnds) :
    semihostString (s.params.memSize + 1) (s.readReg 11#5) s.pc (s.setPc s.nextPc) = .error .stringNeverEnds := by
  rcases exec_shape i with ⟨rd, rs1, imm, hi⟩ | ⟨rs1, rs2, imm, hi⟩ | ⟨rs1, rs2, off, hi⟩ | ⟨rd, rs1, imm, hi⟩ |
    ⟨rd, off, rfl⟩ | ⟨rd, -, hi⟩ | ⟨rd, rs1, rfl⟩ | ⟨rd, rs1, rfl⟩
  · rw [exec_load hi] at h
    rcases lsuRead_error (loadClass_fault h) with e | ⟨e, -⟩ <;> cases e
  · rw [exec_store hi] at h
    cases (lsuWrite_error (storeClass_fault h)).1
  · rw [exec_branch hi] at h; cases h
  · rw [exec_jalr hi] at h; cases h
  · cases h
  · obtain ⟨v, hv⟩ := hi s
    rw [hv] at h; cases h
  · cases h
  · replace h : execEbreak rd rs1 s = _ := h
    unfold execEbreak at h
    split at h
    · have hreq : semihost s.pc (s.setPc s.nextPc) = .error .stringNeverEnds := by
        cases hr : semihost s.pc (s.setPc s.nextPc) with
        | ok t => rw [hr] at h; cases h
        | error f => rw [hr] at h; cases h; rfl
      unfold semihost at hreq
      split at hreq
      · cases hreq
      · split at hreq
        · exact hreq
        · cases hreq
    · cases h

/-- Settles O41: a read out of fuel has met memSize + 1 bytes in bounds, none zero, so it has gone round Memory. -/
theorem endlessStringOnlyInZeroFreeMemory : Obligations.EndlessStringOnlyInZeroFreeMemory := by
  intro s i hlegal h
  have hmet := semihostString_never _ _ _ _ (exec_stringNeverEnds h)
  have hp := (s.readReg 11#5).isLt
  have hsize : s.params.memSize = 2 ^ 32 := by
    by_contra hne
    have hlt : s.params.memSize < 2 ^ 32 := Nat.lt_of_le_of_ne hlegal.2 hne
    have hp0 := (hmet 0 (by omega)).1
    have := run_lt_memSize (p := (s.readReg 11#5).toNat) (n := s.params.memSize) hlt (by simp at hp0; omega)
      fun k hk => (hmet k (by omega)).1
    omega
  refine ⟨hsize, fun a ha => ?_⟩
  have hbyte := (hmet ((a + 2 ^ 32 - (s.readReg 11#5).toNat) % 2 ^ 32) (by omega)).2
  rwa [show ((s.readReg 11#5).toNat + (a + 2 ^ 32 - (s.readReg 11#5).toNat) % 2 ^ 32) % 2 ^ 32 = a by omega] at hbyte

end Sys2Proof.Machine
end

/-! ## Reset and power-on (10_state R33, 70_reset R280, R281) -/

section

namespace Sys2Proof.Machine

/-- Register r + 1 is at index r (R20). -/
theorem State.readReg_succ (s : State) {r : Nat} (h : r < 31) : s.readReg (BitVec.ofNat 5 (r + 1)) = s.regs[r] := by
  have hn : (BitVec.ofNat 5 (r + 1)).toNat = r + 1 := by
    rw [BitVec.toNat_ofNat]
    omega
  have hz : ¬ BitVec.ofNat 5 (r + 1) = 0#5 := by
    intro e
    rw [e] at hn
    cases hn
  simp only [State.readReg, hz, dite_false, hn, Nat.add_sub_cancel]

theorem startOfRun_eq_powerOn (p : Params) (gpr : Vector Word 31) (image : List Byte) (input : List (List Byte))
    (reorder : Bool) : startOfRun p gpr image input reorder = powerOn p gpr image input := by
  cases reorder <;> rfl

theorem readByte_loadImage (size : Nat) (image : List Byte) (a : Nat) :
    readByte (loadImage size image) a = if a < size then image.getD a 0#8 else 0#8 := by
  simp [loadImage, readByte_loadImageFrom, unlistedByte]

/-- Settles O49: the fields of `State.reset`, whose Memory lists no byte. -/
theorem resetStateFollowsTheTable : Obligations.ResetStateFollowsTheTable :=
  ⟨rfl, rfl, fun _ => rfl, rfl, rfl, rfl, rfl, rfl, rfl⟩

/-- Settles O50: the fields of `powerOn`, and the image load byte by byte. -/
theorem powerOnLoadsTheImage : Obligations.PowerOnLoadsTheImage := by
  intro p gpr image input reorder
  rw [startOfRun_eq_powerOn]
  refine ⟨fun r h => State.readReg_succ _ h, State.readReg_zero _, rfl, rfl, rfl, fun a ha => ?_, fun a ha => ?_,
    fun hlegal => ?_⟩
  · exact (readByte_loadImage p.memSize image a).trans (if_pos (by omega))
  · refine (readByte_loadImage p.memSize image a).trans ?_
    split
    · exact List.getD_eq_default _ _ (by omega)
    · rfl
  · obtain ⟨hwf, hwithin, -⟩ := loadImageFrom_form p.memSize 0 image
    exact ⟨hlegal, hwf, hwithin⟩

end Sys2Proof.Machine
end

/-! ## The Step Controller (60_exceptions R259-R274) -/

section

namespace Sys2Proof.Machine

/-- The response to an AddressFault (R253, R259). -/
theorem Session.runStep_fault {σ : Session} {info : AddressFault} {left : State}
    (h : step σ.machine = .fault (.addressFault info left)) :
    σ.runStep = { σ with machine := left, mode := .stepping, printed := σ.printed ++ [.fault info] } := by
  rw [Session.runStep, h]
  rfl

/-- A step that ends in an AddressFault does not wait. -/
theorem Session.stepWaits_fault {σ : Session} {info : AddressFault} {left : State}
    (h : step σ.machine = .fault (.addressFault info left)) : σ.stepWaits = false := by
  rw [Session.stepWaits, h]

/-- At the prompt, a line that is not `step` is carried out. -/
theorem Session.turn_command {σ : Session} {line : List Char} {rest : List (List Char)} {c : Command}
    (he : σ.ended = none) (hm : σ.mode = .stepping) (hc : σ.commands = line :: rest) (hp : parseCommand line = c)
    (hs : c ≠ .step) : σ.turn = ({ σ with commands := rest } : Session).command c := by
  rw [Session.turn_stepping he hm hc (by simp [hp, hs]), hp]

theorem parseCommand_reset : parseCommand ['r', 'e', 's', 'e', 't'] = .reset := by decide

/-- At the prompt, the `reset` line sets the pc alone (R282). -/
theorem Session.turn_reset {σ : Session} {rest : List (List Char)} (he : σ.ended = none) (hm : σ.mode = .stepping)
    (hc : σ.commands = ['r', 'e', 's', 'e', 't'] :: rest) :
    σ.turn = { σ with machine := { σ.machine with pc := σ.machine.params.resetAddr }, commands := rest } :=
  Session.turn_command he hm hc parseCommand_reset (by simp)

/-- In Running, an AddressFault is reported and the controller goes to Stepping (R259). -/
theorem Session.turn_running_fault {σ : Session} {info : AddressFault} {left : State} (he : σ.ended = none)
    (hm : σ.mode = .running) (h : step σ.machine = .fault (.addressFault info left)) :
    σ.turn = { σ with machine := left, mode := .stepping, printed := σ.printed ++ [.fault info] } :=
  (Session.turn_running he hm).trans (Session.runStep_fault h)

/-- In Stepping, the AddressFault of a `step` command is reported and the controller stays there (R259). -/
theorem Session.turn_step_fault {σ : Session} {info : AddressFault} {left : State} {rest : List (List Char)}
    (he : σ.ended = none) (hm : σ.mode = .stepping) (hc : σ.commands = ['s', 't', 'e', 'p'] :: rest)
    (h : step σ.machine = .fault (.addressFault info left)) :
    σ.turn = { σ with machine := left, commands := rest, printed := σ.printed ++ [.fault info] } := by
  rw [Session.turn_step he hm hc (Session.stepWaits_fault h),
    Session.runStep_fault (σ := { σ with commands := rest }) h, hm]

/-- Settles O55: the turn in each mode. -/
theorem addressFaultSwitchesToStepping : Obligations.AddressFaultSwitchesToStepping := by
  intro σ info left he h
  exact ⟨fun hm => Session.turn_running_fault he hm h, fun rest hm hc => Session.turn_step_fault he hm hc h⟩

/-- Settles O56: a precise fault leaves the state as it was, so the next step is the same one. -/
theorem faultingStepRepeatsUntilReset : Obligations.FaultingStepRepeatsUntilReset := by
  intro σ info left rest he hm h hk
  obtain ⟨-, -, hprecise, -⟩ := addressFaultsArePrecise _ _ _ h
  obtain ⟨-, rfl⟩ := hprecise hk
  rw [Session.turn_running_fault he hm h]
  refine ⟨fun hc => ?_, fun hc => ?_⟩
  · have again := Session.turn_step_fault
      (σ := { σ with mode := .stepping, printed := σ.printed ++ [.fault info] }) he rfl hc h
    rwa [List.append_assoc] at again
  · exact Session.turn_reset he rfl hc

/-! ### The end of a run (R274) -/

/-- A step ends a run only by Break. -/
theorem Session.runStep_ends {σ : Session} {e : RunEnd} (he : σ.ended = none) (h : σ.runStep.ended = some e) :
    e = .breakReached ∧ σ.runStep.machine.halted = true ∧ ∃ before, σ.runStep.finalTrace = before ++ [.breakMark] := by
  have same : σ.runStep.ended ≠ σ.ended := by simp [h, he]
  cases hstep : step σ.machine with
  | next t =>
    rw [Session.runStep_next hstep] at h ⊢
    obtain ⟨r, htrace, hbreak, -⟩ := onlyEbreakHaltsAndMarksTheTrace _ _ hstep
    dsimp only at h
    split at h
    · cases h
      exact ⟨rfl, ‹_›, σ.machine.port.trace, by rw [← hbreak.2 ‹_›]; exact htrace⟩
    · exact absurd (he.symm.trans h) nofun
  | fault f =>
    rw [Session.runStep, hstep] at same
    cases f <;> exact absurd rfl same
  | refused r =>
    rw [Session.runStep, hstep] at same
    exact absurd rfl same

/-- Only the line `exit` is the `exit` command. -/
theorem parseCommand_exit {line : List Char} (h : parseCommand line = .exit) : line = ['e', 'x', 'i', 't'] := by
  rcases parseCommand_cases line with rfl | rfl | rfl | rfl | hi | ⟨cs, ds, n, a, rfl, hn, ha⟩
  · cases h
  · cases h
  · rfl
  · cases h
  · rw [h] at hi; cases hi
  · rw [parseCommand_dump hn ha] at h; cases h

/-- Settles O57: in Running a step ends it; at the prompt a step or the `exit` line. -/
theorem runEndsByBreakOrExit : Obligations.RunEndsByBreakOrExit := by
  intro σ e he h
  cases hm : σ.mode with
  | running =>
    rw [Session.turn_running he hm] at h ⊢
    exact .inl (Session.runStep_ends he h)
  | stepping =>
    cases hc : σ.commands with
    | nil =>
      have stay : σ.turn = σ := by simp [Session.turn, he, hm, hc]
      rw [stay, he] at h
      cases h
    | cons line rest =>
      by_cases hw : parseCommand line = .step ∧ σ.stepWaits = true
      · have stay : σ.turn = σ := by simp [Session.turn, he, hm, hc, hw]
        rw [stay, he] at h
        cases h
      · rw [Session.turn_stepping he hm hc hw] at h ⊢
        cases hp : parseCommand line with
        | step =>
          rw [hp] at h
          exact .inl (Session.runStep_ends (σ := { σ with commands := rest }) he h)
        | exit =>
          rw [hp] at h
          cases h
          exact .inr ⟨rfl, rfl, rfl, rest, by rw [parseCommand_exit hp]⟩
        | run | dump n a | reset | ignored =>
          rw [hp] at h
          exact absurd (he.symm.trans h) nofun

/-! ### The memory dump (R272, D39) -/

/-- A dump from an address in bounds or at memSize, whatever its length. -/
theorem dumpBytes_eq {s : State} {a : Nat} (ha : a ≤ s.params.memSize) (n : Nat) :
    dumpBytes s n a = ((List.range (min n (s.params.memSize - a))).map fun k => readByte s.mem (a + k),
      if s.params.memSize < a + n then some s.params.memSize else none) := by
  induction n generalizing a with
  | zero => simp [dumpBytes, Nat.not_lt.2 ha]
  | succ n ih =>
    by_cases hb : a + 1 ≤ s.params.memSize
    · rw [dumpBytes, State.memRead_inBounds hb, ih hb, readBytes_one,
        show min (n + 1) (s.params.memSize - a) = min n (s.params.memSize - (a + 1)) + 1 by omega,
        List.range_succ_eq_map, List.map_cons, List.map_map, show a + 1 + n = a + (n + 1) by omega]
      simp [Function.comp_def, Nat.add_assoc, Nat.add_comm 1]
    · rw [dumpBytes_outOfBounds hb, show a = s.params.memSize by omega]
      simp

/-- Settles O58: `dumpBytes_eq` up to memSize; above it the first byte is out of bounds. -/
theorem dumpStopsAtTheFirstByteOutOfBounds : Obligations.DumpStopsAtTheFirstByteOutOfBounds := by
  intro s n a
  refine ⟨fun h => ?_, fun h ha => ?_, fun h => ?_⟩
  · rw [dumpBytes_eq (by omega), if_neg (by omega), Nat.min_eq_left (by omega)]
  · rw [dumpBytes_eq ha, if_pos h, Nat.min_eq_right (by omega)]
  · cases n with
    | zero => rfl
    | succ n => exact dumpBytes_outOfBounds (by omega) n

/-! ### Command lines (R267, D39) -/

theorem parseNumber_of_digitsValue {base v : Nat} {cs : List Char} (hne : cs ≠ [])
    (h : digitsValue base 0 cs = some v) : parseNumber base cs = some v := by
  cases cs with
  | nil => exact absurd rfl hne
  | cons c cs => exact h

/-- COUNT, with any leading zeros. -/
theorem parseNumber_count {count : List Char} {j n : Nat} (h : count = List.replicate j '0' ++ Nat.toDigits 10 n) :
    parseNumber 10 count = some n := by
  refine parseNumber_of_digitsValue (by simp [h]) ?_
  rw [h, digitsValue_zeros (by omega), digitsValue_toDigits (by omega) (by omega)]

/-- A digit character of base 10. -/
theorem digit_of_lt_ten {c : Char} {d : Nat} (h : digitValue c = some d) (hd : d < 10) : '0' ≤ c ∧ c ≤ '9' := by
  rcases digitValue_some h with ⟨h0, h9, -⟩ | ⟨h10, -⟩
  · exact ⟨h0, h9⟩
  · omega

/-- A digit character of base 16. -/
theorem hexDigit_of_value {c : Char} {d : Nat} (h : digitValue c = some d) :
    ('0' ≤ c ∧ c ≤ '9') ∨ ('a' ≤ c ∧ c ≤ 'f') ∨ ('A' ≤ c ∧ c ≤ 'F') := by
  rcases digitValue_some h with ⟨h0, h9, -⟩ | ⟨-, hletter⟩
  · exact .inl ⟨h0, h9⟩
  · exact .inr hletter

/-- A line that reads as a dump is a dump line. -/
theorem isDumpLine_of_parse {cs ds : List Char} {n a : Nat} (hn : parseNumber 10 cs = some n)
    (ha : parseAddress ds = some a) : IsDumpLine ('x' :: ' ' :: (cs ++ '/' :: ds)) := by
  obtain ⟨hcs, hcount⟩ := parseNumber_some hn
  have count : ∀ c ∈ cs, '0' ≤ c ∧ c ≤ '9' := fun c hc => by
    obtain ⟨d, hd, hlt⟩ := hcount c hc
    exact digit_of_lt_ten hd hlt
  have address : ∀ {es : List Char}, parseNumber 16 es = some a → es ≠ [] ∧
      ∀ c ∈ es, ('0' ≤ c ∧ c ≤ '9') ∨ ('a' ≤ c ∧ c ≤ 'f') ∨ ('A' ≤ c ∧ c ≤ 'F') := fun h =>
    (parseNumber_some h).imp_right fun hes c hc => by
      obtain ⟨d, hd, -⟩ := hes c hc
      exact hexDigit_of_value hd
  rcases parseAddress_some ha with h | ⟨es, rfl, h⟩
  · obtain ⟨hne, hes⟩ := address h
    exact ⟨cs, ds, hcs, count, hne, hes, .inl rfl⟩
  · obtain ⟨hne, hes⟩ := address h
    exact ⟨cs, es, hcs, count, hne, hes, .inr rfl⟩

/-- Every line but the four words and the dump lines is ignored. -/
theorem parseCommand_ignored {line : List Char} (hw : line ∉ [['s', 't', 'e', 'p'],
    ['c', 'o', 'n', 't', 'i', 'n', 'u', 'e'], ['e', 'x', 'i', 't'], ['r', 'e', 's', 'e', 't']])
    (hd : ¬ IsDumpLine line) : parseCommand line = .ignored := by
  simp only [List.mem_cons, List.not_mem_nil, or_false, not_or] at hw
  obtain ⟨hstep, hcont, hexit, hreset⟩ := hw
  rcases parseCommand_cases line with e | e | e | e | hi | ⟨cs, ds, n, a, rfl, hn, ha⟩
  · exact absurd e hstep
  · exact absurd e hcont
  · exact absurd e hexit
  · exact absurd e hreset
  · exact hi
  · exact absurd (isDumpLine_of_parse hn ha) hd

/-- Settles O59: what each line reads as, and the command it is. -/
theorem commandsChangeOnlyWhatTheyName : Obligations.CommandsChangeOnlyWhatTheyName := by
  intro σ line rest he hm hc
  refine ⟨?_, ?_, ?_, ?_, fun n a j k count digits hcount hdigits hline => ?_, fun hw hd => ?_⟩
  · rintro rfl t hstep
    rw [Session.turn_step he hm hc (Session.stepWaits_next hstep),
      Session.runStep_next (σ := { σ with commands := rest }) hstep]
    exact ⟨rfl, hm, rfl⟩
  · rintro rfl
    exact Session.turn_command he hm hc (c := .run) (by decide) (by simp)
  · rintro rfl
    exact Session.turn_command he hm hc (c := .exit) (by decide) (by simp)
  · rintro rfl
    exact Session.turn_reset he hm hc
  · have hn := parseNumber_count hcount
    have ha := parseNumber_digits (by omega) (by omega) hdigits
    have hp : parseCommand line = .dump n a := by
      rcases hline with rfl | rfl
      · exact parseCommand_dump hn (parseAddress_plain ha)
      · exact parseCommand_dump hn ha
    exact Session.turn_command he hm hc hp (by simp)
  · exact Session.turn_command he hm hc (parseCommand_ignored hw hd) (by simp)

end Sys2Proof.Machine
end
